-- ==== Sys2Proof/Word.lean ====
section
/-!
DEFINITION. The two sizes of data of lbp16 CORE (00_scope.md R5 and R8): bytes and 16-bit words, both unsigned.
-/

namespace Sys2Proof

/-- An 8-bit byte: what one memory address holds and what one opcode or register operand takes. -/
abbrev Byte := BitVec 8

/-- A 16-bit word: a register, a literal, an address, a stored word (XLEN = 16). -/
abbrev Word := BitVec 16

end Sys2Proof
end

