-- ==== Sys2Proof/Config.lean ====
section
/-!
DEFINITION. What an implementation fixes: the names of registers, instructions, formats and devices, the parameters of
00_scope.md R5 as one record of plain data, and the free values of an external device (20_memory.md R59).
-/

namespace Sys2Proof

/-- The registers in the order of 10_state.md R20 (`acu` is a second name of `acc`, R21). -/
inductive Reg where
  | ip | acc | r1 | r2 | r3 | r4 | r5 | r6 | r7 | r8 | sp | fp | im | mb
  deriving DecidableEq, Repr

/-- The names of the 48 instructions of 30_encoding.md R100, without operands: what `OPCODE_MAP` maps a byte to. -/
inductive Op where
  | movLitReg | movRegReg | movRegMem | movMemReg | movLitMem | movRegPtrReg | movLitOffReg
  | addRegReg | addLitReg | subRegReg | subLitReg | subRegLit | mulRegReg | mulLitReg
  | incReg | decReg | lsfRegReg | lsfRegLit | rsfRegReg | rsfRegLit
  | andRegReg | andLitReg | orRegReg | orLitReg | xorRegReg | xorLitReg | not
  | jmpNotEq | jneReg | jeqReg | jeqLit | jltReg | jltLit | jgtReg | jgtLit | jleReg | jleLit | jgeReg | jgeLit
  | pshLit | pshReg | pop | calLit | calReg | ret
  | int | retInt | hlt
  deriving DecidableEq, Repr

/-- The instruction formats of 30_encoding.md R95. -/
inductive Format where
  | litReg | regReg | regMem | memReg | litMem | regPtrReg | litOffReg | regLit | singleReg | singleLit | noArgs
  deriving DecidableEq, Repr

/-- A device as the host creates it at boot (20_memory.md R56-R59); its bytes are in the machine's state. -/
inductive Device where
  /-- A mutable buffer of `size` bytes (R56). -/
  | ram (size : Nat)
  /-- A read-only buffer of `size` bytes (R57). -/
  | rom (size : Nat)
  /-- `count` (BANK_COUNT) buffers of `size` (BANK_SIZE) bytes each, selected by `mb` (R58). -/
  | banked (count size : Nat)
  /-- Any other device: the core calls it and takes its answer (R59). -/
  | external
  deriving DecidableEq, Repr

/-- One `(device, start, size, remap)` tuple of BOOT_MAP (20_memory.md R51); `device` is a position in the device list. -/
structure Region where
  device : Nat
  start  : Nat
  size   : Nat
  remap  : Bool
  deriving DecidableEq, Repr

/-- `REG_INDEX_MODE` (30_encoding.md R94): what a register byte of `NREG` or more does. -/
inductive RegIndexMode where
  /-- It faults (the default). -/
  | check
  /-- It is taken modulo `NREG`. -/
  | modulo
  deriving DecidableEq, Repr

/-- The parameters of 00_scope.md R5 that a model takes. `NREG` follows from `HAS_MB` (`Config.nreg`). -/
structure Config where
  /-- HAS_MB: the register file includes the bank selector `mb`. -/
  hasMb : Bool
  /-- IVT_BASE: base address of the interrupt vector table. -/
  ivtBase : Word
  /-- The devices the host created; BANK_COUNT and BANK_SIZE stand in the banked ones. -/
  devices : List Device
  /-- BOOT_MAP: the regions in the order the host mapped them. -/
  bootMap : List Region
  /-- RESET_IP. -/
  resetIp : Word
  /-- RESET_SP. -/
  resetSp : Word
  /-- RESET_FP. -/
  resetFp : Word
  /-- RESET_IM. -/
  resetIm : Word
  /-- OPCODE_MAP: opcode byte to instruction. -/
  opcodeMap : List (Byte × Op)
  /-- STRICT_OPCODES: an unknown opcode faults instead of acting as a no-op. -/
  strictOpcodes : Bool
  /-- REG_INDEX_MODE. -/
  regIndexMode : RegIndexMode
  /-- SHIFT_COUNT_MOD: shift amounts are taken modulo this. -/
  shiftCountMod : Nat
  deriving DecidableEq, Repr

/-- NREG: 14 exactly when HAS_MB, else 13 (00_scope.md R5, R6). -/
def Config.nreg (c : Config) : Nat := if c.hasMb then 14 else 13

/-- The byte the k-th answer of an external device's `get8` holds: a FREE VALUE (20_memory.md R59; log entry 5). -/
opaque Config.extByte : Nat → Byte

/-- The word the k-th answer of an external device's `get16` holds: a FREE VALUE (20_memory.md R59; log entry 5). -/
opaque Config.extWord : Nat → Word

/-- Whether the k-th call of an external device reports an error: a FREE VALUE (20_memory.md R59; log entry 5). -/
opaque Config.extFails : Nat → Bool

end Sys2Proof
end

