-- ==== Sys2Proof/Syntax.lean ====
section
/-!
DEFINITION. The instructions of lbp16 CORE: one constructor per row of spec/opcode_table.json (30_encoding.md R100), its
operands in the order in which the encoding holds them (R95).
-/

namespace Sys2Proof

/-- The 48 instructions. A `Word` operand is a literal, an address or a shift amount; a `Reg` operand is a register. -/
inductive Instr where
  -- data movement (40_data_movement.md R120-R126)
  | movLitReg (l : Word) (r : Reg)
  | movRegReg (s d : Reg)
  | movRegMem (r : Reg) (a : Word)
  | movMemReg (a : Word) (r : Reg)
  | movLitMem (l a : Word)
  | movRegPtrReg (s d : Reg)
  | movLitOffReg (b : Word) (o d : Reg)
  -- arithmetic (41_alu.md R140-R146)
  | addRegReg (a b : Reg)
  | addLitReg (l : Word) (r : Reg)
  | subRegReg (a b : Reg)
  | subLitReg (l : Word) (r : Reg)
  | subRegLit (r : Reg) (l : Word)
  | mulRegReg (a b : Reg)
  | mulLitReg (l : Word) (r : Reg)
  -- increment, decrement and shifts, in place (41_alu.md R150-R158)
  | incReg (r : Reg)
  | decReg (r : Reg)
  | lsfRegReg (r s : Reg)
  | lsfRegLit (r : Reg) (n : Word)
  | rsfRegReg (r s : Reg)
  | rsfRegLit (r : Reg) (n : Word)
  -- bitwise (41_alu.md R161-R167)
  | andRegReg (a b : Reg)
  | andLitReg (l : Word) (r : Reg)
  | orRegReg (a b : Reg)
  | orLitReg (l : Word) (r : Reg)
  | xorRegReg (a b : Reg)
  | xorLitReg (l : Word) (r : Reg)
  | not (r : Reg)
  -- conditional jumps (42_branch.md R181-R192)
  | jmpNotEq (v t : Word)
  | jneReg (r : Reg) (t : Word)
  | jeqReg (r : Reg) (t : Word)
  | jeqLit (v t : Word)
  | jltReg (r : Reg) (t : Word)
  | jltLit (v t : Word)
  | jgtReg (r : Reg) (t : Word)
  | jgtLit (v t : Word)
  | jleReg (r : Reg) (t : Word)
  | jleLit (v t : Word)
  | jgeReg (r : Reg) (t : Word)
  | jgeLit (v t : Word)
  -- stack and calls (43_stack_call.md R204-R209)
  | pshLit (l : Word)
  | pshReg (r : Reg)
  | pop (r : Reg)
  | calLit (t : Word)
  | calReg (r : Reg)
  | ret
  -- system (44_system.md R230-R232)
  | int (v : Word)
  | retInt
  | hlt
  deriving DecidableEq, Repr

end Sys2Proof
end

