-- ==== Sys2Proof/WellFormed.lean ====
section
/-!
DEFINITION. Which configurations (00_scope.md R6) and which instructions (30_encoding.md R94, R102) are well formed.
-/

namespace Sys2Proof

/-- A region has at least one byte, ends inside the address space (R6), and names a device that exists. -/
def Region.wf (devices : List Device) (g : Region) : Bool :=
  decide (1 ≤ g.size) && decide (g.start + g.size ≤ 0x10000) && decide (g.device < devices.length)

/-- A banked device has at least one bank and exists only when the register file has `mb` (R6). -/
def Device.wf (hasMb : Bool) : Device → Bool
  | .banked count _ => decide (1 ≤ count) && hasMb
  | .ram _ => true
  | .rom _ => true
  | .external => true

/-- 00_scope.md R6: the configurations a model accepts. -/
def Config.wf (c : Config) : Bool :=
  c.bootMap.all (Region.wf c.devices) && c.devices.all (Device.wf c.hasMb) &&
    decide (c.ivtBase.toNat + 31 ≤ 0xFFFF) && decide (1 ≤ c.shiftCountMod)

/-- A register a register operand can name: `mb` only where the register file has it (10_state.md R20, R22). -/
def Reg.present (c : Config) : Reg → Bool
  | .mb => c.hasMb
  | .ip | .acc | .r1 | .r2 | .r3 | .r4 | .r5 | .r6 | .r7 | .r8 | .sp | .fp | .im => true

/-- The register operands of an instruction, in the order of their bytes. -/
def Instr.regs : Instr → List Reg
  | .movLitReg _ r | .movRegMem r _ | .movMemReg _ r => [r]
  | .movRegReg s d | .movRegPtrReg s d => [s, d]
  | .movLitMem _ _ => []
  | .movLitOffReg _ o d => [o, d]
  | .addRegReg a b | .subRegReg a b | .mulRegReg a b | .andRegReg a b | .orRegReg a b | .xorRegReg a b => [a, b]
  | .addLitReg _ r | .subLitReg _ r | .mulLitReg _ r | .andLitReg _ r | .orLitReg _ r | .xorLitReg _ r => [r]
  | .subRegLit r _ | .lsfRegLit r _ | .rsfRegLit r _ => [r]
  | .incReg r | .decReg r | .not r => [r]
  | .lsfRegReg r s | .rsfRegReg r s => [r, s]
  | .jneReg r _ | .jeqReg r _ | .jltReg r _ | .jgtReg r _ | .jleReg r _ | .jgeReg r _ => [r]
  | .jmpNotEq _ _ | .jeqLit _ _ | .jltLit _ _ | .jgtLit _ _ | .jleLit _ _ | .jgeLit _ _ => []
  | .pshReg r | .pop r | .calReg r => [r]
  | .pshLit _ | .calLit _ | .int _ => []
  | .ret | .retInt | .hlt => []

/-- An instruction is well formed when every register operand names a register that exists: the only illegal operand
value is a register index of `NREG` or more (30_encoding.md R102). -/
def Instr.wf (c : Config) (i : Instr) : Bool := i.regs.all (Reg.present c)

end Sys2Proof
end

