-- ==== Sys2Proof/Decode.lean ====
section
/-!
DEFINITION. The encoding of lbp16 CORE (30_encoding.md): the opcode map R100, the formats R95 and R99, the register bytes
R94, a decoder that is total on any bytes and rejects by name, and after it an encoder.
-/

namespace Sys2Proof

/-! ### Words and bytes (00_scope.md R8, R9; 20_memory.md R63) -/

/-- `v[15:8]`, the byte at the lower address of a big-endian word. -/
def wordHi (v : Word) : Byte := v.extractLsb' 8 8

/-- `v[7:0]`, the byte at the higher address. -/
def wordLo (v : Word) : Byte := v.extractLsb' 0 8

/-- `hi ++ lo`: the word `hi * 256 + lo` (00_scope.md R9). -/
def joinBytes (hi lo : Byte) : Word := hi ++ lo

/-! ### Registers (10_state.md R20) -/

/-- The index of a register. -/
def Reg.index : Reg → Nat
  | .ip => 0
  | .acc => 1
  | .r1 => 2
  | .r2 => 3
  | .r3 => 4
  | .r4 => 5
  | .r5 => 6
  | .r6 => 7
  | .r7 => 8
  | .r8 => 9
  | .sp => 10
  | .fp => 11
  | .im => 12
  | .mb => 13

/-- The register of an index, if there is one. -/
def regOfIndex : Nat → Option Reg
  | 0 => some .ip
  | 1 => some .acc
  | 2 => some .r1
  | 3 => some .r2
  | 4 => some .r3
  | 5 => some .r4
  | 6 => some .r5
  | 7 => some .r6
  | 8 => some .r7
  | 9 => some .r8
  | 10 => some .sp
  | 11 => some .fp
  | 12 => some .im
  | 13 => some .mb
  | _ => none

/-- `fetchReg`'s reading of a register byte (30_encoding.md R94): the register, or none where the byte raises
`InvalidRegister`. -/
def decodeReg (c : Config) (b : Byte) : Option Reg :=
  if b.toNat < c.nreg then regOfIndex b.toNat
  else match c.regIndexMode with
    | .check => none
    | .modulo => regOfIndex (b.toNat % c.nreg)

/-- The byte that names a register. -/
def encodeReg (r : Reg) : Byte := BitVec.ofNat 8 r.index

/-! ### Formats (30_encoding.md R95, R99) -/

/-- The length in bytes of an instruction of this format, opcode byte included (R99). -/
def Format.length : Format → Nat
  | .noArgs => 1
  | .singleReg => 2
  | .regReg | .regPtrReg | .singleLit => 3
  | .litReg | .regMem | .memReg | .regLit => 4
  | .litMem | .litOffReg => 5

/-- The kinds of operand a format is made of (R95): a register byte, or a big-endian word. -/
inductive OperandKind where
  | reg | lit
  deriving DecidableEq, Repr

/-- The bytes an operand takes. -/
def OperandKind.length : OperandKind → Nat
  | .reg => 1
  | .lit => 2

/-- The operands of a format, in the order of their bytes (R95). -/
def Format.operands : Format → List OperandKind
  | .noArgs => []
  | .singleReg => [.reg]
  | .singleLit => [.lit]
  | .regReg | .regPtrReg => [.reg, .reg]
  | .regMem | .regLit => [.reg, .lit]
  | .litReg | .memReg => [.lit, .reg]
  | .litMem => [.lit, .lit]
  | .litOffReg => [.lit, .reg, .reg]

/-- The bytes a row of operands takes. -/
def operandsLength (ks : List OperandKind) : Nat := (ks.map OperandKind.length).sum

/-- The format column of R100. -/
def Op.format : Op → Format
  | .movLitReg | .addLitReg | .subLitReg | .mulLitReg | .andLitReg | .orLitReg | .xorLitReg => .litReg
  | .movRegReg | .addRegReg | .subRegReg | .mulRegReg | .lsfRegReg | .rsfRegReg => .regReg
  | .andRegReg | .orRegReg | .xorRegReg => .regReg
  | .movRegMem | .jneReg | .jeqReg | .jltReg | .jgtReg | .jleReg | .jgeReg => .regMem
  | .movMemReg => .memReg
  | .movLitMem | .jmpNotEq | .jeqLit | .jltLit | .jgtLit | .jleLit | .jgeLit => .litMem
  | .movRegPtrReg => .regPtrReg
  | .movLitOffReg => .litOffReg
  | .subRegLit | .lsfRegLit | .rsfRegLit => .regLit
  | .incReg | .decReg | .not | .pshReg | .pop | .calReg => .singleReg
  | .pshLit | .calLit | .int => .singleLit
  | .ret | .retInt | .hlt => .noArgs

/-- What follows an opcode byte, in fetch order (`reg` one byte, `lit` a big-endian word), and the instruction it makes:
the layouts of R95, of which `reg_reg` and `reg_ptr_reg`, `reg_mem` and `reg_lit`, `lit_reg` and `mem_reg` are alike. -/
inductive Shape where
  | noArgs (i : Instr)
  | reg (k : Reg → Instr)
  | lit (k : Word → Instr)
  | regReg (k : Reg → Reg → Instr)
  | regLit (k : Reg → Word → Instr)
  | litReg (k : Word → Reg → Instr)
  | litLit (k : Word → Word → Instr)
  | litRegReg (k : Word → Reg → Reg → Instr)

/-- The operands each instruction fetches, in their order (R95 by way of R100's format column). -/
def Op.shape : Op → Shape
  | .movLitReg => .litReg .movLitReg
  | .movRegReg => .regReg .movRegReg
  | .movRegMem => .regLit .movRegMem
  | .movMemReg => .litReg .movMemReg
  | .movLitMem => .litLit .movLitMem
  | .movRegPtrReg => .regReg .movRegPtrReg
  | .movLitOffReg => .litRegReg .movLitOffReg
  | .addRegReg => .regReg .addRegReg
  | .addLitReg => .litReg .addLitReg
  | .subRegReg => .regReg .subRegReg
  | .subLitReg => .litReg .subLitReg
  | .subRegLit => .regLit .subRegLit
  | .mulRegReg => .regReg .mulRegReg
  | .mulLitReg => .litReg .mulLitReg
  | .incReg => .reg .incReg
  | .decReg => .reg .decReg
  | .lsfRegReg => .regReg .lsfRegReg
  | .lsfRegLit => .regLit .lsfRegLit
  | .rsfRegReg => .regReg .rsfRegReg
  | .rsfRegLit => .regLit .rsfRegLit
  | .andRegReg => .regReg .andRegReg
  | .andLitReg => .litReg .andLitReg
  | .orRegReg => .regReg .orRegReg
  | .orLitReg => .litReg .orLitReg
  | .xorRegReg => .regReg .xorRegReg
  | .xorLitReg => .litReg .xorLitReg
  | .not => .reg .not
  | .jmpNotEq => .litLit .jmpNotEq
  | .jneReg => .regLit .jneReg
  | .jeqReg => .regLit .jeqReg
  | .jeqLit => .litLit .jeqLit
  | .jltReg => .regLit .jltReg
  | .jltLit => .litLit .jltLit
  | .jgtReg => .regLit .jgtReg
  | .jgtLit => .litLit .jgtLit
  | .jleReg => .regLit .jleReg
  | .jleLit => .litLit .jleLit
  | .jgeReg => .regLit .jgeReg
  | .jgeLit => .litLit .jgeLit
  | .pshLit => .lit .pshLit
  | .pshReg => .reg .pshReg
  | .pop => .reg .pop
  | .calLit => .lit .calLit
  | .calReg => .reg .calReg
  | .ret => .noArgs .ret
  | .int => .lit .int
  | .retInt => .noArgs .retInt
  | .hlt => .noArgs .hlt

/-! ### The opcode map (30_encoding.md R100) -/

/-- Rows `0x10` to `0x1F` of R100. -/
def opcodeRows1 : List (Byte × Op) :=
  [(0x10, .movLitReg), (0x11, .movRegReg), (0x12, .movRegMem), (0x13, .movMemReg), (0x14, .addRegReg),
   (0x15, .jmpNotEq), (0x16, .subLitReg), (0x17, .pshLit), (0x18, .pshReg), (0x1A, .pop), (0x1B, .movLitMem),
   (0x1C, .movRegPtrReg), (0x1D, .movLitOffReg), (0x1E, .subRegLit), (0x1F, .subRegReg)]

/-- Rows `0x20` to `0x3F` of R100. -/
def opcodeRows2 : List (Byte × Op) :=
  [(0x20, .mulLitReg), (0x21, .mulRegReg), (0x26, .lsfRegLit), (0x27, .lsfRegReg), (0x2A, .rsfRegLit),
   (0x2B, .rsfRegReg), (0x2E, .andLitReg), (0x2F, .andRegReg), (0x30, .orLitReg), (0x31, .orRegReg),
   (0x32, .xorLitReg), (0x33, .xorRegReg), (0x34, .not), (0x35, .incReg), (0x36, .decReg), (0x3E, .jeqReg),
   (0x3F, .addLitReg)]

/-- Rows `0x40` to `0xFF` of R100. -/
def opcodeRows3 : List (Byte × Op) :=
  [(0x40, .jneReg), (0x41, .jeqLit), (0x42, .jltReg), (0x43, .jltLit), (0x44, .jgtReg), (0x45, .jgtLit),
   (0x46, .jleReg), (0x47, .jleLit), (0x48, .jgeReg), (0x49, .jgeLit), (0x5E, .calLit), (0x5F, .calReg),
   (0x60, .ret), (0xFC, .retInt), (0xFD, .int), (0xFF, .hlt)]

/-- `OPCODE_MAP` as R100 gives it. -/
def opcodeTable : List (Byte × Op) := opcodeRows1 ++ opcodeRows2 ++ opcodeRows3

/-- The instruction an opcode byte names under a configuration's `OPCODE_MAP`; none for an unknown opcode (R101). -/
def Config.opOf (c : Config) (b : Byte) : Option Op := c.opcodeMap.lookup b

/-! ### The decoder -/

/-- Why bytes are no instruction. -/
inductive DecodeError where
  /-- The opcode byte is in no row of the opcode map (30_encoding.md R101). -/
  | unknownOpcode (b : Byte)
  /-- A register byte of `NREG` or more with `REG_INDEX_MODE = check` (R94). -/
  | invalidRegister (b : Byte)
  /-- The bytes end before the instruction does. -/
  | truncated
  deriving DecidableEq, Repr

/-- A value read from the front of a list of bytes and the bytes after it, or the reason there is none. -/
inductive Parsed (α : Type) where
  | ok (a : α) (rest : List Byte)
  | rejected (e : DecodeError)
  deriving DecidableEq, Repr

/-- Read on after a value, stopping at the first rejection. -/
def Parsed.bind {α β : Type} (p : Parsed α) (f : α → List Byte → Parsed β) : Parsed β :=
  match p with
  | .ok a rest => f a rest
  | .rejected e => .rejected e

/-- One byte. -/
def takeByte : List Byte → Parsed Byte
  | [] => .rejected .truncated
  | b :: rest => .ok b rest

/-- A big-endian word (R96, R97). -/
def takeWord : List Byte → Parsed Word
  | hi :: lo :: rest => .ok (joinBytes hi lo) rest
  | _ => .rejected .truncated

/-- A register byte (R98). -/
def takeReg (c : Config) (bs : List Byte) : Parsed Reg :=
  (takeByte bs).bind fun b rest =>
    match decodeReg c b with
    | some r => .ok r rest
    | none => .rejected (.invalidRegister b)

/-- The operands of an instruction, in the order of its format (R91, R95). -/
def decodeShape (c : Config) (sh : Shape) (bs : List Byte) : Parsed Instr :=
  match sh with
  | .noArgs i => .ok i bs
  | .reg k => (takeReg c bs).bind fun r bs => .ok (k r) bs
  | .lit k => (takeWord bs).bind fun l bs => .ok (k l) bs
  | .regReg k => (takeReg c bs).bind fun a bs => (takeReg c bs).bind fun b bs => .ok (k a b) bs
  | .regLit k => (takeReg c bs).bind fun r bs => (takeWord bs).bind fun l bs => .ok (k r l) bs
  | .litReg k => (takeWord bs).bind fun l bs => (takeReg c bs).bind fun r bs => .ok (k l r) bs
  | .litLit k => (takeWord bs).bind fun l bs => (takeWord bs).bind fun a bs => .ok (k l a) bs
  | .litRegReg k =>
    (takeWord bs).bind fun l bs => (takeReg c bs).bind fun o bs => (takeReg c bs).bind fun d bs => .ok (k l o d) bs

/-- Decode the instruction at the front of a list of bytes (R90, R100): total, rejecting by name. -/
def decode (c : Config) (bs : List Byte) : Parsed Instr :=
  (takeByte bs).bind fun b rest =>
    match c.opOf b with
    | some op => decodeShape c op.shape rest
    | none => .rejected (.unknownOpcode b)

/-! ### The encoder, from R95 and R100 -/

/-- The two bytes of a literal or address, high byte first (R95). -/
def litBytes (w : Word) : List Byte := [wordHi w, wordLo w]

/-- The bytes of an instruction. -/
def encode : Instr → List Byte
  | .movLitReg l r => [0x10] ++ litBytes l ++ [encodeReg r]
  | .movRegReg s d => [0x11, encodeReg s, encodeReg d]
  | .movRegMem r a => [0x12, encodeReg r] ++ litBytes a
  | .movMemReg a r => [0x13] ++ litBytes a ++ [encodeReg r]
  | .movLitMem l a => [0x1B] ++ litBytes l ++ litBytes a
  | .movRegPtrReg s d => [0x1C, encodeReg s, encodeReg d]
  | .movLitOffReg b o d => [0x1D] ++ litBytes b ++ [encodeReg o, encodeReg d]
  | .addRegReg a b => [0x14, encodeReg a, encodeReg b]
  | .addLitReg l r => [0x3F] ++ litBytes l ++ [encodeReg r]
  | .subRegReg a b => [0x1F, encodeReg a, encodeReg b]
  | .subLitReg l r => [0x16] ++ litBytes l ++ [encodeReg r]
  | .subRegLit r l => [0x1E, encodeReg r] ++ litBytes l
  | .mulRegReg a b => [0x21, encodeReg a, encodeReg b]
  | .mulLitReg l r => [0x20] ++ litBytes l ++ [encodeReg r]
  | .incReg r => [0x35, encodeReg r]
  | .decReg r => [0x36, encodeReg r]
  | .lsfRegReg r s => [0x27, encodeReg r, encodeReg s]
  | .lsfRegLit r n => [0x26, encodeReg r] ++ litBytes n
  | .rsfRegReg r s => [0x2B, encodeReg r, encodeReg s]
  | .rsfRegLit r n => [0x2A, encodeReg r] ++ litBytes n
  | .andRegReg a b => [0x2F, encodeReg a, encodeReg b]
  | .andLitReg l r => [0x2E] ++ litBytes l ++ [encodeReg r]
  | .orRegReg a b => [0x31, encodeReg a, encodeReg b]
  | .orLitReg l r => [0x30] ++ litBytes l ++ [encodeReg r]
  | .xorRegReg a b => [0x33, encodeReg a, encodeReg b]
  | .xorLitReg l r => [0x32] ++ litBytes l ++ [encodeReg r]
  | .not r => [0x34, encodeReg r]
  | .jmpNotEq v t => [0x15] ++ litBytes v ++ litBytes t
  | .jneReg r t => [0x40, encodeReg r] ++ litBytes t
  | .jeqReg r t => [0x3E, encodeReg r] ++ litBytes t
  | .jeqLit v t => [0x41] ++ litBytes v ++ litBytes t
  | .jltReg r t => [0x42, encodeReg r] ++ litBytes t
  | .jltLit v t => [0x43] ++ litBytes v ++ litBytes t
  | .jgtReg r t => [0x44, encodeReg r] ++ litBytes t
  | .jgtLit v t => [0x45] ++ litBytes v ++ litBytes t
  | .jleReg r t => [0x46, encodeReg r] ++ litBytes t
  | .jleLit v t => [0x47] ++ litBytes v ++ litBytes t
  | .jgeReg r t => [0x48, encodeReg r] ++ litBytes t
  | .jgeLit v t => [0x49] ++ litBytes v ++ litBytes t
  | .pshLit l => [0x17] ++ litBytes l
  | .pshReg r => [0x18, encodeReg r]
  | .pop r => [0x1A, encodeReg r]
  | .calLit t => [0x5E] ++ litBytes t
  | .calReg r => [0x5F, encodeReg r]
  | .ret => [0x60]
  | .int v => [0xFD] ++ litBytes v
  | .retInt => [0xFC]
  | .hlt => [0xFF]

/-! ### The default parameters and the host's view of the opcode table -/

/-- The defaults of 00_scope.md R5. R5 gives BOOT_MAP no default: this is the map of the test vectors, one 64 KiB RAM at
`0x0000` with `remap` true (92_eei_decisions.md D25). DESIGN CHOICE, log entry 2. -/
def defaultConfig : Config where
  hasMb := true
  ivtBase := 0x1000
  devices := [.ram 0x10000]
  bootMap := [{ device := 0, start := 0, size := 0x10000, remap := true }]
  resetIp := 0x0000
  resetSp := 0xFFFE
  resetFp := 0xFFFE
  resetIm := 0xFFFF
  opcodeMap := opcodeTable
  strictOpcodes := false
  regIndexMode := .check
  shiftCountMod := 32

/-- The `n` bytes of a number, its lowest eight bits first: the opcode table's numbering of an instruction's bits. -/
def tableBytes : Nat → Nat → List Byte
  | 0, _ => []
  | n + 1, w => BitVec.ofNat 8 w :: tableBytes n (w / 256)

/-- The instruction the decoder reads from an instruction whose lowest `nbits` bits are `w`, every later bit 0, in the
numbering of spec/opcode_table.json (the first byte is bits 7..0; the longest instruction has five bytes, R99). -/
def decodeTableWord (nbits w : Nat) : Option Instr :=
  match decode defaultConfig (tableBytes 5 (w % 2 ^ nbits)) with
  | .ok i _ => some i
  | .rejected _ => none

end Sys2Proof
end

