-- ==== Sys2Proof/Machine/State.lean ====
section
/-!
DEFINITION. The state of lbp16 CORE as plain data (10_state.md R41, with the boot configuration beside it), the reasons a
run can stop, and the state right after reset (10_state.md R40).
-/

namespace Sys2Proof.Machine

/-- Why the core raised a fault (60_exceptions.md R250), with the `info` it records.

A fault of this hardware is not an outcome of its own kind: R251 says what it does to the state (it fills the fault record,
later steps then do nothing), so a step that raises one answers a NEXT state whose `fault` field holds the record, and no
step answers `Outcome.fault` (log entry 7: exact, so neither safe nor unsafe). The reasons are: -/
inductive Fault where
  /-- Raised by every memory access whose address no region covers; `a` is its first byte's address. Exact. -/
  | unmappedAddress (a : Nat)
  /-- Raised by `fetchReg` for a register byte `b` of `NREG` or more when `REG_INDEX_MODE` is `check`. Exact. -/
  | invalidRegister (b : Byte)
  /-- Raised by RAM, ROM reads and bank buffers for a device-local offset beyond the buffer. Exact. -/
  | deviceRange (off : Nat)
  /-- Raised by a 16-bit access at `0xFFFF`, and by `MOV_LIT_OFF_REG` for a sum above `0xFFFF`. Exact. -/
  | addressOverflow (a : Nat)
  /-- Raised by an access an external device reports an error for; which ones do is free (log entry 5), so safe. -/
  | deviceError (a : Nat)
  /-- Raised by a step whose opcode byte is unknown when `STRICT_OPCODES` is set. Exact. -/
  | illegalOpcode (b : Byte)
  deriving DecidableEq, Repr

/-- The model's reasons to refuse. -/
inductive Refusal where
  /-- An instruction without a meaning yet, by its mnemonic: raised by `exec`'s arm of it. Safe. No arm is left. -/
  | notModelled (mnemonic : String)
  /-- The configuration is ill formed: raised by `step` and `hostInterrupt`, as 00_scope.md R6 asks. Safe. -/
  | illFormedConfig
  deriving DecidableEq, Repr

/-- `(reason, opcode_address, info)` (10_state.md R37); the info stands in the reason. -/
structure FaultRecord where
  reason        : Fault
  opcodeAddress : Word
  deriving DecidableEq, Repr

/-- The register file (10_state.md R20), each register under its own name. -/
structure RegFile where
  ip  : Word
  acc : Word
  r1  : Word
  r2  : Word
  r3  : Word
  r4  : Word
  r5  : Word
  r6  : Word
  r7  : Word
  r8  : Word
  sp  : Word
  fp  : Word
  im  : Word
  mb  : Word
  deriving DecidableEq, Repr

/-- The four operations of a memory device (20_memory.md R55). -/
inductive ExtAccess where
  | get8
  | get16
  | set8 (v : Byte)
  | set16 (v : Word)
  deriving DecidableEq, Repr

/-- One call that an external device received: which device, at which device-local offset (20_memory.md R59). -/
structure ExtCall where
  device : Nat
  offset : Nat
  access : ExtAccess
  deriving DecidableEq, Repr

/-- The bytes of every RAM, ROM and bank buffer: `(cell, byte)` pairs, cells strictly rising, no byte `0x00` listed, since
an unlisted cell reads as `0x00` (10_state.md R40). Which cell is which byte of which buffer: `cellKey`. -/
abbrev Memory := List Host.Cell

/-- The machine. -/
structure State where
  /-- The boot configuration (00_scope.md R5); no step changes it. -/
  cfg       : Config
  /-- The register file (10_state.md R20). -/
  regs      : RegFile
  /-- The frame-size counter `sfs` (10_state.md R35). -/
  sfs       : Word
  /-- `in_handler` (10_state.md R36). -/
  inHandler : Bool
  /-- `halted` (10_state.md R37). -/
  halted    : Bool
  /-- The fault record (10_state.md R37). -/
  fault     : Option FaultRecord
  /-- The contents of the device buffers (10_state.md R39). -/
  mem       : Memory
  /-- The calls external devices received, oldest first (20_memory.md R59, 70_reset_and_hazards.md R292). -/
  calls     : List ExtCall
  /-- The model's own: how many answers external devices have given, which picks the next free value (log entry 5). -/
  draws     : Nat
  deriving DecidableEq, Repr

/-- The registers at reset (10_state.md R40). -/
def RegFile.initial (c : Config) : RegFile where
  ip  := c.resetIp
  acc := 0
  r1  := 0
  r2  := 0
  r3  := 0
  r4  := 0
  r5  := 0
  r6  := 0
  r7  := 0
  r8  := 0
  sp  := c.resetSp
  fp  := c.resetFp
  im  := c.resetIm
  mb  := 0

/-- The core constructed under a configuration, with no image loaded (10_state.md R40, 70_reset_and_hazards.md R280). -/
def State.construct (c : Config) : State where
  cfg       := c
  regs      := RegFile.initial c
  sfs       := 0
  inHandler := false
  halted    := false
  fault     := none
  mem       := []
  calls     := []
  draws     := 0

/-- The machine right after reset, under the default parameters of 00_scope.md R5. -/
def State.reset : State := State.construct defaultConfig

end Sys2Proof.Machine
end

