-- ==== Sys2Proof/Machine/Memory.lean ====
section
/-!
DEFINITION. The store behind the devices: one canonical list of (cell, byte) pairs, and the numbering of the cells.
-/

namespace Sys2Proof.Machine

/-- The cell of the byte at device-local offset `off` of buffer `bank` of device `dev`. Offsets and bank indices that the
core can produce are below `0x10000` (addresses and `mb` are 16 bits), so different bytes have different cells. For device
0 and buffer 0, as in the default map, the cell is the offset itself (log entry 3). -/
def cellKey (dev bank off : Nat) : Nat := (dev * 0x10000 + bank) * 0x10000 + off

/-- What an unlisted cell reads as (10_state.md R40: RAM and bank buffers start as zeros, a ROM is zero where the host
loaded nothing). -/
def unlistedByte : Byte := 0

/-- The byte of a cell. -/
def Memory.read (m : Memory) (k : Nat) : Byte :=
  match m with
  | [] => unlistedByte
  | (k', b) :: rest => if k' = k then b else Memory.read rest k

/-- List a byte for a cell, in place of the one listed for it. -/
def Memory.put (m : Memory) (k : Nat) (b : Byte) : Memory :=
  match m with
  | [] => [(k, b)]
  | (k', b') :: rest =>
    if k' < k then (k', b') :: Memory.put rest k b
    else if k' = k then (k, b) :: rest
    else (k, b) :: (k', b') :: rest

/-- List nothing for a cell. -/
def Memory.drop (m : Memory) (k : Nat) : Memory := m.filter fun e => decide (e.1 ≠ k)

/-- Write the byte of a cell, keeping the canonical form: the value an unlisted cell reads as is not listed. -/
def Memory.write (m : Memory) (k : Nat) (b : Byte) : Memory :=
  if b = unlistedByte then m.drop k else m.put k b

/-- Write consecutive cells. -/
def Memory.writeAll (m : Memory) (k : Nat) : List Byte → Memory
  | [] => m
  | b :: bs => Memory.writeAll (m.write k b) (k + 1) bs

/-- The first cell a list names lies above `k`. -/
def Memory.above (k : Nat) : Memory → Bool
  | [] => true
  | (k', _) :: _ => decide (k < k')

/-- The canonical form: cells strictly rising and no byte that an unlisted cell reads as. -/
def Memory.wf : Memory → Bool
  | [] => true
  | (k, b) :: rest => decide (b ≠ unlistedByte) && Memory.above k rest && Memory.wf rest

end Sys2Proof.Machine
end

