-- ==== Sys2Proof/Machine/Ops.lean ====
section
/-!
DEFINITION. The named operations over registers and memory: register access (10_state.md), the mapper and the devices
(20_memory.md), the instruction stream's fetches (30_encoding.md R92, R93), the stack primitives (43_stack_call.md R200 to
R203), and taking a fault or an interrupt and returning from one (60_exceptions.md).
-/

namespace Sys2Proof.Machine

/-! ### Computations that can raise a fault (00_scope.md R12) -/

/-- What an operation gives: a value and the state it left, or the fault it raised and the state at that point, in which
the effects before the `raise` stand. -/
inductive Res (α : Type) where
  | ok (a : α) (s : State)
  | raised (f : Fault) (s : State)
  deriving DecidableEq, Repr

/-- Go on with the value, unless a fault was raised. -/
def Res.bind {α β : Type} (r : Res α) (k : α → State → Res β) : Res β :=
  match r with
  | .ok a s => k a s
  | .raised f s => .raised f s

/-! ### Registers (10_state.md R20 to R24) -/

/-- `x[r]`. -/
def RegFile.get (f : RegFile) : Reg → Word
  | .ip => f.ip
  | .acc => f.acc
  | .r1 => f.r1
  | .r2 => f.r2
  | .r3 => f.r3
  | .r4 => f.r4
  | .r5 => f.r5
  | .r6 => f.r6
  | .r7 => f.r7
  | .r8 => f.r8
  | .sp => f.sp
  | .fp => f.fp
  | .im => f.im
  | .mb => f.mb

/-- The register file after `x[r] <- v`. -/
def RegFile.set (f : RegFile) (r : Reg) (v : Word) : RegFile :=
  match r with
  | .ip => { f with ip := v }
  | .acc => { f with acc := v }
  | .r1 => { f with r1 := v }
  | .r2 => { f with r2 := v }
  | .r3 => { f with r3 := v }
  | .r4 => { f with r4 := v }
  | .r5 => { f with r5 := v }
  | .r6 => { f with r6 := v }
  | .r7 => { f with r7 := v }
  | .r8 => { f with r8 := v }
  | .sp => { f with sp := v }
  | .fp => { f with fp := v }
  | .im => { f with im := v }
  | .mb => { f with mb := v }

/-- Read a register. -/
def State.getReg (s : State) (r : Reg) : Word := s.regs.get r

/-- Write a register; the word type is the truncation to 16 bits of R23. -/
def State.setReg (s : State) (r : Reg) (v : Word) : State := { s with regs := s.regs.set r v }

/-- Advance `ip` by `n`, wrapping (R27). -/
def State.advance (s : State) (n : Nat) : State := s.setReg .ip (s.getReg .ip + BitVec.ofNat 16 n)

/-- Write the frame-size counter (R35). -/
def State.setSfs (s : State) (v : Word) : State := { s with sfs := v }

/-- Write `in_handler` (R36). -/
def State.setInHandler (s : State) (b : Bool) : State := { s with inHandler := b }

/-- Set `halted` (R37). -/
def State.halt (s : State) : State := { s with halted := true }

/-- Write the store. -/
def State.setMem (s : State) (m : Memory) : State := { s with mem := m }

/-- An external device has taken a call: record it and count the answer (20_memory.md R59; log entries 5 and 6). -/
def State.called (s : State) (c : ExtCall) : State := { s with calls := s.calls ++ [c], draws := s.draws + 1 }

/-! ### The mapper (20_memory.md R51 to R54) -/

/-- Whether a region contains an address; `end = start + size - 1` (R51). -/
def regionHas (g : Region) (a : Nat) : Bool := decide (g.start ≤ a) && decide (a < g.start + g.size)

/-- The region list, most recently mapped first (R52). -/
def regionList (c : Config) : List Region := c.bootMap.reverse

/-- `find_region(a)`: the first region of the list that contains the address (R52). -/
def findRegion (c : Config) (a : Nat) : Option Region := (regionList c).find? fun g => regionHas g a

/-- The device-local offset of an address (R54). -/
def regionOffset (g : Region) (a : Nat) : Nat := if g.remap then a - g.start else a

/-- What serves an access: a byte buffer whose first byte has cell `base`, or an external device. -/
inductive Backing where
  | buffer (base size : Nat) (writable : Bool)
  | external
  deriving DecidableEq, Repr

/-- What serves device `d` at this moment: for a bank-switched device the buffer `mb mod N` (R56 to R59). -/
def State.backing (s : State) (d : Nat) : Option Backing :=
  match s.cfg.devices[d]? with
  | none => none
  | some (.ram size) => some (.buffer (cellKey d 0 0) size true)
  | some (.rom size) => some (.buffer (cellKey d 0 0) size false)
  | some (.banked count size) => some (.buffer (cellKey d ((s.getReg .mb).toNat % count) 0) size true)
  | some .external => some .external

/-- Where an access goes: the device, the offset in it, and what serves it. -/
structure Place where
  device  : Nat
  offset  : Nat
  backing : Backing
  deriving DecidableEq, Repr

/-- Resolve an address (R52, R54, R55); none where no region covers it (R53). -/
def State.resolve (s : State) (a : Nat) : Option Place :=
  match findRegion s.cfg a with
  | none => none
  | some g =>
    match s.backing g.device with
    | none => none
    | some b => some { device := g.device, offset := regionOffset g a, backing := b }

/-! ### Device operations (20_memory.md R55 to R59) -/

/-- `get8` of a buffer (R56). -/
def bufGet8 (base size off : Nat) (s : State) : Res Byte :=
  if size ≤ off then .raised (.deviceRange off) s else .ok (s.mem.read (base + off)) s

/-- `get16` of a buffer, high byte first (R56). -/
def bufGet16 (base size off : Nat) (s : State) : Res Word :=
  if size ≤ off + 1 then .raised (.deviceRange off) s
  else .ok (joinBytes (s.mem.read (base + off)) (s.mem.read (base + off + 1))) s

/-- `set8` of a buffer (R56); a read-only one discards it, whatever the offset (R57). -/
def bufSet8 (base size : Nat) (writable : Bool) (off : Nat) (v : Byte) (s : State) : Res Unit :=
  if writable then
    if size ≤ off then .raised (.deviceRange off) s else .ok () (s.setMem (s.mem.write (base + off) v))
  else .ok () s

/-- `set16` of a buffer, high byte first (R56); a read-only one discards it, whatever the offset (R57). -/
def bufSet16 (base size : Nat) (writable : Bool) (off : Nat) (v : Word) (s : State) : Res Unit :=
  if writable then
    if size ≤ off + 1 then .raised (.deviceRange off) s
    else .ok () (s.setMem ((s.mem.write (base + off) (wordHi v)).write (base + off + 1) (wordLo v)))
  else .ok () s

/-- A call of an external device: it reports an error, or takes the call and answers (R59). An access it reports an error
for has no effect (60_exceptions.md R252). `a` is the address accessed, `answer` the answer to the k-th call. -/
def extCall {α : Type} (answer : Nat → α) (c : ExtCall) (a : Nat) (s : State) : Res α :=
  if Config.extFails s.draws then .raised (.deviceError a) s else .ok (answer s.draws) (s.called c)

/-! ### The access primitives (20_memory.md R60, R61) -/

/-- `MemRead(a, 1)`. -/
def memRead8 (a : Nat) (s : State) : Res Byte :=
  match s.resolve a with
  | none => .raised (.unmappedAddress a) s
  | some ⟨_, off, .buffer base size _⟩ => bufGet8 base size off s
  | some ⟨d, off, .external⟩ => extCall Config.extByte ⟨d, off, .get8⟩ a s

/-- `MemRead(a, 2)`. -/
def memRead16 (a : Nat) (s : State) : Res Word :=
  if a = 0xFFFF then .raised (.addressOverflow a) s
  else match s.resolve a with
    | none => .raised (.unmappedAddress a) s
    | some ⟨_, off, .buffer base size _⟩ => bufGet16 base size off s
    | some ⟨d, off, .external⟩ => extCall Config.extWord ⟨d, off, .get16⟩ a s

/-- `MemWrite(a, 1, v)`. -/
def memWrite8 (a : Nat) (v : Byte) (s : State) : Res Unit :=
  match s.resolve a with
  | none => .raised (.unmappedAddress a) s
  | some ⟨_, off, .buffer base size w⟩ => bufSet8 base size w off v s
  | some ⟨d, off, .external⟩ => extCall (fun _ => ()) ⟨d, off, .set8 v⟩ a s

/-- `MemWrite(a, 2, v)`. -/
def memWrite16 (a : Nat) (v : Word) (s : State) : Res Unit :=
  if a = 0xFFFF then .raised (.addressOverflow a) s
  else match s.resolve a with
    | none => .raised (.unmappedAddress a) s
    | some ⟨_, off, .buffer base size w⟩ => bufSet16 base size w off v s
    | some ⟨d, off, .external⟩ => extCall (fun _ => ()) ⟨d, off, .set16 v⟩ a s

/-! ### The instruction stream (30_encoding.md R92, R93) -/

/-- `fetch8()`. -/
def fetch8 (s : State) : Res Byte :=
  (memRead8 (s.getReg .ip).toNat s).bind fun b s => .ok b (s.advance 1)

/-- `fetch16()`. -/
def fetch16 (s : State) : Res Word :=
  (memRead16 (s.getReg .ip).toNat s).bind fun w s => .ok w (s.advance 2)

/-! ### The stack (43_stack_call.md R200 to R203) -/

/-- `push(v)` (R200). -/
def push (v : Word) (s : State) : Res Unit :=
  (memWrite16 (s.getReg .sp).toNat v s).bind fun _ s =>
    .ok () ((s.setReg .sp (s.getReg .sp - 2)).setSfs (s.sfs + 2))

/-- The effect of `pop()` before its read: `sp` has moved (R201). -/
def popMove (s : State) : State := s.setReg .sp (s.getReg .sp + 2)

/-- `pop()` (R201). -/
def pop (s : State) : Res Word :=
  (memRead16 ((popMove s).getReg .sp).toNat (popMove s)).bind fun v s => .ok v (s.setSfs (s.sfs - 2))

/-- Push a list of registers, each read when its turn comes. -/
def pushRegs : List Reg → State → Res Unit
  | [], s => .ok () s
  | r :: rs, s => (push (s.getReg r) s).bind fun _ s => pushRegs rs s

/-- Pop into a list of registers, in their order. -/
def popRegs : List Reg → State → Res Unit
  | [], s => .ok () s
  | r :: rs, s => (pop s).bind fun v s => popRegs rs (s.setReg r v)

/-- Pop and discard `n` words, each of them read (R203). -/
def popDiscard : Nat → State → Res Unit
  | 0, s => .ok () s
  | n + 1, s => (pop s).bind fun _ s => popDiscard n s

/-- What `push_state` pushes before the frame-size word, in its order (R202). -/
def savedRegs : List Reg := [.r1, .r2, .r3, .r4, .r5, .r6, .r7, .r8, .ip]

/-- `push_state()` (R202). -/
def pushState (s : State) : Res Unit :=
  (pushRegs savedRegs s).bind fun _ s =>
    (push (s.sfs + 2) s).bind fun _ s => .ok () ((s.setReg .fp (s.getReg .sp)).setSfs 0)

/-- `pop_state()` (R203). -/
def popState (s : State) : Res Unit :=
  let f := s.getReg .fp
  (pop (s.setReg .sp f)).bind fun sz s =>
    (popRegs savedRegs.reverse (s.setSfs sz)).bind fun _ s =>
      (pop s).bind fun n s =>
        (popDiscard n.toNat s).bind fun _ s => .ok () (s.setReg .fp (f + sz))

/-! ### Taking an interrupt and returning from one (60_exceptions.md R260 to R267) -/

/-- The line of an interrupt value (R260, R261). -/
def interruptLine (v : Word) : Nat := v.toNat % 16

/-- The address of a line's vector (20_memory.md R68). -/
def vectorAddress (c : Config) (line : Nat) : Nat := c.ivtBase.toNat + 2 * line

/-- The frame save of an accepted interrupt: none inside a handler (R260, R264). -/
def saveInterruptFrame (s : State) : Res Unit :=
  if s.inHandler then .ok () s else (push 0 s).bind fun _ s => pushState s

/-- `handle_interrupt(v)`, the one entry of every interrupt (R260). -/
def handleInterrupt (v : Word) (s : State) : Res Unit :=
  if (s.getReg .im).getLsbD (interruptLine v) then
    (saveInterruptFrame s).bind fun _ s =>
      (memRead16 (vectorAddress s.cfg (interruptLine v)) (s.setInHandler true)).bind fun h s =>
        .ok () (s.setReg .ip h)
  else .ok () s

/-- The return from an interrupt (44_system.md R231). -/
def returnInterrupt (s : State) : Res Unit := popState (s.setInHandler false)

/-! ### Taking a fault (60_exceptions.md R251) and running an instruction -/

/-- The code of a fault reason (R250; 92_eei_decisions.md D31): how a model and a host report it. No instruction reads it. -/
def Fault.code : Fault → Nat
  | .unmappedAddress _ => 1
  | .invalidRegister _ => 2
  | .deviceRange _ => 3
  | .addressOverflow _ => 4
  | .deviceError _ => 5
  | .illegalOpcode _ => 6

/-- The `info` recorded with a reason, as a number (R250). -/
def Fault.info : Fault → Nat
  | .unmappedAddress a | .addressOverflow a | .deviceError a => a
  | .deviceRange off => off
  | .invalidRegister b | .illegalOpcode b => b.toNat

/-- The core's fault entry: the record is set, with the address of the opcode byte; everything else stays (R251, R252). -/
def State.recordFault (s : State) (f : Fault) (opcodeAddress : Word) : State :=
  { s with fault := some { reason := f, opcodeAddress := opcodeAddress } }

/-- The end of an instruction or of an interrupt request that began with `ip = start`. -/
def finish (start : Word) (r : Res Unit) : Host.Outcome State Fault Refusal :=
  match r with
  | .ok _ s => .next s
  | .raised f s => .next (s.recordFault f start)

/-- Run the effect of an instruction of a format, whose opcode byte is at `ip`: the effect sees `ip` past the whole
instruction (30_encoding.md R104), and a fault records the opcode byte's address (60_exceptions.md R251). -/
def run (f : Format) (effect : State → Res Unit) (s : State) : Host.Outcome State Fault Refusal :=
  finish (s.getReg .ip) (effect (s.advance f.length))

end Sys2Proof.Machine
end

