-- ==== Sys2Proof/Machine/Operands.lean ====
section
/-!
DEFINITION. The operand forms: fetching an instruction with its operands from the instruction stream (30_encoding.md R91 to
R106), and the operand addresses an instruction computes (40_data_movement.md R125, R126).
-/

namespace Sys2Proof.Machine

/-- `fetchReg()` (30_encoding.md R94). -/
def fetchReg (s : State) : Res Reg :=
  (fetch8 s).bind fun b s =>
    match decodeReg s.cfg b with
    | some r => .ok r s
    | none => .raised (.invalidRegister b) s

/-- The operand fetches of an instruction, in the order of its format (30_encoding.md R91, R95, R104). -/
def fetchShape (sh : Shape) (s : State) : Res Instr :=
  match sh with
  | .noArgs i => .ok i s
  | .reg k => (fetchReg s).bind fun r s => .ok (k r) s
  | .lit k => (fetch16 s).bind fun l s => .ok (k l) s
  | .regReg k => (fetchReg s).bind fun a s => (fetchReg s).bind fun b s => .ok (k a b) s
  | .regLit k => (fetchReg s).bind fun r s => (fetch16 s).bind fun l s => .ok (k r l) s
  | .litReg k => (fetch16 s).bind fun l s => (fetchReg s).bind fun r s => .ok (k l r) s
  | .litLit k => (fetch16 s).bind fun l s => (fetch16 s).bind fun a s => .ok (k l a) s
  | .litRegReg k =>
    (fetch16 s).bind fun l s => (fetchReg s).bind fun o s => (fetchReg s).bind fun d s => .ok (k l o d) s

/-- Fetch the instruction at `ip` (30_encoding.md R103): `none` is an unknown opcode acting as a 1-byte no-op (R101). -/
def fetchInstr (s : State) : Res (Option Instr) :=
  (fetch8 s).bind fun b s =>
    match s.cfg.opOf b with
    | some op => (fetchShape op.shape s).bind fun i s => .ok (some i) s
    | none => if s.cfg.strictOpcodes then .raised (.illegalOpcode b) s else .ok none s

/-- The state in which a fetched instruction is executed: what fetching did to external devices stands, and `ip` is again
at the opcode byte, from where `run` moves it past the instruction. -/
def State.rewind (s : State) (start : Word) : State := s.setReg .ip start

/-- The effective address `base + x[o]`, the exact sum; above `0xFFFF` it raises `AddressOverflow` (40_data_movement.md
R126, 20_memory.md R76). -/
def offsetAddress (base : Word) (o : Reg) (s : State) : Res Nat :=
  let ea := base.toNat + (s.getReg o).toNat
  if 0xFFFF < ea then .raised (.addressOverflow ea) s else .ok ea s

/-- The address in a pointer register (40_data_movement.md R125). -/
def pointerAddress (p : Reg) (s : State) : Nat := (s.getReg p).toNat

end Sys2Proof.Machine
end

