-- ==== Sys2Proof/Machine/Flags.lean ====
section
/-!
DEFINITION. The core has no flags (10_state.md R34): what other machines compute as flags this one compares inside each
conditional jump (42_branch.md R180). Here are those comparisons, all unsigned, the value V on the left of `acc`.
-/

namespace Sys2Proof.Machine

/-- The six conditions of 42_branch.md R180. -/
inductive Cond where
  | ne | eq | lt | gt | le | ge
  deriving DecidableEq, Repr

/-- `cond(V, acc)`. -/
def condHolds (c : Cond) (v acc : Word) : Bool :=
  match c with
  | .ne => decide (v.toNat ≠ acc.toNat)
  | .eq => decide (v.toNat = acc.toNat)
  | .lt => decide (v.toNat < acc.toNat)
  | .gt => decide (acc.toNat < v.toNat)
  | .le => decide (v.toNat ≤ acc.toNat)
  | .ge => decide (acc.toNat ≤ v.toNat)

end Sys2Proof.Machine
end

