-- ==== Sys2Proof/Machine/Alu.lean ====
section
/-!
DEFINITION. The ALU instructions (41_alu.md): arithmetic and bitwise results in `acc`, computed as "first operand OP second
operand" in encoding order (R148); increment, decrement and shifts in place.
-/

namespace Sys2Proof.Machine

/-! ### Results, all modulo 2^16 (R147) -/

/-- `trunc16(a + b)` (R140). -/
def aluAdd (a b : Word) : Word := a + b

/-- `trunc16(a - b)` (R142). -/
def aluSub (a b : Word) : Word := a - b

/-- The low 16 bits of the exact product (R145). -/
def aluMul (a b : Word) : Word := a * b

/-- `a AND b` (R161). -/
def aluAnd (a b : Word) : Word := a &&& b

/-- `a OR b` (R163). -/
def aluOr (a b : Word) : Word := a ||| b

/-- `a XOR b` (R166). -/
def aluXor (a b : Word) : Word := a ^^^ b

/-- `NOT16(a)` (R167). -/
def aluNot (a : Word) : Word := ~~~a

/-- The amount a shift by `n` shifts by (R154). -/
def shiftAmount (c : Config) (n : Word) : Nat := n.toNat % c.shiftCountMod

/-- `trunc16(v << k)` (R154). -/
def shiftLeft (v : Word) (k : Nat) : Word := v <<< k

/-- `v >> k`, logical (R154). -/
def shiftRight (v : Word) (k : Nat) : Word := v >>> k

/-! ### The forms -/

/-- `acc := reg1 OP reg2`, format `reg_reg`. -/
def aluRegReg (op : Word → Word → Word) (a b : Reg) : State → Host.Outcome State Fault Refusal :=
  run .regReg fun s => .ok () (s.setReg .acc (op (s.getReg a) (s.getReg b)))

/-- `acc := literal OP reg`, format `lit_reg`. -/
def aluLitReg (op : Word → Word → Word) (l : Word) (r : Reg) : State → Host.Outcome State Fault Refusal :=
  run .litReg fun s => .ok () (s.setReg .acc (op l (s.getReg r)))

/-- A shift in place by the amount in a register, format `reg_reg` (R155, R157). -/
def shiftRegReg (op : Word → Nat → Word) (r n : Reg) : State → Host.Outcome State Fault Refusal :=
  run .regReg fun s => .ok () (s.setReg r (op (s.getReg r) (shiftAmount s.cfg (s.getReg n))))

/-- A shift in place by a literal amount, format `reg_lit` (R156, R158). -/
def shiftRegLit (op : Word → Nat → Word) (r : Reg) (n : Word) : State → Host.Outcome State Fault Refusal :=
  run .regLit fun s => .ok () (s.setReg r (op (s.getReg r) (shiftAmount s.cfg n)))

/-! ### Add, subtract, multiply -/

/-- `ADD_REG_REG` (R140). -/
def execAddRegReg (a b : Reg) (s : State) : Host.Outcome State Fault Refusal := aluRegReg aluAdd a b s

/-- `ADD_LIT_REG` (R141). -/
def execAddLitReg (l : Word) (r : Reg) (s : State) : Host.Outcome State Fault Refusal := aluLitReg aluAdd l r s

/-- `SUB_REG_REG` (R142). -/
def execSubRegReg (a b : Reg) (s : State) : Host.Outcome State Fault Refusal := aluRegReg aluSub a b s

/-- `SUB_LIT_REG`: the literal is the minuend (R143). -/
def execSubLitReg (l : Word) (r : Reg) (s : State) : Host.Outcome State Fault Refusal := aluLitReg aluSub l r s

/-- `SUB_REG_LIT`: the register is the minuend (R144). -/
def execSubRegLit (r : Reg) (l : Word) (s : State) : Host.Outcome State Fault Refusal :=
  run .regLit (fun s => .ok () (s.setReg .acc (aluSub (s.getReg r) l))) s

/-- `MUL_REG_REG` (R145). -/
def execMulRegReg (a b : Reg) (s : State) : Host.Outcome State Fault Refusal := aluRegReg aluMul a b s

/-- `MUL_LIT_REG` (R146). -/
def execMulLitReg (l : Word) (r : Reg) (s : State) : Host.Outcome State Fault Refusal := aluLitReg aluMul l r s

/-! ### Increment, decrement, shifts -/

/-- `INC_REG` (R150). -/
def execIncReg (r : Reg) (s : State) : Host.Outcome State Fault Refusal :=
  run .singleReg (fun s => .ok () (s.setReg r (aluAdd (s.getReg r) 1))) s

/-- `DEC_REG` (R151). -/
def execDecReg (r : Reg) (s : State) : Host.Outcome State Fault Refusal :=
  run .singleReg (fun s => .ok () (s.setReg r (aluSub (s.getReg r) 1))) s

/-- `LSF_REG_REG` (R155). -/
def execLsfRegReg (r n : Reg) (s : State) : Host.Outcome State Fault Refusal := shiftRegReg shiftLeft r n s

/-- `LSF_REG_LIT` (R156). -/
def execLsfRegLit (r : Reg) (n : Word) (s : State) : Host.Outcome State Fault Refusal := shiftRegLit shiftLeft r n s

/-- `RSF_REG_REG` (R157). -/
def execRsfRegReg (r n : Reg) (s : State) : Host.Outcome State Fault Refusal := shiftRegReg shiftRight r n s

/-- `RSF_REG_LIT` (R158). -/
def execRsfRegLit (r : Reg) (n : Word) (s : State) : Host.Outcome State Fault Refusal := shiftRegLit shiftRight r n s

/-! ### Bitwise -/

/-- `AND_REG_REG` (R161). -/
def execAndRegReg (a b : Reg) (s : State) : Host.Outcome State Fault Refusal := aluRegReg aluAnd a b s

/-- `AND_LIT_REG` (R162). -/
def execAndLitReg (l : Word) (r : Reg) (s : State) : Host.Outcome State Fault Refusal := aluLitReg aluAnd l r s

/-- `OR_REG_REG` (R163). -/
def execOrRegReg (a b : Reg) (s : State) : Host.Outcome State Fault Refusal := aluRegReg aluOr a b s

/-- `OR_LIT_REG` (R164). -/
def execOrLitReg (l : Word) (r : Reg) (s : State) : Host.Outcome State Fault Refusal := aluLitReg aluOr l r s

/-- `XOR_REG_REG` (R166). -/
def execXorRegReg (a b : Reg) (s : State) : Host.Outcome State Fault Refusal := aluRegReg aluXor a b s

/-- `XOR_LIT_REG` (R165). -/
def execXorLitReg (l : Word) (r : Reg) (s : State) : Host.Outcome State Fault Refusal := aluLitReg aluXor l r s

/-- `NOT` (R167): the result goes to `acc`, not into the operand. -/
def execNot (r : Reg) (s : State) : Host.Outcome State Fault Refusal :=
  run .singleReg (fun s => .ok () (s.setReg .acc (aluNot (s.getReg r)))) s

end Sys2Proof.Machine
end

