-- ==== Sys2Proof/Machine/Branch.lean ====
section
/-!
DEFINITION. The conditional jumps (42_branch.md R180 to R192).
-/

namespace Sys2Proof.Machine

/-- `if cond(V, acc) then ip <- T` (R180). -/
def jumpIf (c : Cond) (v t : Word) (s : State) : State :=
  if condHolds c v (s.getReg .acc) then s.setReg .ip t else s

/-- The literal form, format `lit_mem`. -/
def jumpLit (c : Cond) (v t : Word) : State → Host.Outcome State Fault Refusal :=
  run .litMem fun s => .ok () (jumpIf c v t s)

/-- The register form, format `reg_mem`; the register is read after all fetches. -/
def jumpReg (c : Cond) (r : Reg) (t : Word) : State → Host.Outcome State Fault Refusal :=
  run .regMem fun s => .ok () (jumpIf c (s.getReg r) t s)

/-- `JMP_NOT_EQ`, also `JNE_LIT` (R181). -/
def execJmpNotEq (v t : Word) (s : State) : Host.Outcome State Fault Refusal := jumpLit .ne v t s

/-- `JNE_REG` (R182). -/
def execJneReg (r : Reg) (t : Word) (s : State) : Host.Outcome State Fault Refusal := jumpReg .ne r t s

/-- `JEQ_REG` (R183). -/
def execJeqReg (r : Reg) (t : Word) (s : State) : Host.Outcome State Fault Refusal := jumpReg .eq r t s

/-- `JEQ_LIT` (R184). -/
def execJeqLit (v t : Word) (s : State) : Host.Outcome State Fault Refusal := jumpLit .eq v t s

/-- `JLT_REG` (R185). -/
def execJltReg (r : Reg) (t : Word) (s : State) : Host.Outcome State Fault Refusal := jumpReg .lt r t s

/-- `JLT_LIT` (R186). -/
def execJltLit (v t : Word) (s : State) : Host.Outcome State Fault Refusal := jumpLit .lt v t s

/-- `JGT_REG` (R187). -/
def execJgtReg (r : Reg) (t : Word) (s : State) : Host.Outcome State Fault Refusal := jumpReg .gt r t s

/-- `JGT_LIT` (R188). -/
def execJgtLit (v t : Word) (s : State) : Host.Outcome State Fault Refusal := jumpLit .gt v t s

/-- `JLE_REG` (R189). -/
def execJleReg (r : Reg) (t : Word) (s : State) : Host.Outcome State Fault Refusal := jumpReg .le r t s

/-- `JLE_LIT` (R190). -/
def execJleLit (v t : Word) (s : State) : Host.Outcome State Fault Refusal := jumpLit .le v t s

/-- `JGE_REG` (R191). -/
def execJgeReg (r : Reg) (t : Word) (s : State) : Host.Outcome State Fault Refusal := jumpReg .ge r t s

/-- `JGE_LIT` (R192). -/
def execJgeLit (v t : Word) (s : State) : Host.Outcome State Fault Refusal := jumpLit .ge v t s

end Sys2Proof.Machine
end

