-- ==== Sys2Proof/Machine/DataMovement.lean ====
section
/-!
DEFINITION. The data movement instructions (40_data_movement.md R120 to R126).
-/

namespace Sys2Proof.Machine

/-- Read the word at an address into a register (R123, R125, R126). -/
def loadWord (a : Nat) (d : Reg) (s : State) : Res Unit :=
  (memRead16 a s).bind fun w s => .ok () (s.setReg d w)

/-- `MOV_LIT_REG` (R120). -/
def execMovLitReg (l : Word) (r : Reg) (s : State) : Host.Outcome State Fault Refusal :=
  run .litReg (fun s => .ok () (s.setReg r l)) s

/-- `MOV_REG_REG` (R121). -/
def execMovRegReg (src d : Reg) (s : State) : Host.Outcome State Fault Refusal :=
  run .regReg (fun s => .ok () (s.setReg d (s.getReg src))) s

/-- `MOV_REG_MEM` (R122). -/
def execMovRegMem (r : Reg) (a : Word) (s : State) : Host.Outcome State Fault Refusal :=
  run .regMem (fun s => memWrite16 a.toNat (s.getReg r) s) s

/-- `MOV_MEM_REG` (R123). -/
def execMovMemReg (a : Word) (r : Reg) (s : State) : Host.Outcome State Fault Refusal :=
  run .memReg (loadWord a.toNat r) s

/-- `MOV_LIT_MEM` (R124). -/
def execMovLitMem (l a : Word) (s : State) : Host.Outcome State Fault Refusal :=
  run .litMem (memWrite16 a.toNat l) s

/-- `MOV_REG_PTR_REG` (R125). -/
def execMovRegPtrReg (src d : Reg) (s : State) : Host.Outcome State Fault Refusal :=
  run .regPtrReg (fun s => loadWord (pointerAddress src s) d s) s

/-- `MOV_LIT_OFF_REG` (R126). -/
def execMovLitOffReg (b : Word) (o d : Reg) (s : State) : Host.Outcome State Fault Refusal :=
  run .litOffReg (fun s => (offsetAddress b o s).bind fun ea s => loadWord ea d s) s

end Sys2Proof.Machine
end

