-- ==== Sys2Proof/Machine/StackCall.lean ====
section
/-!
DEFINITION. The stack and call instructions (43_stack_call.md R204 to R209), over the primitives of Ops.lean.
-/

namespace Sys2Proof.Machine

/-- `push_state(); ip <- target` (R207, R208). -/
def callTo (t : Word) (s : State) : Res Unit := (pushState s).bind fun _ s => .ok () (s.setReg .ip t)

/-- `PSH_LIT` (R204). -/
def execPshLit (l : Word) (s : State) : Host.Outcome State Fault Refusal := run .singleLit (push l) s

/-- `PSH_REG` (R205). -/
def execPshReg (r : Reg) (s : State) : Host.Outcome State Fault Refusal :=
  run .singleReg (fun s => push (s.getReg r) s) s

/-- `POP` (R206). -/
def execPop (r : Reg) (s : State) : Host.Outcome State Fault Refusal :=
  run .singleReg (fun s => (pop s).bind fun v s => .ok () (s.setReg r v)) s

/-- `CAL_LIT` (R207). -/
def execCalLit (t : Word) (s : State) : Host.Outcome State Fault Refusal := run .singleLit (callTo t) s

/-- `CAL_REG` (R208): the target is read before the frame is pushed. -/
def execCalReg (r : Reg) (s : State) : Host.Outcome State Fault Refusal :=
  run .singleReg (fun s => callTo (s.getReg r) s) s

/-- `RET` (R209). -/
def execRet (s : State) : Host.Outcome State Fault Refusal := run .noArgs popState s

end Sys2Proof.Machine
end

