-- ==== Sys2Proof/Machine/System.lean ====
section
/-!
DEFINITION. The interrupt and halt instructions (44_system.md R230 to R232), over the interrupt entry and return of
Ops.lean.
-/

namespace Sys2Proof.Machine

/-- `INT` (R230). -/
def execInt (v : Word) (s : State) : Host.Outcome State Fault Refusal := run .singleLit (handleInterrupt v) s

/-- `RET_INT` (R231). -/
def execRetInt (s : State) : Host.Outcome State Fault Refusal := run .noArgs returnInterrupt s

/-- `HLT` (R232). -/
def execHlt (s : State) : Host.Outcome State Fault Refusal := run .noArgs (fun s => .ok () s.halt) s

end Sys2Proof.Machine
end

