-- ==== Sys2Proof/Machine/Dispatch.lean ====
section
/-!
DEFINITION. What each instruction does, one arm per constructor of Instr: exec i s is the effect of instruction i whose
opcode byte is at s's ip.
-/

namespace Sys2Proof.Machine

def exec (i : Instr) (s : State) : Host.Outcome State Fault Refusal :=
  match i with
  -- data movement (40_data_movement.md R120-R126)
  | .movLitReg l r => Sys2Proof.Machine.execMovLitReg l r s
  | .movRegReg x d => Sys2Proof.Machine.execMovRegReg x d s
  | .movRegMem r a => Sys2Proof.Machine.execMovRegMem r a s
  | .movMemReg a r => Sys2Proof.Machine.execMovMemReg a r s
  | .movLitMem l a => Sys2Proof.Machine.execMovLitMem l a s
  | .movRegPtrReg x d => Sys2Proof.Machine.execMovRegPtrReg x d s
  | .movLitOffReg b o d => Sys2Proof.Machine.execMovLitOffReg b o d s
  -- arithmetic (41_alu.md R140-R146)
  | .addRegReg a b => Sys2Proof.Machine.execAddRegReg a b s
  | .addLitReg l r => Sys2Proof.Machine.execAddLitReg l r s
  | .subRegReg a b => Sys2Proof.Machine.execSubRegReg a b s
  | .subLitReg l r => Sys2Proof.Machine.execSubLitReg l r s
  | .subRegLit r l => Sys2Proof.Machine.execSubRegLit r l s
  | .mulRegReg a b => Sys2Proof.Machine.execMulRegReg a b s
  | .mulLitReg l r => Sys2Proof.Machine.execMulLitReg l r s
  -- increment, decrement and shifts, in place (41_alu.md R150-R158)
  | .incReg r => Sys2Proof.Machine.execIncReg r s
  | .decReg r => Sys2Proof.Machine.execDecReg r s
  | .lsfRegReg r x => Sys2Proof.Machine.execLsfRegReg r x s
  | .lsfRegLit r n => Sys2Proof.Machine.execLsfRegLit r n s
  | .rsfRegReg r x => Sys2Proof.Machine.execRsfRegReg r x s
  | .rsfRegLit r n => Sys2Proof.Machine.execRsfRegLit r n s
  -- bitwise (41_alu.md R161-R167)
  | .andRegReg a b => Sys2Proof.Machine.execAndRegReg a b s
  | .andLitReg l r => Sys2Proof.Machine.execAndLitReg l r s
  | .orRegReg a b => Sys2Proof.Machine.execOrRegReg a b s
  | .orLitReg l r => Sys2Proof.Machine.execOrLitReg l r s
  | .xorRegReg a b => Sys2Proof.Machine.execXorRegReg a b s
  | .xorLitReg l r => Sys2Proof.Machine.execXorLitReg l r s
  | .not r => Sys2Proof.Machine.execNot r s
  -- conditional jumps (42_branch.md R181-R192)
  | .jmpNotEq v t => Sys2Proof.Machine.execJmpNotEq v t s
  | .jneReg r t => Sys2Proof.Machine.execJneReg r t s
  | .jeqReg r t => Sys2Proof.Machine.execJeqReg r t s
  | .jeqLit v t => Sys2Proof.Machine.execJeqLit v t s
  | .jltReg r t => Sys2Proof.Machine.execJltReg r t s
  | .jltLit v t => Sys2Proof.Machine.execJltLit v t s
  | .jgtReg r t => Sys2Proof.Machine.execJgtReg r t s
  | .jgtLit v t => Sys2Proof.Machine.execJgtLit v t s
  | .jleReg r t => Sys2Proof.Machine.execJleReg r t s
  | .jleLit v t => Sys2Proof.Machine.execJleLit v t s
  | .jgeReg r t => Sys2Proof.Machine.execJgeReg r t s
  | .jgeLit v t => Sys2Proof.Machine.execJgeLit v t s
  -- stack and calls (43_stack_call.md R204-R209)
  | .pshLit l => Sys2Proof.Machine.execPshLit l s
  | .pshReg r => Sys2Proof.Machine.execPshReg r s
  | .pop r => Sys2Proof.Machine.execPop r s
  | .calLit t => Sys2Proof.Machine.execCalLit t s
  | .calReg r => Sys2Proof.Machine.execCalReg r s
  | .ret => Sys2Proof.Machine.execRet s
  -- system (44_system.md R230-R232)
  | .int v => Sys2Proof.Machine.execInt v s
  | .retInt => Sys2Proof.Machine.execRetInt s
  | .hlt => Sys2Proof.Machine.execHlt s

end Sys2Proof.Machine
end

