-- ==== Sys2Proof/Machine/HostSide.lean ====
section
/-!
DEFINITION. What the host does to the core besides asking for steps (00_scope.md R7, 70_reset_and_hazards.md R290): interrupt
requests, the fault indication, register access by name, loading images, boot, and placing an instruction's bytes for the host's own questions.
-/

namespace Sys2Proof.Machine

/-- While the core is halted or a fault is recorded it executes no step and accepts no interrupt (10_state.md R37). -/
def State.stopped (s : State) : Bool := s.halted || s.fault.isSome

/-- A host interrupt request, a transition of its own between steps (60_exceptions.md R262). -/
def hostInterrupt (v : Word) (s : State) : Host.Outcome State Fault Refusal :=
  if s.cfg.wf then if s.stopped then .next s else finish (s.getReg .ip) (handleInterrupt v s)
  else .refused .illFormedConfig

/-! ### The fault indication (00_scope.md R7, 60_exceptions.md R250, R251) -/

/-- What the host is told of a recorded fault: the code of the reason, the opcode address, the info. -/
def State.faultReport (s : State) : Option (Nat × Word × Nat) :=
  s.fault.map fun r => (r.reason.code, r.opcodeAddress, r.reason.info)

/-! ### Registers by name (10_state.md R25) -/

/-- Why a host operation by register name fails. -/
inductive HostError where
  /-- `UnknownRegister`: the name is not in the closed register set. -/
  | unknownRegister
  deriving DecidableEq, Repr

/-- The names of the registers (10_state.md R20; `acu` is a second name of `acc`, R21). -/
def registerNames : List (String × Reg) :=
  [("ip", .ip), ("acc", .acc), ("acu", .acc), ("r1", .r1), ("r2", .r2), ("r3", .r3), ("r4", .r4), ("r5", .r5),
   ("r6", .r6), ("r7", .r7), ("r8", .r8), ("sp", .sp), ("fp", .fp), ("im", .im), ("mb", .mb)]

/-- The register a name stands for, among those the register file has. -/
def regOfName (c : Config) (name : String) : Option Reg := (registerNames.lookup name).filter (Reg.present c)

/-- The host's `get(name)`. -/
def hostGet (name : String) (s : State) : Except HostError Word :=
  match regOfName s.cfg name with
  | some r => .ok (s.getReg r)
  | none => .error .unknownRegister

/-- The host's `set(name, v)`; a failing call gives no new state. -/
def hostSet (name : String) (v : Word) (s : State) : Except HostError State :=
  match regOfName s.cfg name with
  | some r => .ok (s.setReg r v)
  | none => .error .unknownRegister

/-! ### Boot (70_reset_and_hazards.md R281, R283) -/

/-- An image the host installs at boot (20_memory.md R70). -/
inductive Image where
  /-- The mapper's `load(start, bytes)`: sequential `set8`, so a ROM discards it. -/
  | mapped (start : Nat) (bytes : List Byte)
  /-- A device's own `load(bytes, offset)`, into one of its buffers, read-only or not. -/
  | device (dev bank offset : Nat) (bytes : List Byte)
  deriving DecidableEq, Repr

/-- Why a boot is refused. -/
inductive BootError where
  /-- The configuration is ill formed (00_scope.md R6). -/
  | illFormedConfig
  /-- A `load` through the mapper raised a fault (70_reset_and_hazards.md R283). -/
  | loadFault (f : Fault)
  /-- A device image names no buffer, or does not fit it (log entry 15). -/
  | badImage
  deriving DecidableEq, Repr

/-- What a boot comes to. -/
inductive Boot where
  | ready (s : State)
  | refused (e : BootError)
  deriving DecidableEq, Repr

/-- The mapper's `load` (20_memory.md R70). -/
def mapperLoad (start : Nat) : List Byte → State → Res Unit
  | [], s => .ok () s
  | b :: bs, s => (memWrite8 start b s).bind fun _ s => mapperLoad (start + 1) bs s

/-- The size of a buffer of a device, where it has that buffer. -/
def bufferSize (c : Config) (dev bank : Nat) : Option Nat :=
  match c.devices[dev]? with
  | some (.ram size) => if bank = 0 then some size else none
  | some (.rom size) => if bank = 0 then some size else none
  | some (.banked count size) => if bank < count then some size else none
  | some .external => none
  | none => none

/-- A device's own `load` (20_memory.md R70). Bytes that no 16-bit address and no value of `mb` can reach are not held
(log entry 3). -/
def deviceLoad (dev bank offset : Nat) (bytes : List Byte) (s : State) : Option State :=
  match bufferSize s.cfg dev bank with
  | none => none
  | some size =>
    if size < offset + bytes.length then none
    else if bank < 0x10000 then
      some (s.setMem (s.mem.writeAll (cellKey dev bank offset) (bytes.take (0x10000 - offset))))
    else some s

/-- Install images, in the host's order. -/
def installImages : List Image → State → Boot
  | [], s => .ready s
  | .mapped start bytes :: rest, s =>
    match mapperLoad start bytes s with
    | .ok _ s => installImages rest s
    | .raised f _ => .refused (.loadFault f)
  | .device dev bank offset bytes :: rest, s =>
    match deviceLoad dev bank offset bytes s with
    | some s => installImages rest s
    | none => .refused .badImage

/-- Boot a core (70_reset_and_hazards.md R281): a well-formed configuration, its images installed, the registers and hidden
state at their reset values. -/
def boot (c : Config) (images : List Image) : Boot :=
  if c.wf then installImages images (State.construct c) else .refused .illFormedConfig

/-! ### Placing bytes -/

/-- Put a byte where an access of this address goes, into a read-only buffer too; an address that no buffer serves stays
as it is. -/
def State.placeByte (s : State) (a : Word) (b : Byte) : State :=
  match s.resolve a.toNat with
  | some ⟨_, off, .buffer base size _⟩ => if off < size then s.setMem (s.mem.write (base + off) b) else s
  | some ⟨_, _, .external⟩ => s
  | none => s

/-- Put bytes at consecutive addresses, which wrap. -/
def State.placeBytes (s : State) (a : Word) : List Byte → State
  | [] => s
  | b :: bs => (s.placeByte a b).placeBytes (a + 1) bs

end Sys2Proof.Machine
end

