-- ==== Sys2Proof/Machine/Step.lean ====
section
/-!
DEFINITION. One step (30_encoding.md R103, 70_reset_and_hazards.md R287), and the state in which a given instruction is the
next one fetched.
-/

namespace Sys2Proof.Machine

/-- Execute one instruction: fetch it, then its meaning. A fault of the fetch is recorded with the opcode byte's address
(60_exceptions.md R251); an unknown opcode is a 1-byte no-op unless it faults (30_encoding.md R101). -/
def stepRunning (s : State) : Host.Outcome State Fault Refusal :=
  match fetchInstr s with
  | .ok (some i) s' => exec i (s'.rewind (s.getReg .ip))
  | .ok none s' => .next s'
  | .raised f s' => .next (s'.recordFault f (s.getReg .ip))

/-- A step request (70_reset_and_hazards.md R287): nothing happens while halted or faulted. An ill-formed configuration is
refused (00_scope.md R6). -/
def step (s : State) : Host.Outcome State Fault Refusal :=
  if s.cfg.wf then if s.stopped then .next s else stepRunning s
  else .refused .illFormedConfig

/-- The state with an instruction placed where `step` fetches next (log entry 11): its five bytes, lowest bits first as
spec/opcode_table.json numbers them and every bit from `nbits` on 0, stand at `ip`, `ip + 1`, ... in the buffers that serve
these addresses, read-only ones too; and the core is not stopped. -/
def State.withFetchWord (s : State) (nbits w : Nat) : State :=
  ({ s with halted := false, fault := none } : State).placeBytes (s.getReg .ip) (tableBytes 5 (w % 2 ^ nbits))

end Sys2Proof.Machine
end

