-- ==== Sys2Proof/Safety.lean ====
section
/-!
DEFINITION. The terms in which claims about the machine are stated: which bytes an access reaches, what an instruction leaves
unchanged, the invariants of a run, the host's transitions, and how a run ends.
-/

namespace Sys2Proof.Machine

/-! ### Which bytes an access reaches -/

/-- The cell of the byte an 8-bit access at an address reaches, where a byte buffer serves it. -/
def State.byteCell (s : State) (a : Nat) : Option Nat :=
  match s.resolve a with
  | some ⟨_, off, .buffer base size _⟩ => if off < size then some (base + off) else none
  | some ⟨_, _, .external⟩ => none
  | none => none

/-- The cell of the first byte a 16-bit access at an address reaches, where a byte buffer serves both bytes; the second
byte is the next cell. -/
def State.wordCell (s : State) (a : Nat) : Option Nat :=
  if a = 0xFFFF then none
  else match s.resolve a with
    | some ⟨_, off, .buffer base size _⟩ => if off + 1 < size then some (base + off) else none
    | some ⟨_, _, .external⟩ => none
    | none => none

/-- Whether the buffer that serves an address is a ROM. -/
def State.romAt (s : State) (a : Nat) : Bool :=
  match s.resolve a with
  | some ⟨_, _, .buffer _ _ writable⟩ => !writable
  | some ⟨_, _, .external⟩ => false
  | none => false

/-- The word at an address, where a byte buffer serves it (and 0 elsewhere). -/
def State.wordAt (s : State) (a : Nat) : Word :=
  match s.wordCell a with
  | some k => joinBytes (s.mem.read k) (s.mem.read (k + 1))
  | none => 0

/-- A 16-bit store at an address completes: a mutable buffer takes both bytes, or a ROM discards them. -/
def State.storable (s : State) (a : Nat) : Bool :=
  decide (a ≠ 0xFFFF) && (s.romAt a || (s.wordCell a).isSome)

/-- The cells a 16-bit store at an address writes: both bytes in a mutable buffer, none in a ROM. -/
def State.storedCells (s : State) (a : Nat) : List Nat :=
  if s.romAt a then [] else match s.wordCell a with
    | some k => [k, k + 1]
    | none => []

/-- The cells that `n` pushes starting with `sp = p` write. -/
def State.pushedCells (s : State) (p : Word) : Nat → List Nat
  | 0 => []
  | n + 1 => s.storedCells p.toNat ++ State.pushedCells s (p - 2) n

/-- `n` pushes starting with `sp = p` complete. -/
def State.pushable (s : State) (p : Word) : Nat → Bool
  | 0 => true
  | n + 1 => s.storable p.toNat && State.pushable s (p - 2) n

/-- `n` pops starting with `sp = p` complete, from byte buffers. -/
def State.poppable (s : State) (p : Word) : Nat → Bool
  | 0 => true
  | n + 1 => (s.wordCell (p + 2).toNat).isSome && State.poppable s (p + 2) n

/-- The word that the pop number `j` (from 0) takes, starting with `sp = p`. -/
def State.popped (s : State) (p : Word) (j : Nat) : Word := s.wordAt (p + BitVec.ofNat 16 (2 * j + 2)).toNat

/-- The fault of a 16-bit access at an address, a store if `storing` and a load otherwise, where it has one: the first in the
order `AddressOverflow`, `UnmappedAddress`, the device's own (60_exceptions.md R253). A ROM reports none for a store. -/
def State.wordFault (s : State) (storing : Bool) (a : Nat) : Option Fault :=
  if a = 0xFFFF then some (.addressOverflow a)
  else match s.resolve a with
    | none => some (.unmappedAddress a)
    | some ⟨_, off, .buffer _ size writable⟩ =>
      if size ≤ off + 1 && (writable || !storing) then some (.deviceRange off) else none
    | some ⟨_, _, .external⟩ => if Config.extFails s.draws then some (.deviceError a) else none

/-- The fault of an 8-bit read at an address, where it has one (60_exceptions.md R253). -/
def State.byteFault (s : State) (a : Nat) : Option Fault :=
  match s.resolve a with
  | none => some (.unmappedAddress a)
  | some ⟨_, off, .buffer _ size _⟩ => if size ≤ off then some (.deviceRange off) else none
  | some ⟨_, _, .external⟩ => if Config.extFails s.draws then some (.deviceError a) else none

/-! ### Fetching operands (30_encoding.md R93 to R95, R106) -/

/-- An operand at an address is fetched from a byte buffer, and a register byte names a register. -/
def State.operandRead (s : State) (a : Word) : OperandKind → Bool
  | .reg => match s.byteCell a.toNat with
    | some k => (decodeReg s.cfg (s.mem.read k)).isSome
    | none => false
  | .lit => (s.wordCell a.toNat).isSome

/-- Operands that follow each other from an address are fetched so. -/
def State.operandsRead (s : State) (a : Word) : List OperandKind → Bool
  | [] => true
  | k :: ks => s.operandRead a k && State.operandsRead s (a + BitVec.ofNat 16 k.length) ks

/-- The fault of fetching an operand at an address, where it has one, with the bytes of the operand that `ip` has passed: none
where the access faults, the register byte itself where it is no register's. -/
def State.operandFault (s : State) (a : Word) : OperandKind → Option (Fault × Nat)
  | .reg => match s.byteFault a.toNat with
    | some f => some (f, 0)
    | none => match s.byteCell a.toNat with
      | some k => if (decodeReg s.cfg (s.mem.read k)).isNone then some (.invalidRegister (s.mem.read k), 1) else none
      | none => none
  | .lit => (s.wordFault false a.toNat).map fun f => (f, 0)

/-! ### Code in memory -/

/-- The bytes of an instruction stand at consecutive addresses from `a`, none beyond `0xFFFF`, all served by buffer bytes
of the one region that serves `a`. -/
def State.holdsCode (s : State) (a : Nat) (bs : List Byte) : Prop :=
  a + bs.length ≤ 0x10000 ∧ ∃ g, ∀ j (h : j < bs.length), findRegion s.cfg (a + j) = some g ∧
    ∃ k, s.byteCell (a + j) = some k ∧ s.mem.read k = bs[j]

/-! ### What stays unchanged -/

/-- From `s` to `t` nothing changed but the registers of a list, bytes of the store in a list of cells, and the hidden
`sfs` and `in_handler`, of which a claim speaks for itself. -/
structure Unchanged (regs : List Reg) (cells : List Nat) (s t : State) : Prop where
  regs   : ∀ r, r ∉ regs → t.getReg r = s.getReg r
  mem    : ∀ k, k ∉ cells → t.mem.read k = s.mem.read k
  cfg    : t.cfg = s.cfg
  halted : t.halted = s.halted
  fault  : t.fault = s.fault
  calls  : t.calls = s.calls
  draws  : t.draws = s.draws

/-- `sfs` and `in_handler` are unchanged. -/
def SameHidden (s t : State) : Prop := t.sfs = s.sfs ∧ t.inHandler = s.inHandler

/-- The value of a register operand of an instruction of `n` bytes: `ip` reads as the address of the next sequential
instruction (30_encoding.md R104). -/
def operand (n : Nat) (s : State) (r : Reg) : Word :=
  if r = .ip then s.getReg .ip + BitVec.ofNat 16 n else s.getReg r

/-- `trunc16` of an exact integer (00_scope.md R9). -/
def trunc16 (n : Int) : Word := BitVec.ofInt 16 n

/-- The registers an instruction can write (40_data_movement.md to 44_system.md), `ip` among them for each. -/
def writesOf : Instr → List Reg
  | .movLitReg _ d | .movRegReg _ d | .movMemReg _ d | .movRegPtrReg _ d | .movLitOffReg _ _ d => [.ip, d]
  | .incReg d | .decReg d | .lsfRegReg d _ | .lsfRegLit d _ | .rsfRegReg d _ | .rsfRegLit d _ => [.ip, d]
  | .movRegMem _ _ | .movLitMem _ _ => [.ip]
  | .addRegReg _ _ | .addLitReg _ _ | .subRegReg _ _ | .subLitReg _ _ | .subRegLit _ _ => [.ip, .acc]
  | .mulRegReg _ _ | .mulLitReg _ _ | .not _ => [.ip, .acc]
  | .andRegReg _ _ | .andLitReg _ _ | .orRegReg _ _ | .orLitReg _ _ | .xorRegReg _ _ | .xorLitReg _ _ => [.ip, .acc]
  | .jmpNotEq _ _ | .jneReg _ _ | .jeqReg _ _ | .jeqLit _ _ | .jltReg _ _ | .jltLit _ _ => [.ip]
  | .jgtReg _ _ | .jgtLit _ _ | .jleReg _ _ | .jleLit _ _ | .jgeReg _ _ | .jgeLit _ _ => [.ip]
  | .pshLit _ | .pshReg _ => [.ip, .sp]
  | .pop d => [.ip, .sp, d]
  | .calLit _ | .calReg _ | .int _ => [.ip, .sp, .fp]
  | .ret | .retInt => [.ip, .r1, .r2, .r3, .r4, .r5, .r6, .r7, .r8, .sp, .fp]
  | .hlt => [.ip]

/-- The instructions that can store to memory: the two data stores and those that push. -/
def mayStore : Instr → Bool
  | .movRegMem _ _ | .movLitMem _ _ | .pshLit _ | .pshReg _ | .calLit _ | .calReg _ | .int _ => true
  | .movLitReg _ _ | .movRegReg _ _ | .movMemReg _ _ | .movRegPtrReg _ _ | .movLitOffReg _ _ _ => false
  | .addRegReg _ _ | .addLitReg _ _ | .subRegReg _ _ | .subLitReg _ _ | .subRegLit _ _ | .mulRegReg _ _ => false
  | .mulLitReg _ _ | .incReg _ | .decReg _ | .lsfRegReg _ _ | .lsfRegLit _ _ | .rsfRegReg _ _ | .rsfRegLit _ _ => false
  | .andRegReg _ _ | .andLitReg _ _ | .orRegReg _ _ | .orLitReg _ _ | .xorRegReg _ _ | .xorLitReg _ _ | .not _ => false
  | .jmpNotEq _ _ | .jneReg _ _ | .jeqReg _ _ | .jeqLit _ _ | .jltReg _ _ | .jltLit _ _ | .jgtReg _ _ => false
  | .jgtLit _ _ | .jleReg _ _ | .jleLit _ _ | .jgeReg _ _ | .jgeLit _ _ | .pop _ | .ret | .retInt | .hlt => false

/-- The instructions that push or pop, which alone touch the frame-size counter (10_state.md R35). -/
def usesStack : Instr → Bool
  | .pshLit _ | .pshReg _ | .pop _ | .calLit _ | .calReg _ | .int _ | .ret | .retInt => true
  | .movRegMem _ _ | .movLitMem _ _ => false
  | .movLitReg _ _ | .movRegReg _ _ | .movMemReg _ _ | .movRegPtrReg _ _ | .movLitOffReg _ _ _ => false
  | .addRegReg _ _ | .addLitReg _ _ | .subRegReg _ _ | .subLitReg _ _ | .subRegLit _ _ | .mulRegReg _ _ => false
  | .mulLitReg _ _ | .incReg _ | .decReg _ | .lsfRegReg _ _ | .lsfRegLit _ _ | .rsfRegReg _ _ | .rsfRegLit _ _ => false
  | .andRegReg _ _ | .andLitReg _ _ | .orRegReg _ _ | .orLitReg _ _ | .xorRegReg _ _ | .xorLitReg _ _ | .not _ => false
  | .jmpNotEq _ _ | .jneReg _ _ | .jeqReg _ _ | .jeqLit _ _ | .jltReg _ _ | .jltLit _ _ | .jgtReg _ _ => false
  | .jgtLit _ _ | .jleReg _ _ | .jleLit _ _ | .jgeReg _ _ | .jgeLit _ _ | .hlt => false

/-! ### The shapes of what an instruction does -/

/-- Executing `i`, an instruction of `n` bytes, answers a next state in which register `d` holds `v`, `ip` is past the
instruction unless `d` is `ip`, and nothing else changed. -/
def WritesReg (i : Instr) (n : Nat) (d : Reg) (v : Word) (s : State) : Prop :=
  ∃ t, exec i s = .next t ∧ t.getReg d = v ∧ (d ≠ .ip → t.getReg .ip = s.getReg .ip + BitVec.ofNat 16 n) ∧
    SameHidden s t ∧ Unchanged [d, .ip] [] s t

/-- Executing `i`, an instruction of `n` bytes, answers a next state in which the word `v` is stored, high byte first, in
the cells `k` and `k + 1`, `ip` is past the instruction, and nothing else changed. -/
def StoresWord (i : Instr) (n k : Nat) (v : Word) (s : State) : Prop :=
  ∃ t, exec i s = .next t ∧ t.mem.read k = wordHi v ∧ t.mem.read (k + 1) = wordLo v ∧
    t.getReg .ip = s.getReg .ip + BitVec.ofNat 16 n ∧ SameHidden s t ∧ Unchanged [.ip] [k, k + 1] s t

/-- Executing `i`, an instruction of `n` bytes, only moves `ip` past it. -/
def OnlyAdvances (i : Instr) (n : Nat) (s : State) : Prop :=
  ∃ t, exec i s = .next t ∧ t.getReg .ip = s.getReg .ip + BitVec.ofNat 16 n ∧ SameHidden s t ∧ Unchanged [.ip] [] s t

/-- Executing `i`, a jump of `n` bytes, sets `ip` to `target` if `cond` holds and moves it past the instruction otherwise;
nothing else changes. -/
def JumpsWhen (i : Instr) (n : Nat) (cond : Prop) (target : Word) (s : State) : Prop :=
  ∃ t, exec i s = .next t ∧ (cond → t.getReg .ip = target) ∧
    (¬ cond → t.getReg .ip = s.getReg .ip + BitVec.ofNat 16 n) ∧ SameHidden s t ∧ Unchanged [.ip] [] s t

/-- Executing `i`, an instruction of `n` bytes, pushes `v`: the word goes to the address in `sp`, then `sp` falls by 2 and
`sfs` grows by 2; `ip` is past the instruction, and nothing else changed but the cells stored to. -/
def PushesWord (i : Instr) (n : Nat) (v : Word) (s : State) : Prop :=
  ∃ t, exec i s = .next t ∧
    (∀ k, s.romAt (s.getReg .sp).toNat = false → s.wordCell (s.getReg .sp).toNat = some k →
      t.mem.read k = wordHi v ∧ t.mem.read (k + 1) = wordLo v) ∧
    t.getReg .sp = s.getReg .sp - 2 ∧ t.sfs = s.sfs + 2 ∧ t.inHandler = s.inHandler ∧
    t.getReg .ip = s.getReg .ip + BitVec.ofNat 16 n ∧ Unchanged [.ip, .sp] (s.storedCells (s.getReg .sp).toNat) s t

/-- Executing `i` calls `target`: a frame of ten words is pushed, `fp` and `sp` are below it, `sfs` is 0, `ip` is `target`;
nothing else changed but the cells pushed to. -/
def CallsTarget (i : Instr) (target : Word) (s : State) : Prop :=
  ∃ t, exec i s = .next t ∧ t.getReg .ip = target ∧ t.getReg .sp = s.getReg .sp - 20 ∧ t.getReg .fp = s.getReg .sp - 20 ∧
    t.sfs = 0 ∧ t.inHandler = s.inHandler ∧ Unchanged [.ip, .sp, .fp] (s.pushedCells (s.getReg .sp) 10) s t

/-- The registers that `push_state` saves, and the address to return to, as a frame at `fp` of `t` holds them: the words
number 1 to 9 above `fp` (word 0 is the frame size). -/
def FrameHolds (resume : Word) (s t : State) : Prop :=
  t.popped (t.getReg .fp) 1 = resume ∧
  t.popped (t.getReg .fp) 2 = s.getReg .r8 ∧ t.popped (t.getReg .fp) 3 = s.getReg .r7 ∧
  t.popped (t.getReg .fp) 4 = s.getReg .r6 ∧ t.popped (t.getReg .fp) 5 = s.getReg .r5 ∧
  t.popped (t.getReg .fp) 6 = s.getReg .r4 ∧ t.popped (t.getReg .fp) 7 = s.getReg .r3 ∧
  t.popped (t.getReg .fp) 8 = s.getReg .r2 ∧ t.popped (t.getReg .fp) 9 = s.getReg .r1

/-- `t` is `s` after `pop_state`: the frame at `fp` is taken back, and the counted argument words with it. The hidden
`in_handler` is not spoken of. -/
def FrameRestored (s t : State) : Prop :=
  let p := s.getReg .fp
  let n := (s.popped p 10).toNat
  t.getReg .ip = s.popped p 1 ∧
  t.getReg .r8 = s.popped p 2 ∧ t.getReg .r7 = s.popped p 3 ∧ t.getReg .r6 = s.popped p 4 ∧ t.getReg .r5 = s.popped p 5 ∧
  t.getReg .r4 = s.popped p 6 ∧ t.getReg .r3 = s.popped p 7 ∧ t.getReg .r2 = s.popped p 8 ∧ t.getReg .r1 = s.popped p 9 ∧
  t.getReg .sp = p + BitVec.ofNat 16 (2 * (11 + n)) ∧ t.getReg .fp = p + s.popped p 0 ∧
  t.sfs = s.popped p 0 - BitVec.ofNat 16 (20 + 2 * n) ∧
  Unchanged [.ip, .r1, .r2, .r3, .r4, .r5, .r6, .r7, .r8, .sp, .fp] [] s t

/-- `t` is `s` after an accepted interrupt of value `v` outside a handler: eleven words are pushed, `fp` and `sp` are below
them, `sfs` is 0, `in_handler` is set and `ip` is the word in the line's vector; nothing else changed but the cells pushed
to. -/
def HandlerEntered (v : Word) (s t : State) : Prop :=
  t.getReg .ip = t.wordAt (s.cfg.ivtBase.toNat + 2 * (v.toNat % 16)) ∧ t.getReg .sp = s.getReg .sp - 22 ∧
    t.getReg .fp = s.getReg .sp - 22 ∧ t.sfs = 0 ∧ t.inHandler = true ∧
    Unchanged [.ip, .sp, .fp] (s.pushedCells (s.getReg .sp) 11) s t

/-- An interrupt of value `v` is enabled by `im`. -/
def interruptEnabled (v : Word) (s : State) : Bool := (s.getReg .im).getLsbD (v.toNat % 16)

/-- The vector of an interrupt value is a word of a byte buffer. -/
def vectorReadable (v : Word) (s : State) : Bool := (s.wordCell (s.cfg.ivtBase.toNat + 2 * (v.toNat % 16))).isSome

/-- A fault of the instruction at `ip`: the next state is `u`, the state at the point of the `raise`, with the record of
the reason and of the opcode byte's address. -/
def Traps (i : Instr) (f : Fault) (s u : State) : Prop := exec i s = .next (u.recordFault f (s.getReg .ip))

/-- Executing `i` makes one call of the external device at an address: the device reports an
error, which is the fault, with `before` the state at the call, or it takes the call and the next state is `after`. -/
def CallsDevice (i : Instr) (a : Word) (s before after : State) : Prop :=
  exec i s = .next
    (if Config.extFails s.draws then before.recordFault (.deviceError a.toNat) (s.getReg .ip) else after)

/-! ### Stack frames broken off by a fault (60_exceptions.md R252) -/

/-- The ten words that `push_state` pushes, in order (43_stack_call.md R202): `sfs + 2` is read after nine pushes. -/
def frameWords (s : State) : List Word :=
  [s.getReg .r1, s.getReg .r2, s.getReg .r3, s.getReg .r4, s.getReg .r5, s.getReg .r6, s.getReg .r7, s.getReg .r8,
   s.getReg .ip, s.sfs + 20]

/-- The eleven words of an interrupt's frame, in the order they are pushed (60_exceptions.md R266). -/
def interruptWords (s : State) : List Word := 0 :: (frameWords s).take 9 ++ [s.sfs + 22]

/-- From `s` to `t` these words were pushed and nothing else happened: `sp` and `sfs` have moved, the words stand in their
slots where these are different bytes of mutable buffers, and only the cells pushed to changed. -/
def PushesDone (ws : List Word) (s t : State) : Prop :=
  let p := s.getReg .sp
  let n := ws.length
  t.getReg .sp = p - BitVec.ofNat 16 (2 * n) ∧ t.sfs = s.sfs + BitVec.ofNat 16 (2 * n) ∧ t.inHandler = s.inHandler ∧
  Unchanged [.sp] (s.pushedCells p n) s t ∧
  ((s.pushedCells p n).length = 2 * n → (s.pushedCells p n).Nodup →
    ∀ j (h : j < n), t.wordAt (p - BitVec.ofNat 16 (2 * j)).toNat = ws[j])

/-- The registers that `pop_state` pops into after the frame size, in order (43_stack_call.md R203). -/
def restoredRegs : List Reg := [.ip, .r8, .r7, .r6, .r5, .r4, .r3, .r2, .r1]

/-- From `s` to `t` a `pop_state` made `n` pops from the frame at `fp` and moved `sp` for the next one: the frame size, then
the registers popped so far, then the count word and discarded words; nothing else changed, the hidden `in_handler` not
spoken of. -/
def PopsDone (n : Nat) (s t : State) : Prop :=
  let p := s.getReg .fp
  t.getReg .sp = p + BitVec.ofNat 16 (2 * n + 2) ∧
  t.sfs = (if n = 0 then s.sfs else s.popped p 0 - BitVec.ofNat 16 (2 * (n - 1))) ∧
  (∀ j (h : j < restoredRegs.length), j + 1 < n → t.getReg restoredRegs[j] = s.popped p (j + 1)) ∧
  Unchanged (.sp :: restoredRegs.take (n - 1)) [] s t

/-- An `INT` of value `v` and a host request of value `v` both end in this fault; `after` relates the state in which
`handle_interrupt` began (of the `INT` with `ip` past it) to the state at the `raise`. -/
def InterruptRaises (v : Word) (f : Fault) (s : State) (after : State → State → Prop) : Prop :=
  (∃ u, Traps (.int v) f s u ∧ after (s.advance 3) u) ∧
  (s.cfg.wf = true → s.stopped = false →
    ∃ u, hostInterrupt v s = .next (u.recordFault f (s.getReg .ip)) ∧ after s u)

/-! ### Invariants of a run -/

/-- A cell is a byte of some device buffer that an access can reach. -/
def cellExists (c : Config) (k : Nat) : Prop :=
  ∃ dev bank off size, bufferSize c dev bank = some size ∧ off < size ∧ off < 0x10000 ∧ bank < 0x10000 ∧
    k = cellKey dev bank off

/-- A cell is a byte of a ROM. -/
def cellInRom (c : Config) (k : Nat) : Prop :=
  ∃ dev size off, c.devices[dev]? = some (.rom size) ∧ off < 0x10000 ∧ k = cellKey dev 0 off

/-- The store is in its canonical form and lists only bytes of buffers that exist: none is created or resized after boot
(20_memory.md R56). -/
def State.storeInv (s : State) : Prop := s.mem.wf = true ∧ ∀ e ∈ s.mem, cellExists s.cfg e.1

/-- What a booted machine keeps: a well-formed configuration, a sound store, and never both halted and faulted. -/
def State.sound (s : State) : Prop := s.cfg.wf = true ∧ s.storeInv ∧ (s.halted = true → s.fault = none)

/-- The frame relation `fp - sp = sfs` modulo 2^16 (43_stack_call.md R213). -/
def State.frameInv (s : State) : Prop := s.getReg .fp - s.getReg .sp = s.sfs

/-! ### The host's transitions and the end of a run (70_reset_and_hazards.md R288, R289) -/

/-- What the host can ask for between transitions. -/
inductive HostMove where
  | step
  | interrupt (v : Word)
  deriving DecidableEq, Repr

/-- One transition of the machine. -/
def transition (m : HostMove) (s : State) : Host.Outcome State Fault Refusal :=
  match m with
  | .step => step s
  | .interrupt v => hostInterrupt v s

/-- The states a machine booted under some configuration and images can come to. -/
inductive Reachable : State → Prop where
  | boot {c : Config} {images : List Image} {s : State} : boot c images = .ready s → Reachable s
  | move {s t : State} {m : HostMove} : Reachable s → transition m s = .next t → Reachable t

/-- A run has ended normally: halted with no fault. -/
def State.endedNormally (s : State) : Bool := s.halted && s.fault.isNone

/-- A run has ended in fault. -/
def State.endedInFault (s : State) : Bool := s.fault.isSome

end Sys2Proof.Machine
end

