-- ==== Sys2Proof/Certificates/Slice0/Obligations.lean ====
section
/-!
DEFINITION. The statements for the provers. Each docstring names the rules of spec/ a statement formalises or rests on; one that
rests on a decision of the spec (92_eei_decisions.md) or of this model (a log entry) says so.
-/

open Sys2Proof Sys2Proof.Machine

/-! ### Encoding (30_encoding.md) -/

/-- Every well-formed instruction is read back from its encoding, whatever bytes follow (R94, R95, R98). The opcode bytes and
the register numbers are the spec's decisions D1 and D2. -/
def Obligations.DecodeEncode : Prop :=
  ∀ (c : Config) (i : Instr) (rest : List Byte),
    c.opcodeMap = opcodeTable → i.wf c = true → decode c (encode i ++ rest) = .ok i rest

/-- What the decoder reads is well formed, and it takes exactly as many bytes as R99 gives the format of the opcode byte. -/
def Obligations.DecodedInstructionIsWellFormed : Prop :=
  ∀ (c : Config) (bs rest : List Byte) (i : Instr), decode c bs = .ok i rest →
    i.wf c = true ∧ ∃ b operands op, bs = b :: operands ++ rest ∧ c.opOf b = some op ∧ (b :: operands).length = op.format.length

/-- Words written out from R95 and R100, one of each family and one of the spec's own formats, and what they decode to. -/
def Obligations.SampleWordsDecode : Prop :=
  decode defaultConfig [0x10, 0xBE, 0xEF, 0x04] = .ok (.movLitReg 0xBEEF .r3) [] ∧
  decode defaultConfig [0x1D, 0x40, 0x00, 0x02, 0x03] = .ok (.movLitOffReg 0x4000 .r1 .r2) [] ∧
  decode defaultConfig [0x1F, 0x02, 0x03] = .ok (.subRegReg .r1 .r2) [] ∧
  decode defaultConfig [0x1E, 0x02, 0x00, 0x03] = .ok (.subRegLit .r1 0x0003) [] ∧
  decode defaultConfig [0x15, 0x00, 0x03, 0x03, 0x00] = .ok (.jmpNotEq 0x0003 0x0300) [] ∧
  decode defaultConfig [0x5E, 0x03, 0x00] = .ok (.calLit 0x0300) [] ∧
  decode defaultConfig [0xFD, 0x00, 0x13] = .ok (.int 0x0013) [] ∧
  decode defaultConfig [0x19] = .rejected (.unknownOpcode 0x19)

/-- 48 opcode bytes are assigned, all different, one to each instruction (R100; the bytes are decision D1). -/
def Obligations.OpcodesAssigned : Prop :=
  opcodeTable.length = 48 ∧ (opcodeTable.map Prod.fst).Nodup ∧
    ∀ op : Op, (opcodeTable.filter fun e => decide (e.2 = op)).length = 1

/-- `fetchReg` on a byte that a buffer serves (R94): an index below `NREG` names its register, another one faults or is taken
modulo `NREG` (decision D3); `ip` has moved past the byte in every case. -/
def Obligations.RegisterByte : Prop :=
  ∀ (s : State) (k : Nat), s.byteCell (s.getReg .ip).toNat = some k →
    let b := s.mem.read k
    (b.toNat < s.cfg.nreg → ∃ r, r.index = b.toNat ∧ fetchReg s = .ok r (s.advance 1)) ∧
    (s.cfg.nreg ≤ b.toNat → s.cfg.regIndexMode = .check → fetchReg s = .raised (.invalidRegister b) (s.advance 1)) ∧
    (s.cfg.nreg ≤ b.toNat → s.cfg.regIndexMode = .modulo →
      ∃ r, r.index = b.toNat % s.cfg.nreg ∧ fetchReg s = .ok r (s.advance 1))

/-! ### A step (30_encoding.md R103, 70_reset_and_hazards.md R287) -/

/-- A step runs the instruction whose bytes stand at `ip`, and more generally whatever instruction the fetch gives, from the
state the fetch left with `ip` at the opcode byte; the meaning then moves `ip` (R103, R104; log entry 8). -/
def Obligations.StepRunsDecoded : Prop :=
  (∀ (s : State) (i : Instr) (bs : List Byte), s.cfg.wf = true → s.stopped = false →
    s.holdsCode (s.getReg .ip).toNat bs → decode s.cfg bs = .ok i [] → step s = exec i s) ∧
  ∀ (s u : State) (i : Instr), s.cfg.wf = true → s.stopped = false → fetchInstr s = .ok (some i) u →
    step s = exec i (u.rewind (s.getReg .ip))

/-- While the core is halted or faulted nothing happens, neither on a step request nor on an interrupt request (10_state.md R37,
decisions D11, D12, D13). -/
def Obligations.StoppedCoreIdles : Prop :=
  ∀ (m : HostMove) (s : State), s.cfg.wf = true → s.halted = true ∨ s.fault ≠ none → transition m s = .next s

/-- Under every well-formed configuration every transition answers a next state: nothing is refused, and a fault of the
hardware is a next state with its record (log entry 7). -/
def Obligations.TransitionsAnswer : Prop :=
  ∀ (m : HostMove) (s : State), s.cfg.wf = true → ∃ t, transition m s = .next t

/-- 00_scope.md R6: a configuration that breaks one of its conditions is refused, by a step, by an interrupt request and by a
boot; and there are 14 registers exactly when `HAS_MB`. -/
def Obligations.IllFormedConfigRefused : Prop :=
  ∀ c : Config, (c.nreg = 14 ↔ c.hasMb = true) ∧
    (¬ ((∀ g ∈ c.bootMap, 1 ≤ g.size ∧ g.start + g.size ≤ 0x10000) ∧
        (∀ count size, Device.banked count size ∈ c.devices → 1 ≤ count ∧ c.hasMb = true) ∧
        c.ivtBase.toNat + 31 ≤ 0xFFFF ∧ 1 ≤ c.shiftCountMod) →
      (∀ s : State, s.cfg = c → step s = .refused .illFormedConfig ∧ ∀ v, hostInterrupt v s = .refused .illFormedConfig) ∧
      ∀ images, boot c images = .refused .illFormedConfig)

/-- 30_encoding.md R101 (decision D4): an unknown opcode byte is a 1-byte no-op, or with `STRICT_OPCODES` faults after its
fetch. -/
def Obligations.UnknownOpcode : Prop :=
  ∀ (s : State) (k : Nat), s.cfg.wf = true → s.stopped = false → s.byteCell (s.getReg .ip).toNat = some k →
    s.cfg.opOf (s.mem.read k) = none →
    (s.cfg.strictOpcodes = false →
      ∃ t, step s = .next t ∧ t.getReg .ip = s.getReg .ip + 1 ∧ SameHidden s t ∧ Unchanged [.ip] [] s t) ∧
    (s.cfg.strictOpcodes = true →
      step s = .next ((s.advance 1).recordFault (.illegalOpcode (s.mem.read k)) (s.getReg .ip)))

/-- The fetch faults of R106 on every byte of an instruction, in their order (R92 to R95, R104, R253; decisions D3, D9, D10, D11):
of the opcode byte, and of each operand of the format after the operands before it were fetched from byte buffers: a register
byte or a word whose access faults, or a register byte that is no register's (`State.operandFault`). `ip` stands after the bytes
fetched, an invalid register byte among them, nothing else changed, and the record names the opcode byte's address. -/
def Obligations.FetchFaults : Prop :=
  ∀ s : State, s.cfg.wf = true → s.stopped = false →
    let a := s.getReg .ip
    (∀ f, s.byteFault a.toNat = some f → step s = .next (s.recordFault f a)) ∧
    ∀ k op, s.byteCell a.toNat = some k → s.cfg.opOf (s.mem.read k) = some op →
      ∀ before kind after, op.format.operands = before ++ kind :: after → s.operandsRead (a + 1) before = true →
        ∀ f n, s.operandFault (a + 1 + BitVec.ofNat 16 (operandsLength before)) kind = some (f, n) →
          step s = .next ((s.advance (1 + operandsLength before + n)).recordFault f a)

/-! ### Memory and the mapper (20_memory.md) -/

/-- R51, R52: the region mapped last is asked first, and it is taken for the addresses `start` to `start + size - 1`; with no
region there is none. -/
def Obligations.RegionShadowing : Prop :=
  ∀ (c : Config) (earlier : List Region) (g : Region) (a : Nat),
    findRegion { c with bootMap := [] } a = none ∧
    findRegion { c with bootMap := earlier ++ [g] } a =
      if g.start ≤ a ∧ a < g.start + g.size then some g else findRegion { c with bootMap := earlier } a

/-- R53: an access to an address without a region raises `UnmappedAddress` with that address, and reads or writes nothing. (A
word access at `0xFFFF` raises `AddressOverflow` before the region is looked up, R60, R253.) -/
def Obligations.UnmappedAccess : Prop :=
  ∀ (s : State) (a : Nat), findRegion s.cfg a = none →
    memRead8 a s = .raised (.unmappedAddress a) s ∧ (∀ v, memWrite8 a v s = .raised (.unmappedAddress a) s) ∧
    (a ≠ 0xFFFF → memRead16 a s = .raised (.unmappedAddress a) s ∧
      ∀ v, memWrite16 a v s = .raised (.unmappedAddress a) s)

/-- R62: where `a` and `a + 1` reach adjacent bytes of one buffer, a word read is the two byte reads, high byte first, and a
word stored is read back so byte by byte. -/
def Obligations.BigEndianWord : Prop :=
  wordHi 0x1234 = 0x12 ∧ wordLo 0x1234 = 0x34 ∧
  (∀ hi lo : Byte, (joinBytes hi lo).toNat = hi.toNat * 256 + lo.toNat ∧
    wordHi (joinBytes hi lo) = hi ∧ wordLo (joinBytes hi lo) = lo) ∧
  ∀ (s : State) (a k : Nat), a < 0xFFFF → s.byteCell a = some k → s.wordCell a = some k → s.byteCell (a + 1) = some (k + 1) →
    (∃ hi lo, memRead8 a s = .ok hi s ∧ memRead8 (a + 1) s = .ok lo s ∧ memRead16 a s = .ok (joinBytes hi lo) s) ∧
    (s.romAt a = false → ∀ v, ∃ t, memWrite16 a v s = .ok () t ∧
      memRead8 a t = .ok (wordHi v) t ∧ memRead8 (a + 1) t = .ok (wordLo v) t)

/-- R57 (decision D30 for offsets beyond the buffer): a ROM takes every write without an error and changes nothing. -/
def Obligations.RomDiscardsWrites : Prop :=
  ∀ (s : State) (a : Nat), s.romAt a = true →
    (∀ v, memWrite8 a v s = .ok () s) ∧ (a ≠ 0xFFFF → ∀ v, memWrite16 a v s = .ok () s)

/-- R56, R60, R61, R64 (decisions D9, D10): a word access at `0xFFFF` raises `AddressOverflow`, mapped or not; an access beyond
a buffer raises `DeviceRange` with its offset, a word access already when its second byte is beyond; nothing changes. -/
def Obligations.AccessesOutOfRange : Prop :=
  (∀ s : State, memRead16 0xFFFF s = .raised (.addressOverflow 0xFFFF) s ∧
    ∀ v, memWrite16 0xFFFF v s = .raised (.addressOverflow 0xFFFF) s) ∧
  ∀ (s : State) (a d off base size : Nat) (w : Bool), s.resolve a = some ⟨d, off, .buffer base size w⟩ →
    (size ≤ off → memRead8 a s = .raised (.deviceRange off) s ∧
      (w = true → ∀ v, memWrite8 a v s = .raised (.deviceRange off) s)) ∧
    (size ≤ off + 1 → a ≠ 0xFFFF → memRead16 a s = .raised (.deviceRange off) s ∧
      (w = true → ∀ v, memWrite16 a v s = .raised (.deviceRange off) s))

/-- R58: each of the four operations of a bank-switched device works as RAM on buffer `mb mod N`, `mb` read at that access; the
buffers share no byte, and changing `mb` moves no data. -/
def Obligations.BankSelection : Prop :=
  (∀ (s : State) (a : Nat) (g : Region) (n size : Nat),
    findRegion s.cfg a = some g → s.cfg.devices[g.device]? = some (.banked n size) →
    let off := regionOffset g a
    let cell := cellKey g.device ((s.getReg .mb).toNat % n) off
    (off < size → memRead8 a s = .ok (s.mem.read cell) s ∧ ∀ v, memWrite8 a v s = .ok () (s.setMem (s.mem.write cell v))) ∧
    (size ≤ off → memRead8 a s = .raised (.deviceRange off) s ∧ ∀ v, memWrite8 a v s = .raised (.deviceRange off) s) ∧
    (a ≠ 0xFFFF → off + 1 < size →
      memRead16 a s = .ok (joinBytes (s.mem.read cell) (s.mem.read (cell + 1))) s ∧
      ∀ v, memWrite16 a v s = .ok () (s.setMem ((s.mem.write cell (wordHi v)).write (cell + 1) (wordLo v)))) ∧
    (a ≠ 0xFFFF → size ≤ off + 1 → memRead16 a s = .raised (.deviceRange off) s ∧
      ∀ v, memWrite16 a v s = .raised (.deviceRange off) s)) ∧
  (∀ (d k₁ k₂ o₁ o₂ : Nat), k₁ ≠ k₂ → o₁ < 0x10000 → o₂ < 0x10000 → cellKey d k₁ o₁ ≠ cellKey d k₂ o₂) ∧
  (∀ (s : State) (v : Word), (s.setReg .mb v).mem = s.mem) ∧
  ∀ (m : Memory) (j k : Nat) (b : Byte), (m.write k b).read j = if j = k then b else m.read j

/-- R59, R55 (decision D22): an access to an external device is one call of that device at the device-local offset; its answer
and its error are free values (log entries 5 and 6). -/
def Obligations.ExternalAccess : Prop :=
  ∀ (s : State) (a d off : Nat), s.resolve a = some ⟨d, off, .external⟩ →
    (memRead8 a s = if Config.extFails s.draws then .raised (.deviceError a) s
      else .ok (Config.extByte s.draws) (s.called ⟨d, off, .get8⟩)) ∧
    (∀ v, memWrite8 a v s = if Config.extFails s.draws then .raised (.deviceError a) s
      else .ok () (s.called ⟨d, off, .set8 v⟩)) ∧
    (a ≠ 0xFFFF →
      (memRead16 a s = if Config.extFails s.draws then .raised (.deviceError a) s
        else .ok (Config.extWord s.draws) (s.called ⟨d, off, .get16⟩)) ∧
      ∀ v, memWrite16 a v s = if Config.extFails s.draws then .raised (.deviceError a) s
        else .ok () (s.called ⟨d, off, .set16 v⟩))

/-! ### Invariants and whole-machine rules -/

/-- Every transition keeps the store canonical and within the buffers the boot created (20_memory.md R56; log entries 3, 4). -/
def Obligations.TransitionsKeepStore : Prop :=
  ∀ (m : HostMove) (s t : State), s.storeInv → transition m s = .next t → t.storeInv

/-- The store of the machine right after reset meets the invariant (decision D6; log entry 4). -/
def Obligations.ResetStore : Prop := State.reset.storeInv

/-- From every state, reached or not: a transition keeps the configuration well formed, the store canonical and within its
buffers, and the core never both halted and faulted; every booted machine starts so, whatever the host loads; and so is every
state that the host's steps and requests then come to (00_scope.md R6, 70_reset_and_hazards.md R281, R288, R289). -/
def Obligations.ReachableStatesAreSound : Prop :=
  (∀ (m : HostMove) (s t : State), s.sound → transition m s = .next t → t.sound) ∧
  (∀ (c : Config) (images : List Image) (s : State), boot c images = .ready s → s.sound) ∧
  ∀ s : State, Reachable s → s.sound

/-- 10_state.md R38, R39, 20_memory.md R70: no transition changes the configuration (the vector base and the region list among
it) or a byte of a ROM. -/
def Obligations.ConfigAndRomAreFixed : Prop :=
  ∀ (m : HostMove) (s t : State), transition m s = .next t →
    t.cfg = s.cfg ∧ ∀ k, cellInRom s.cfg k → t.mem.read k = s.mem.read k

/-- 60_exceptions.md R251, with R12, R252 and R262 (decision D11): a fault sets the record, with the address the opcode byte had, or
`ip` at a host's request, and the state is otherwise as at the `raise`, which is the model's reading of R252 (log entry 7: a fault
is a next state, and the effects before it stay); and it is terminal: no step executes and no interrupt is accepted afterward, so
the record stays. -/
def Obligations.FaultRecord : Prop :=
  ∀ s : State, s.cfg.wf = true →
    (s.stopped = false →
      (∀ f u, fetchInstr s = .raised f u → step s = .next { u with fault := some ⟨f, s.getReg .ip⟩ }) ∧
      ∀ v f u, handleInterrupt v s = .raised f u → hostInterrupt v s = .next { u with fault := some ⟨f, s.getReg .ip⟩ }) ∧
    (∀ format effect f u, effect (s.advance format.length) = .raised f u →
      run format effect s = .next { u with fault := some ⟨f, s.getReg .ip⟩ }) ∧
    (∀ m t r, s.fault = none → transition m s = .next t → t.fault = some r → r.opcodeAddress = s.getReg .ip) ∧
    ∀ m, s.fault ≠ none → transition m s = .next s

/-- 10_state.md R36: every accepted interrupt sets `in_handler`, only `RET_INT` clears it, it decides whether an accepted
interrupt saves a frame, and `RET` does not change it. -/
def Obligations.InHandlerRule : Prop :=
  (∀ v s t, interruptEnabled v s = true → handleInterrupt v s = .ok () t → t.inHandler = true) ∧
  (∀ m s t, transition m s = .next t → s.inHandler = true → t.inHandler = false →
    m = .step ∧ ∃ u, fetchInstr s = .ok (some .retInt) u) ∧
  (∀ i s t, exec i s = .next t → s.inHandler = true → t.inHandler = false → i = .retInt) ∧
  (∀ s t, exec .retInt s = .next t → t.inHandler = false) ∧
  (∀ v s t, interruptEnabled v s = true → handleInterrupt v s = .ok () t →
    (s.inHandler = true → t.mem = s.mem ∧ t.getReg .sp = s.getReg .sp ∧ t.getReg .fp = s.getReg .fp ∧ t.sfs = s.sfs) ∧
    (s.inHandler = false → ∃ u, ((push 0 s).bind fun _ u => pushState u) = .ok () u ∧ t.mem = u.mem ∧
      t.getReg .sp = u.getReg .sp ∧ t.getReg .fp = u.getReg .fp ∧ t.sfs = u.sfs)) ∧
  ∀ s t, exec .ret s = .next t → t.inHandler = s.inHandler

/-- 10_state.md R37, 44_system.md R232 (decision D12): only an executed `HLT` halts the core. -/
def Obligations.OnlyHltHalts : Prop :=
  (∀ i s t, exec i s = .next t → s.halted = false → t.halted = true → i = .hlt) ∧
  ∀ m s t, transition m s = .next t → s.halted = false → t.halted = true →
    m = .step ∧ ∃ u, fetchInstr s = .ok (some .hlt) u

/-- 70_reset_and_hazards.md R292, 20_memory.md R67: calls of external devices are only added at the end, each counted once (the
record is the model's, log entries 5 and 6). -/
def Obligations.ExternalCallsOnlyGrow : Prop :=
  ∀ (m : HostMove) (s t : State), transition m s = .next t →
    ∃ more, t.calls = s.calls ++ more ∧ t.draws = s.draws + more.length

/-- 10_state.md R24, R28 to R34: whatever the outcome, an instruction writes only the registers its rule names, listed
by `writesOf`: `ip`, and the operand it writes or `acc`, `sp`, `fp` and what a frame restores where the rule says so. -/
def Obligations.RegistersWritten : Prop :=
  ∀ (i : Instr) (s t : State), exec i s = .next t → ∀ r, r ∉ writesOf i → t.getReg r = s.getReg r

/-- 40_data_movement.md R127, 10_state.md R35, R36: an instruction that has no store leaves all of memory as it was, one that
neither pushes nor pops leaves `sfs`, and all but `INT` and `RET_INT` leave `in_handler`. -/
def Obligations.MemoryAndHiddenFrame : Prop :=
  ∀ (i : Instr) (s t : State), exec i s = .next t →
    (mayStore i = false → t.mem = s.mem) ∧ (usesStack i = false → t.sfs = s.sfs) ∧
    ((∀ v, i ≠ .int v) → i ≠ .retInt → t.inHandler = s.inHandler)

/-- 43_stack_call.md R213: pushes and pops keep the frame relation `fp - sp = sfs`, and `push_state` establishes it. -/
def Obligations.FrameRelation : Prop :=
  (∀ v s t, push v s = .ok () t → s.frameInv → t.frameInv) ∧
  (∀ v s t, pop s = .ok v t → s.frameInv → t.frameInv) ∧
  ∀ s t, pushState s = .ok () t → t.frameInv

/-! ### Data movement (40_data_movement.md) -/

/-- R120, R121: the destination register takes the literal or the source register, and nothing else changes but `ip`; a
destination `ip` is the jump. -/
def Obligations.MoveToRegister : Prop :=
  ∀ s : State, (∀ l r, WritesReg (.movLitReg l r) 4 r l s) ∧
    ∀ src d, WritesReg (.movRegReg src d) 3 d (operand 3 s src) s

/-- R122, R124: a store to a mutable buffer writes the register or the literal, high byte first, at `A` and `A + 1`; a store to
a ROM changes nothing and raises nothing (decision D30 for offsets beyond it). -/
def Obligations.StoreWord : Prop :=
  ∀ (s : State) (a : Word),
    (s.romAt a.toNat = false → ∀ k, s.wordCell a.toNat = some k →
      (∀ r, StoresWord (.movRegMem r a) 4 k (operand 4 s r) s) ∧ ∀ l, StoresWord (.movLitMem l a) 5 k l s) ∧
    (s.romAt a.toNat = true → a ≠ 0xFFFF →
      (∀ r, OnlyAdvances (.movRegMem r a) 4 s) ∧ ∀ l, OnlyAdvances (.movLitMem l a) 5 s)

/-- R123, R125: a load writes the word at the address, or at the address in the pointer register, into the destination. -/
def Obligations.LoadWord : Prop :=
  ∀ s : State,
    (∀ (a : Word) d k, s.wordCell a.toNat = some k →
      WritesReg (.movMemReg a d) 4 d (joinBytes (s.mem.read k) (s.mem.read (k + 1))) s) ∧
    ∀ p d k, s.wordCell (operand 3 s p).toNat = some k →
      WritesReg (.movRegPtrReg p d) 3 d (joinBytes (s.mem.read k) (s.mem.read (k + 1))) s

/-- R126 (decision D9): the address is the exact sum of the base and the offset register; above `0xFFFF` it is not wrapped but
raises `AddressOverflow` with the sum. -/
def Obligations.LoadWithOffset : Prop :=
  ∀ (s : State) (b : Word) (o d : Reg),
    let ea := b.toNat + (operand 5 s o).toNat
    (∀ k, ea ≤ 0xFFFF → s.wordCell ea = some k →
      WritesReg (.movLitOffReg b o d) 5 d (joinBytes (s.mem.read k) (s.mem.read (k + 1))) s) ∧
    (0xFFFF < ea → Traps (.movLitOffReg b o d) (.addressOverflow ea) s (s.advance 5)) ∧
    ∀ f, ea ≤ 0xFFFF → s.wordFault false ea = some f → Traps (.movLitOffReg b o d) f s (s.advance 5)

/-- R122 to R125, 60_exceptions.md R252, R253 (decisions D9, D10, D11): a load or store whose access faults records that fault
and changes nothing but `ip`, which is past the instruction. -/
def Obligations.DataAccessTraps : Prop :=
  ∀ (s : State) (f : Fault),
    (∀ a : Word, s.wordFault true a.toNat = some f →
      (∀ r, Traps (.movRegMem r a) f s (s.advance 4)) ∧ ∀ l, Traps (.movLitMem l a) f s (s.advance 5)) ∧
    (∀ (a : Word) d, s.wordFault false a.toNat = some f → Traps (.movMemReg a d) f s (s.advance 4)) ∧
    ∀ p d, s.wordFault false (operand 3 s p).toNat = some f → Traps (.movRegPtrReg p d) f s (s.advance 3)

/-- R122 to R126, R204 to R206, 20_memory.md R59 (decision D22; log entries 5 and 6): a store to an external device is delivered to
it, a load takes its answer, in every form; a push onto a stack that a device serves is delivered to it and a pop takes its answer,
`sp` and `sfs` moving as always (R200, R201). Or the device reports an error, which is the fault, with no effect of the access. -/
def Obligations.ExternalLoadAndStore : Prop :=
  ∀ (s : State) (a : Word) (d off : Nat), a ≠ 0xFFFF → s.resolve a.toNat = some ⟨d, off, .external⟩ →
    let loaded (n : Nat) (r : Reg) := ((s.advance n).called ⟨d, off, .get16⟩).setReg r (Config.extWord s.draws)
    let pushed (n : Nat) (v : Word) := (((s.advance n).called ⟨d, off, .set16 v⟩).setReg .sp (a - 2)).setSfs (s.sfs + 2)
    let popped (n : Nat) := (((s.advance n).setReg .sp a).called ⟨d, off, .get16⟩).setSfs (s.sfs - 2)
    (∀ r, CallsDevice (.movRegMem r a) a s (s.advance 4) ((s.advance 4).called ⟨d, off, .set16 (operand 4 s r)⟩)) ∧
    (∀ l, CallsDevice (.movLitMem l a) a s (s.advance 5) ((s.advance 5).called ⟨d, off, .set16 l⟩)) ∧
    (∀ r, CallsDevice (.movMemReg a r) a s (s.advance 4) (loaded 4 r)) ∧
    (∀ p r, operand 3 s p = a → CallsDevice (.movRegPtrReg p r) a s (s.advance 3) (loaded 3 r)) ∧
    (∀ b o r, b.toNat + (operand 5 s o).toNat = a.toNat → CallsDevice (.movLitOffReg b o r) a s (s.advance 5) (loaded 5 r)) ∧
    (s.getReg .sp = a → (∀ l, CallsDevice (.pshLit l) a s (s.advance 3) (pushed 3 l)) ∧
      ∀ r, CallsDevice (.pshReg r) a s (s.advance 2) (pushed 2 (operand 2 s r))) ∧
    (s.getReg .sp + 2 = a → ∀ r,
      CallsDevice (.pop r) a s ((s.advance 2).setReg .sp a) ((popped 2).setReg r (Config.extWord s.draws)))

/-- R127, 20_memory.md R72: a word stored from a register is what a later load of that address gives, as long as nothing wrote
the two bytes and the address still reaches them (the same bank). -/
def Obligations.StoreThenLoad : Prop :=
  ∀ (s : State) (a : Word) (r d : Reg) (k : Nat), s.romAt a.toNat = false → s.wordCell a.toNat = some k →
    ∃ t, exec (.movRegMem r a) s = .next t ∧
      ∀ u : State, u.wordCell a.toNat = some k → u.mem.read k = t.mem.read k → u.mem.read (k + 1) = t.mem.read (k + 1) →
        WritesReg (.movMemReg a d) 4 d (operand 4 s r) u

/-! ### The ALU (41_alu.md) -/

/-- R140, R141, R142: `acc` takes the sum or the difference, exact and then reduced modulo 2^16. -/
def Obligations.AddAndSubtract : Prop :=
  ∀ s : State,
    (∀ a b, WritesReg (.addRegReg a b) 3 .acc (trunc16 ((operand 3 s a).toNat + (operand 3 s b).toNat)) s) ∧
    (∀ l r, WritesReg (.addLitReg l r) 4 .acc (trunc16 (l.toNat + (operand 4 s r).toNat)) s) ∧
    ∀ a b, WritesReg (.subRegReg a b) 3 .acc (trunc16 ((operand 3 s a).toNat - (operand 3 s b).toNat)) s

/-- R143, R144 (decisions D17, D8): the first operand in encoding order is the minuend. R145, R146 (decision D18): `acc` takes
the low 16 bits of the exact product. -/
def Obligations.SubtractLiteralAndMultiply : Prop :=
  ∀ s : State,
    (∀ l r, WritesReg (.subLitReg l r) 4 .acc (trunc16 (l.toNat - (operand 4 s r).toNat)) s ∧
      WritesReg (.subRegLit r l) 4 .acc (trunc16 ((operand 4 s r).toNat - l.toNat)) s) ∧
    (∀ a b, WritesReg (.mulRegReg a b) 3 .acc (trunc16 ((operand 3 s a).toNat * (operand 3 s b).toNat)) s) ∧
    ∀ l r, WritesReg (.mulLitReg l r) 4 .acc (trunc16 (l.toNat * (operand 4 s r).toNat)) s

/-- R150, R151: the register is counted up or down in place, modulo 2^16; `acc` is not written unless it is the register. -/
def Obligations.IncrementAndDecrement : Prop :=
  ∀ (s : State) (r : Reg),
    WritesReg (.incReg r) 2 r (trunc16 ((operand 2 s r).toNat + 1)) s ∧
    WritesReg (.decReg r) 2 r (trunc16 ((operand 2 s r).toNat - 1)) s

/-- R154 to R158 (decision D7): shifts in place by the amount modulo `SHIFT_COUNT_MOD`, left by multiplying and truncating,
right logically. -/
def Obligations.Shifts : Prop :=
  ∀ (s : State) (r : Reg),
    (∀ n, let k := (operand 3 s n).toNat % s.cfg.shiftCountMod
      WritesReg (.lsfRegReg r n) 3 r (trunc16 ((operand 3 s r).toNat * 2 ^ k : Nat)) s ∧
      WritesReg (.rsfRegReg r n) 3 r (trunc16 ((operand 3 s r).toNat / 2 ^ k : Nat)) s) ∧
    ∀ n : Word, let k := n.toNat % s.cfg.shiftCountMod
      WritesReg (.lsfRegLit r n) 4 r (trunc16 ((operand 4 s r).toNat * 2 ^ k : Nat)) s ∧
      WritesReg (.rsfRegLit r n) 4 r (trunc16 ((operand 4 s r).toNat / 2 ^ k : Nat)) s

/-- R161, R163, R166, R167: the register forms of the bitwise instructions, bit by bit, and `NOT`, which writes `acc` and not
its operand. -/
def Obligations.BitwiseOfRegisters : Prop :=
  ∀ (s : State) (a b : Reg),
    (∃ v : Word, (∀ j, v.getLsbD j = ((operand 3 s a).getLsbD j && (operand 3 s b).getLsbD j)) ∧
      WritesReg (.andRegReg a b) 3 .acc v s) ∧
    (∃ v : Word, (∀ j, v.getLsbD j = ((operand 3 s a).getLsbD j || (operand 3 s b).getLsbD j)) ∧
      WritesReg (.orRegReg a b) 3 .acc v s) ∧
    (∃ v : Word, (∀ j, v.getLsbD j = ((operand 3 s a).getLsbD j != (operand 3 s b).getLsbD j)) ∧
      WritesReg (.xorRegReg a b) 3 .acc v s) ∧
    WritesReg (.not a) 2 .acc (trunc16 (0xFFFF - (operand 2 s a).toNat)) s

/-- R162, R164, R165 (decision D17 for the literal-first layout): the literal forms of the bitwise instructions, bit by bit. -/
def Obligations.BitwiseOfLiteral : Prop :=
  ∀ (s : State) (l : Word) (r : Reg),
    (∃ v : Word, (∀ j, v.getLsbD j = (l.getLsbD j && (operand 4 s r).getLsbD j)) ∧ WritesReg (.andLitReg l r) 4 .acc v s) ∧
    (∃ v : Word, (∀ j, v.getLsbD j = (l.getLsbD j || (operand 4 s r).getLsbD j)) ∧ WritesReg (.orLitReg l r) 4 .acc v s) ∧
    ∃ v : Word, (∀ j, v.getLsbD j = (l.getLsbD j != (operand 4 s r).getLsbD j)) ∧ WritesReg (.xorLitReg l r) 4 .acc v s

/-! ### Conditional jumps (42_branch.md) -/

/-- R181 to R184: the jumps on inequality and equality with `acc`. -/
def Obligations.JumpsOnEquality : Prop :=
  ∀ (s : State) (t : Word),
    (∀ v, JumpsWhen (.jmpNotEq v t) 5 (v.toNat ≠ (s.getReg .acc).toNat) t s ∧
      JumpsWhen (.jeqLit v t) 5 (v.toNat = (s.getReg .acc).toNat) t s) ∧
    ∀ r, JumpsWhen (.jneReg r t) 4 ((operand 4 s r).toNat ≠ (s.getReg .acc).toNat) t s ∧
      JumpsWhen (.jeqReg r t) 4 ((operand 4 s r).toNat = (s.getReg .acc).toNat) t s

/-- R185 to R192 (decision D16): the jumps on order, unsigned, the value on the left of `acc`. -/
def Obligations.JumpsOnOrder : Prop :=
  ∀ (s : State) (t : Word),
    (∀ v, JumpsWhen (.jltLit v t) 5 (v.toNat < (s.getReg .acc).toNat) t s ∧
      JumpsWhen (.jgtLit v t) 5 ((s.getReg .acc).toNat < v.toNat) t s ∧
      JumpsWhen (.jleLit v t) 5 (v.toNat ≤ (s.getReg .acc).toNat) t s ∧
      JumpsWhen (.jgeLit v t) 5 ((s.getReg .acc).toNat ≤ v.toNat) t s) ∧
    ∀ r, JumpsWhen (.jltReg r t) 4 ((operand 4 s r).toNat < (s.getReg .acc).toNat) t s ∧
      JumpsWhen (.jgtReg r t) 4 ((s.getReg .acc).toNat < (operand 4 s r).toNat) t s ∧
      JumpsWhen (.jleReg r t) 4 ((operand 4 s r).toNat ≤ (s.getReg .acc).toNat) t s ∧
      JumpsWhen (.jgeReg r t) 4 ((s.getReg .acc).toNat ≤ (operand 4 s r).toNat) t s

/-! ### Stack and calls (43_stack_call.md) -/

/-- R204, R205: the literal, or the register as it was before `sp` moves, is pushed, wherever the store completes; a ROM
discards the word (decision D30 for offsets beyond it) and `sp` and `sfs` still move. -/
def Obligations.PushWord : Prop :=
  ∀ s : State, s.storable (s.getReg .sp).toNat = true →
    (∀ l, PushesWord (.pshLit l) 3 l s) ∧ ∀ r, PushesWord (.pshReg r) 2 (operand 2 s r) s

/-- R206: `sp` is first increased, the word there goes to the register, which wins over the increase where it is `sp`, and `sfs`
falls by 2; memory is unchanged, the slot read among it. -/
def Obligations.PopWord : Prop :=
  ∀ (s : State) (r : Reg) (k : Nat), s.wordCell (s.getReg .sp + 2).toNat = some k →
    ∃ t, exec (.pop r) s = .next t ∧ t.getReg r = joinBytes (s.mem.read k) (s.mem.read (k + 1)) ∧
      (r ≠ .sp → t.getReg .sp = s.getReg .sp + 2) ∧ (r ≠ .ip → t.getReg .ip = s.getReg .ip + 2) ∧
      t.sfs = s.sfs - 2 ∧ t.inHandler = s.inHandler ∧ Unchanged [r, .ip, .sp] [] s t

/-- R207, R208: a call pushes the frame and goes to the literal, or to the register as it was before the frame; where the ten
words go to different bytes of mutable buffers, they are the frame of `push_state`, the saved `ip` the address after the
instruction. -/
def Obligations.Call : Prop :=
  ∀ (s : State) (i : Instr) (n : Nat) (target : Word),
    (i = .calLit target ∧ n = 3) ∨ (∃ r, i = .calReg r ∧ n = 2 ∧ target = operand 2 s r) →
    s.pushable (s.getReg .sp) 10 = true →
    CallsTarget i target s ∧
    ((s.pushedCells (s.getReg .sp) 10).length = 20 → (s.pushedCells (s.getReg .sp) 10).Nodup →
      ∀ t, exec i s = .next t →
        FrameHolds (s.getReg .ip + BitVec.ofNat 16 n) s t ∧ t.popped (t.getReg .fp) 0 = s.sfs + 20)

/-- R203, R209, 44_system.md R231 (decisions D32, D15): `RET` and `RET_INT` take the frame at `fp` back, with the counted
argument words; `RET_INT` also clears `in_handler`, `RET` leaves it. -/
def Obligations.Return : Prop :=
  ∀ s : State, s.poppable (s.getReg .fp) (11 + (s.popped (s.getReg .fp) 10).toNat) = true →
    (∃ t, exec .ret s = .next t ∧ FrameRestored s t ∧ t.inHandler = s.inHandler) ∧
    ∃ t, exec .retInt s = .next t ∧ FrameRestored s t ∧ t.inHandler = false

/-- R213, R214: a `RET` in any later state that has the callee's `fp` and the words of the frame restores `r1` to `r8` and goes
to the instruction after the call, drops the counted arguments, and gives the caller's `fp` back where the frame relation held
at the call; `sfs` is then 2 more than the relation asks. -/
def Obligations.CallThenReturn : Prop :=
  ∀ (s t u : State) (i : Instr) (n : Nat),
    ((∃ target, i = .calLit target) ∧ n = 3) ∨ ((∃ r, i = .calReg r) ∧ n = 2) →
    (s.pushedCells (s.getReg .sp) 10).length = 20 → (s.pushedCells (s.getReg .sp) 10).Nodup → exec i s = .next t →
    u.cfg = t.cfg → u.getReg .mb = t.getReg .mb → u.getReg .fp = t.getReg .fp →
    (∀ k ∈ s.pushedCells (s.getReg .sp) 10, u.mem.read k = t.mem.read k) →
    let args := (u.popped (s.getReg .sp) 0).toNat
    u.poppable (u.getReg .fp) (11 + args) = true →
    ∃ w, exec .ret u = .next w ∧ (∀ r ∈ [.r1, .r2, .r3, .r4, .r5, .r6, .r7, .r8], w.getReg r = s.getReg r) ∧
      w.getReg .ip = s.getReg .ip + BitVec.ofNat 16 n ∧
      w.getReg .sp = s.getReg .sp + BitVec.ofNat 16 (2 + 2 * args) ∧
      (s.frameInv → w.getReg .fp = s.getReg .fp ∧ w.sfs = w.getReg .fp - w.getReg .sp + 2)

/-- R212: what is pushed to a mutable buffer is popped again, and `sp` and `sfs` are as before. -/
def Obligations.PushThenPop : Prop :=
  ∀ (s t : State) (v : Word), s.romAt (s.getReg .sp).toNat = false → (s.wordCell (s.getReg .sp).toNat).isSome = true →
    push v s = .ok () t →
    ∃ u, pop t = .ok v u ∧ u.sfs = s.sfs ∧ (∀ r, u.getReg r = s.getReg r) ∧ u.mem = t.mem

/-- R200 to R209, 44_system.md R231, 60_exceptions.md R252 (decisions D9, D10, D11, D32): where the first access of a stack
instruction faults, `sp` of a push is as before, `sp` of a pop has moved, and nothing else changed but `ip` (and `in_handler` of
a `RET_INT`). Where a later push of a call's frame faults, the pushes before it stand; where a later pop of a return faults, the
registers popped before it have their values, `sp` has moved for it, and `fp` is as before. -/
def Obligations.StackAccessTraps : Prop :=
  ∀ (s : State) (f : Fault),
    (s.wordFault true (s.getReg .sp).toNat = some f →
      (∀ l, Traps (.pshLit l) f s (s.advance 3)) ∧ (∀ r, Traps (.pshReg r) f s (s.advance 2)) ∧
      (∀ l, Traps (.calLit l) f s (s.advance 3)) ∧ ∀ r, Traps (.calReg r) f s (s.advance 2)) ∧
    (s.wordFault false (s.getReg .sp + 2).toNat = some f →
      ∀ r, Traps (.pop r) f s ((s.advance 2).setReg .sp (s.getReg .sp + 2))) ∧
    (s.wordFault false (s.getReg .fp + 2).toNat = some f →
      Traps .ret f s ((s.advance 1).setReg .sp (s.getReg .fp + 2)) ∧
      Traps .retInt f s (((s.advance 1).setReg .sp (s.getReg .fp + 2)).setInHandler false)) ∧
    (∀ n, n < 10 → s.pushable (s.getReg .sp) n = true →
      s.wordFault true (s.getReg .sp - BitVec.ofNat 16 (2 * n)).toNat = some f →
      (∀ t, ∃ u, Traps (.calLit t) f s u ∧ PushesDone ((frameWords (s.advance 3)).take n) (s.advance 3) u) ∧
      ∀ r, ∃ u, Traps (.calReg r) f s u ∧ PushesDone ((frameWords (s.advance 2)).take n) (s.advance 2) u) ∧
    ∀ n, n < 11 + (s.popped (s.getReg .fp) 10).toNat → s.poppable (s.getReg .fp) n = true →
      s.wordFault false (s.getReg .fp + BitVec.ofNat 16 (2 * n + 2)).toNat = some f →
      (∃ u, Traps .ret f s u ∧ PopsDone n (s.advance 1) u ∧ u.inHandler = s.inHandler) ∧
      ∃ u, Traps .retInt f s u ∧ PopsDone n (s.advance 1) u ∧ u.inHandler = false

/-! ### Interrupts and halt (44_system.md, 60_exceptions.md) -/

/-- R230, R260, R262, R266 (decisions D19, D28): an enabled interrupt outside a handler, by `INT` or by the host, saves the
frame above a zero count word and enters the handler at the line's vector; where the words go to different bytes of mutable
buffers they are that frame, the saved `ip` the next instruction's address. -/
def Obligations.InterruptEntry : Prop :=
  ∀ (s : State) (v : Word), interruptEnabled v s = true → s.inHandler = false → s.pushable (s.getReg .sp) 11 = true →
    vectorReadable v s = true →
    (∃ t, exec (.int v) s = .next t ∧ HandlerEntered v s t) ∧
    (s.cfg.wf = true → s.stopped = false → ∃ t, hostInterrupt v s = .next t ∧ HandlerEntered v s t) ∧
    ((s.pushedCells (s.getReg .sp) 11).length = 22 → (s.pushedCells (s.getReg .sp) 11).Nodup →
      ∀ t resume, (exec (.int v) s = .next t ∧ resume = s.getReg .ip + 3) ∨
          (s.cfg.wf = true ∧ s.stopped = false ∧ hostInterrupt v s = .next t ∧ resume = s.getReg .ip) →
        FrameHolds resume s t ∧ t.popped (t.getReg .fp) 0 = s.sfs + 22 ∧ t.popped (t.getReg .fp) 10 = 0)

/-- R264: an enabled interrupt inside a handler saves no frame and only goes to the line's vector. -/
def Obligations.NestedInterrupt : Prop :=
  ∀ (s : State) (v : Word), interruptEnabled v s = true → s.inHandler = true → vectorReadable v s = true →
    let handler := s.wordAt (s.cfg.ivtBase.toNat + 2 * (v.toNat % 16))
    (∃ t, exec (.int v) s = .next t ∧ t.getReg .ip = handler ∧ SameHidden s t ∧ Unchanged [.ip] [] s t) ∧
    (s.cfg.wf = true → s.stopped = false → hostInterrupt v s = .next (s.setReg .ip handler))

/-- R260, R262, R230: a masked interrupt has no effect: `INT` only moves on, a request changes nothing. -/
def Obligations.MaskedInterrupt : Prop :=
  ∀ (s : State) (v : Word), (s.getReg .im).getLsbD (v.toNat % 16) = false →
    OnlyAdvances (.int v) 3 s ∧ (s.cfg.wf = true → s.stopped = false → hostInterrupt v s = .next s)

/-- R230, R252, R260, R262, R263 (decisions D11, D28), of an `INT` and of a host request alike: a frame push that faults ends the
entry there, the pushes before it standing and `in_handler` still clear; a vector read that faults inside a handler changes
nothing; one outside a handler comes after the frame, which stays, with `in_handler` set and `ip` at the next instruction: where
the words went to different bytes of mutable buffers they are that frame. -/
def Obligations.InterruptEntryTraps : Prop :=
  ∀ (s : State) (v : Word) (f : Fault), interruptEnabled v s = true →
    let vector := s.cfg.ivtBase.toNat + 2 * (v.toNat % 16)
    (s.inHandler = false → s.wordFault true (s.getReg .sp).toNat = some f → InterruptRaises v f s fun b u => u = b) ∧
    (s.inHandler = false → ∀ n, n < 11 → s.pushable (s.getReg .sp) n = true →
      s.wordFault true (s.getReg .sp - BitVec.ofNat 16 (2 * n)).toNat = some f →
      InterruptRaises v f s fun b u => PushesDone ((interruptWords b).take n) b u) ∧
    (s.inHandler = true → s.wordFault false vector = some f → InterruptRaises v f s fun b u => u = b) ∧
    (s.inHandler = false → s.pushable (s.getReg .sp) 11 = true → s.wordFault false vector = some f →
      InterruptRaises v f s fun b u =>
        u.inHandler = true ∧ u.getReg .sp = s.getReg .sp - 22 ∧ u.getReg .fp = s.getReg .sp - 22 ∧ u.sfs = 0 ∧
        Unchanged [.sp, .fp] (s.pushedCells (s.getReg .sp) 11) b u ∧
        ((s.pushedCells (s.getReg .sp) 11).length = 22 → (s.pushedCells (s.getReg .sp) 11).Nodup →
          FrameHolds (b.getReg .ip) s u ∧ u.popped (u.getReg .fp) 0 = s.sfs + 22 ∧ u.popped (u.getReg .fp) 10 = 0))

/-- R231, R266, R267 (decision D15): a `RET_INT` in any later state that has the handler's `fp` and the words of the interrupt's
frame resumes after the `INT` with `r1` to `r8`, `sp` and, where the frame relation held, `fp` of before; it clears `in_handler`
and restores neither `acc` nor `im` nor `mb`. -/
def Obligations.InterruptThenReturn : Prop :=
  ∀ (s t u : State) (v : Word), interruptEnabled v s = true → s.inHandler = false → vectorReadable v s = true →
    (s.pushedCells (s.getReg .sp) 11).length = 22 → (s.pushedCells (s.getReg .sp) 11).Nodup → exec (.int v) s = .next t →
    u.cfg = t.cfg → u.getReg .mb = t.getReg .mb → u.getReg .fp = t.getReg .fp →
    (∀ k ∈ s.pushedCells (s.getReg .sp) 11, u.mem.read k = t.mem.read k) →
    ∃ w, exec .retInt u = .next w ∧ w.inHandler = false ∧
      (∀ r ∈ [.r1, .r2, .r3, .r4, .r5, .r6, .r7, .r8, .sp], w.getReg r = s.getReg r) ∧
      w.getReg .ip = s.getReg .ip + 3 ∧ (∀ r ∈ [.acc, .im, .mb], w.getReg r = u.getReg r) ∧
      (s.frameInv → w.getReg .fp = s.getReg .fp ∧ w.sfs = s.sfs + 2)

/-- R232 (decision D12): `HLT` halts the core with `ip` after its byte and changes nothing else; no later transition does
anything. -/
def Obligations.Halt : Prop :=
  ∀ s : State, ∃ t, exec .hlt s = .next t ∧ t.halted = true ∧ t.getReg .ip = s.getReg .ip + 1 ∧
    (∀ r, r ≠ .ip → t.getReg r = s.getReg r) ∧ t.mem = s.mem ∧ SameHidden s t ∧ t.cfg = s.cfg ∧ t.fault = s.fault ∧
    t.calls = s.calls ∧ t.draws = s.draws ∧ (s.cfg.wf = true → ∀ m, transition m t = .next t)

/-! ### Reset and the host (10_state.md, 70_reset_and_hazards.md) -/

/-- 10_state.md R40, 70_reset_and_hazards.md R280 (every value is the spec's decision D5 or D6). -/
def Obligations.ResetValues : Prop :=
  State.reset.getReg .ip = 0x0000 ∧ State.reset.getReg .sp = 0xFFFE ∧ State.reset.getReg .fp = 0xFFFE ∧
  State.reset.getReg .im = 0xFFFF ∧
  (∀ r ∈ [.acc, .r1, .r2, .r3, .r4, .r5, .r6, .r7, .r8, .mb], State.reset.getReg r = 0x0000) ∧
  State.reset.sfs = 0 ∧ State.reset.inHandler = false ∧ State.reset.halted = false ∧ State.reset.fault = none ∧
  ∀ k, State.reset.mem.read k = 0x00

/-- 70_reset_and_hazards.md R281, R284: a well-formed configuration boots, and after any boot, whatever images were loaded, the
launch premises hold. -/
def Obligations.LaunchPremises : Prop :=
  (∀ c : Config, c.wf = true → boot c [] = .ready (State.construct c)) ∧
  ∀ (c : Config) (images : List Image) (s : State), boot c images = .ready s →
    s.cfg = c ∧ c.wf = true ∧ s.regs = RegFile.initial c ∧ s.sfs = 0 ∧ s.inHandler = false ∧ s.halted = false ∧
    s.fault = none ∧ (c.resetSp = c.resetFp → s.getReg .sp = s.getReg .fp)

/-- 10_state.md R25, with the round trip of R24: the host's register operations fail with `UnknownRegister` exactly for a name
outside the closed register set; inside it a value set is the value got, and nothing but that register changes. -/
def Obligations.HostRegisterAccess : Prop :=
  ∀ (s : State) (name : String),
    let known := name ∈ ["ip", "acc", "acu", "r1", "r2", "r3", "r4", "r5", "r6", "r7", "r8", "sp", "fp", "im"] ∨
      (name = "mb" ∧ s.cfg.hasMb = true)
    (¬ known → hostGet name s = .error .unknownRegister ∧ ∀ v, hostSet name v s = .error .unknownRegister) ∧
    (known → ∃ r, hostGet name s = .ok (s.getReg r) ∧ ∀ v, ∃ t, hostSet name v s = .ok t ∧ hostGet name t = .ok v ∧
      SameHidden s t ∧ Unchanged [r] [] s t)
end

