-- ==== Sys2Proof/Laws/Memory.lean ====
section
/-!
SUPPORT. The laws of the store: a cell reads as what was last written to it, a write leaves every other cell alone, every
operation keeps the canonical form, and different bytes have different cells.
-/

namespace Sys2Proof.Machine

theorem Memory.read_put_same (m : Memory) (k : Nat) (b : Byte) : (m.put k b).read k = b := by
  induction m with
  | nil => simp [Memory.put, Memory.read]
  | cons e rest ih =>
    obtain ⟨k', b'⟩ := e
    by_cases h₁ : k' < k
    · simp [Memory.put, Memory.read, h₁, ih, Nat.ne_of_lt h₁]
    · by_cases h₂ : k' = k <;> simp [Memory.put, Memory.read, h₁, h₂]

theorem Memory.read_put_other (m : Memory) {k j : Nat} (b : Byte) (h : j ≠ k) : (m.put k b).read j = m.read j := by
  induction m with
  | nil => simp [Memory.put, Memory.read, Ne.symm h]
  | cons e rest ih =>
    obtain ⟨k', b'⟩ := e
    by_cases h₁ : k' < k
    · simp [Memory.put, Memory.read, h₁, ih]
    · by_cases h₂ : k' = k
      · subst h₂
        simp [Memory.put, Memory.read, Ne.symm h]
      · simp [Memory.put, Memory.read, h₁, h₂, Ne.symm h]

theorem Memory.read_drop_same (m : Memory) (k : Nat) : (m.drop k).read k = unlistedByte := by
  induction m with
  | nil => rfl
  | cons e rest ih =>
    by_cases h : e.1 = k
    · simpa [Memory.drop, h] using ih
    · simpa [Memory.drop, h, Memory.read] using ih

theorem Memory.read_drop_other (m : Memory) {k j : Nat} (h : j ≠ k) : (m.drop k).read j = m.read j := by
  induction m with
  | nil => rfl
  | cons e rest ih =>
    by_cases h₁ : e.1 = k
    · have h₂ : ¬ e.1 = j := fun h₂ => h (h₂.symm.trans h₁)
      simpa [Memory.drop, h₁, Memory.read, h₂, Ne.symm h] using ih
    · by_cases h₂ : e.1 = j <;> simp_all [Memory.drop, Memory.read]

/-- A cell reads as what was last written to it. -/
@[simp] theorem Memory.read_write_same (m : Memory) (k : Nat) (b : Byte) : (m.write k b).read k = b := by
  by_cases h : b = unlistedByte
  · simp [Memory.write, h, Memory.read_drop_same]
  · simp [Memory.write, h, Memory.read_put_same]

/-- A write leaves every other cell alone. -/
theorem Memory.read_write_other (m : Memory) {k j : Nat} (b : Byte) (h : j ≠ k) :
    (m.write k b).read j = m.read j := by
  by_cases hb : b = unlistedByte
  · simp [Memory.write, hb, Memory.read_drop_other m h]
  · simp [Memory.write, hb, Memory.read_put_other m b h]

/-- Reading after a write, both cases in one. -/
theorem Memory.read_write (m : Memory) (k j : Nat) (b : Byte) :
    (m.write k b).read j = if j = k then b else m.read j := by
  split
  · next h => subst h; simp
  · next h => exact Memory.read_write_other m b h

/-! ### The canonical form -/

theorem Memory.above_mono {m : Memory} {j k : Nat} (hjk : j ≤ k) (h : m.above k = true) : m.above j = true := by
  cases m with
  | nil => rfl
  | cons e rest => simp [Memory.above] at *; omega

/-- In a canonical list above a cell, every listed cell lies above it. -/
theorem Memory.above_mem {m : Memory} (h : m.wf = true) {k : Nat} (ha : m.above k = true) :
    ∀ e ∈ m, k < e.1 := by
  induction m generalizing k with
  | nil => simp
  | cons e rest ih =>
    simp only [Memory.wf, Memory.above, Bool.and_eq_true, decide_eq_true_eq] at h ha
    intro e' he'
    rcases List.mem_cons.mp he' with rfl | he'
    · exact ha
    · exact Nat.lt_trans ha (ih h.2 h.1.2 e' he')

theorem Memory.above_of_mem {m : Memory} {k : Nat} (h : ∀ e ∈ m, k < e.1) : m.above k = true := by
  cases m with
  | nil => rfl
  | cons e rest => simpa [Memory.above] using h e (by simp)

theorem Memory.wf_drop {m : Memory} (k : Nat) (h : m.wf = true) : (m.drop k).wf = true := by
  induction m with
  | nil => rfl
  | cons e rest ih =>
    have h' := h
    simp only [Memory.wf, Bool.and_eq_true, decide_eq_true_eq] at h'
    by_cases hk : e.1 = k
    · simpa [Memory.drop, hk] using ih h'.2
    · have hr : (Memory.drop rest k).above e.1 = true :=
        Memory.above_of_mem fun e' he' => Memory.above_mem h'.2 h'.1.2 e' (List.mem_filter.mp he').1
      have hc : Memory.drop (e :: rest) k = e :: Memory.drop rest k := by simp [Memory.drop, hk]
      rw [hc]
      simp [Memory.wf, h'.1.1, hr, ih h'.2]

theorem Memory.above_put {m : Memory} {j k : Nat} (b : Byte) (hm : m.above j = true) (hk : j < k) :
    (m.put k b).above j = true := by
  cases m with
  | nil => simpa [Memory.put, Memory.above] using hk
  | cons e rest =>
    obtain ⟨k', b'⟩ := e
    simp only [Memory.above, decide_eq_true_eq] at hm
    by_cases h₁ : k' < k
    · simp [Memory.put, h₁, Memory.above, hm]
    · by_cases h₂ : k' = k <;> simp [Memory.put, h₁, h₂, Memory.above, hk]

theorem Memory.wf_put {m : Memory} {k : Nat} {b : Byte} (h : m.wf = true) (hb : b ≠ unlistedByte) :
    (m.put k b).wf = true := by
  induction m with
  | nil => simp [Memory.put, Memory.wf, Memory.above, hb]
  | cons e rest ih =>
    obtain ⟨k', b'⟩ := e
    have h' := h
    simp only [Memory.wf, Bool.and_eq_true, decide_eq_true_eq] at h'
    by_cases h₁ : k' < k
    · simp [Memory.put, h₁, Memory.wf, h'.1.1, Memory.above_put b h'.1.2 h₁, ih h'.2]
    · by_cases h₂ : k' = k
      · subst h₂
        simp [Memory.put, Memory.wf, hb, h'.1.2, h'.2]
      · have hlt : k < k' := by omega
        have hput : Memory.put ((k', b') :: rest) k b = (k, b) :: (k', b') :: rest := by simp [Memory.put, h₁, h₂]
        rw [hput, Memory.wf, h]
        simp [hb, Memory.above, hlt]

/-- A write keeps the canonical form. -/
theorem Memory.wf_write {m : Memory} (k : Nat) (b : Byte) (h : m.wf = true) : (m.write k b).wf = true := by
  by_cases hb : b = unlistedByte
  · simp [Memory.write, hb, Memory.wf_drop k h]
  · simp [Memory.write, hb, Memory.wf_put h hb]

/-- Writing consecutive cells keeps the canonical form. -/
theorem Memory.wf_writeAll {m : Memory} (k : Nat) (bs : List Byte) (h : m.wf = true) : (m.writeAll k bs).wf = true := by
  induction bs generalizing m k with
  | nil => exact h
  | cons b bs ih => exact ih (k + 1) (Memory.wf_write k b h)

/-- A canonical list that reads as zero everywhere is empty, the first step of `Memory.ext_read`. -/
theorem Memory.read_of_above {m : Memory} (h : m.wf = true) {k : Nat} (ha : m.above k = true) : m.read k = unlistedByte := by
  induction m with
  | nil => rfl
  | cons e rest ih =>
    have hlt := Memory.above_mem h ha e (by simp)
    simp only [Memory.wf, Bool.and_eq_true, decide_eq_true_eq] at h
    have hne : ¬ e.1 = k := by omega
    simp only [Memory.read, hne, if_false]
    exact ih h.2 (Memory.above_mono (Nat.le_of_lt hlt) h.1.2)

/-- Canonical stores that read alike are equal data. -/
theorem Memory.ext_read {m n : Memory} (hm : m.wf = true) (hn : n.wf = true) (h : ∀ k, m.read k = n.read k) : m = n := by
  induction m generalizing n with
  | nil =>
    cases n with
    | nil => rfl
    | cons e rest =>
      have := h e.1
      simp only [Memory.wf, Bool.and_eq_true, decide_eq_true_eq] at hn
      simp [Memory.read] at this
      exact absurd this.symm hn.1.1
  | cons e rest ih =>
    have hm' := hm
    simp only [Memory.wf, Bool.and_eq_true, decide_eq_true_eq] at hm'
    cases n with
    | nil =>
      have := h e.1
      simp [Memory.read] at this
      exact absurd this hm'.1.1
    | cons e' rest' =>
      have hn' := hn
      simp only [Memory.wf, Bool.and_eq_true, decide_eq_true_eq] at hn'
      have hk : e.1 = e'.1 := by
        rcases Nat.lt_trichotomy e.1 e'.1 with hlt | heq | hgt
        · have h₁ := h e.1
          have h₂ : Memory.read (e' :: rest') e.1 = unlistedByte :=
            Memory.read_of_above hn (by simp [Memory.above, hlt])
          rw [h₂] at h₁
          simp [Memory.read] at h₁
          exact absurd h₁ hm'.1.1
        · exact heq
        · have h₁ := h e'.1
          have h₂ : Memory.read (e :: rest) e'.1 = unlistedByte :=
            Memory.read_of_above hm (by simp [Memory.above, hgt])
          rw [h₂] at h₁
          simp [Memory.read] at h₁
          exact absurd h₁.symm hn'.1.1
      have hb : e.2 = e'.2 := by simpa [Memory.read, hk] using h e.1
      have hr : rest = rest' := by
        refine ih hm'.2 hn'.2 fun k => ?_
        by_cases hke : e.1 = k
        · subst hke
          rw [Memory.read_of_above hm'.2 hm'.1.2, Memory.read_of_above hn'.2 (by rw [hk]; exact hn'.1.2)]
        · have hke' : ¬ e'.1 = k := by rw [← hk]; exact hke
          simpa [Memory.read, hke, hke'] using h k
      rw [show e = e' from Prod.ext hk hb, hr]

/-- The cells a write lists are those listed before and the one written. -/
theorem Memory.mem_write {m : Memory} {k : Nat} {b : Byte} {e : Host.Cell} (h : e ∈ m.write k b) : e ∈ m ∨ e.1 = k := by
  by_cases hb : b = unlistedByte
  · simp only [Memory.write, hb, if_true, Memory.drop] at h
    exact .inl (List.mem_filter.mp h).1
  · simp only [Memory.write, hb, if_false] at h
    clear hb
    induction m with
    | nil =>
      simp only [Memory.put, List.mem_singleton] at h
      exact .inr (by rw [h])
    | cons e' rest ih =>
      obtain ⟨k', b'⟩ := e'
      simp only [Memory.put] at h
      split at h
      · rcases List.mem_cons.mp h with rfl | h
        · exact .inl (by simp)
        · rcases ih h with h | h
          · exact .inl (List.mem_cons_of_mem _ h)
          · exact .inr h
      · split at h
        · rcases List.mem_cons.mp h with rfl | h
          · exact .inr rfl
          · exact .inl (List.mem_cons_of_mem _ h)
        · rcases List.mem_cons.mp h with rfl | h
          · exact .inr rfl
          · exact .inl h

/-- Different bytes have different cells. -/
theorem cellKey_inj {d₁ b₁ o₁ d₂ b₂ o₂ : Nat} (hb₁ : b₁ < 0x10000) (ho₁ : o₁ < 0x10000) (hb₂ : b₂ < 0x10000)
    (ho₂ : o₂ < 0x10000) (h : cellKey d₁ b₁ o₁ = cellKey d₂ b₂ o₂) : d₁ = d₂ ∧ b₁ = b₂ ∧ o₁ = o₂ := by
  unfold cellKey at h
  omega

theorem cellKey_add (d b o n : Nat) : cellKey d b o + n = cellKey d b (o + n) := by
  unfold cellKey
  omega

end Sys2Proof.Machine
end

