-- ==== Sys2Proof/Laws/State.lean ====
section
/-!
SUPPORT. One lemma per field of State per named update, true by rfl, and the register file's read-after-write laws.
-/

namespace Sys2Proof.Machine

variable (s : State)

/-! ### setReg -/

@[simp] theorem State.setReg_cfg (r : Reg) (v : Word) : (s.setReg r v).cfg = s.cfg := rfl
@[simp] theorem State.setReg_regs (r : Reg) (v : Word) : (s.setReg r v).regs = s.regs.set r v := rfl
@[simp] theorem State.setReg_sfs (r : Reg) (v : Word) : (s.setReg r v).sfs = s.sfs := rfl
@[simp] theorem State.setReg_inHandler (r : Reg) (v : Word) : (s.setReg r v).inHandler = s.inHandler := rfl
@[simp] theorem State.setReg_halted (r : Reg) (v : Word) : (s.setReg r v).halted = s.halted := rfl
@[simp] theorem State.setReg_fault (r : Reg) (v : Word) : (s.setReg r v).fault = s.fault := rfl
@[simp] theorem State.setReg_mem (r : Reg) (v : Word) : (s.setReg r v).mem = s.mem := rfl
@[simp] theorem State.setReg_calls (r : Reg) (v : Word) : (s.setReg r v).calls = s.calls := rfl
@[simp] theorem State.setReg_draws (r : Reg) (v : Word) : (s.setReg r v).draws = s.draws := rfl

/-! ### setSfs -/

@[simp] theorem State.setSfs_cfg (v : Word) : (s.setSfs v).cfg = s.cfg := rfl
@[simp] theorem State.setSfs_regs (v : Word) : (s.setSfs v).regs = s.regs := rfl
@[simp] theorem State.setSfs_sfs (v : Word) : (s.setSfs v).sfs = v := rfl
@[simp] theorem State.setSfs_inHandler (v : Word) : (s.setSfs v).inHandler = s.inHandler := rfl
@[simp] theorem State.setSfs_halted (v : Word) : (s.setSfs v).halted = s.halted := rfl
@[simp] theorem State.setSfs_fault (v : Word) : (s.setSfs v).fault = s.fault := rfl
@[simp] theorem State.setSfs_mem (v : Word) : (s.setSfs v).mem = s.mem := rfl
@[simp] theorem State.setSfs_calls (v : Word) : (s.setSfs v).calls = s.calls := rfl
@[simp] theorem State.setSfs_draws (v : Word) : (s.setSfs v).draws = s.draws := rfl
@[simp] theorem State.getReg_setSfs (v : Word) (r : Reg) : (s.setSfs v).getReg r = s.getReg r := rfl

/-! ### setInHandler -/

@[simp] theorem State.setInHandler_cfg (b : Bool) : (s.setInHandler b).cfg = s.cfg := rfl
@[simp] theorem State.setInHandler_regs (b : Bool) : (s.setInHandler b).regs = s.regs := rfl
@[simp] theorem State.setInHandler_sfs (b : Bool) : (s.setInHandler b).sfs = s.sfs := rfl
@[simp] theorem State.setInHandler_inHandler (b : Bool) : (s.setInHandler b).inHandler = b := rfl
@[simp] theorem State.setInHandler_halted (b : Bool) : (s.setInHandler b).halted = s.halted := rfl
@[simp] theorem State.setInHandler_fault (b : Bool) : (s.setInHandler b).fault = s.fault := rfl
@[simp] theorem State.setInHandler_mem (b : Bool) : (s.setInHandler b).mem = s.mem := rfl
@[simp] theorem State.setInHandler_calls (b : Bool) : (s.setInHandler b).calls = s.calls := rfl
@[simp] theorem State.setInHandler_draws (b : Bool) : (s.setInHandler b).draws = s.draws := rfl
@[simp] theorem State.getReg_setInHandler (b : Bool) (r : Reg) : (s.setInHandler b).getReg r = s.getReg r := rfl

/-! ### halt -/

@[simp] theorem State.halt_cfg : (s.halt).cfg = s.cfg := rfl
@[simp] theorem State.halt_regs : (s.halt).regs = s.regs := rfl
@[simp] theorem State.halt_sfs : (s.halt).sfs = s.sfs := rfl
@[simp] theorem State.halt_inHandler : (s.halt).inHandler = s.inHandler := rfl
@[simp] theorem State.halt_halted : (s.halt).halted = true := rfl
@[simp] theorem State.halt_fault : (s.halt).fault = s.fault := rfl
@[simp] theorem State.halt_mem : (s.halt).mem = s.mem := rfl
@[simp] theorem State.halt_calls : (s.halt).calls = s.calls := rfl
@[simp] theorem State.halt_draws : (s.halt).draws = s.draws := rfl
@[simp] theorem State.getReg_halt (r : Reg) : (s.halt).getReg r = s.getReg r := rfl

/-! ### setMem -/

@[simp] theorem State.setMem_cfg (m : Memory) : (s.setMem m).cfg = s.cfg := rfl
@[simp] theorem State.setMem_regs (m : Memory) : (s.setMem m).regs = s.regs := rfl
@[simp] theorem State.setMem_sfs (m : Memory) : (s.setMem m).sfs = s.sfs := rfl
@[simp] theorem State.setMem_inHandler (m : Memory) : (s.setMem m).inHandler = s.inHandler := rfl
@[simp] theorem State.setMem_halted (m : Memory) : (s.setMem m).halted = s.halted := rfl
@[simp] theorem State.setMem_fault (m : Memory) : (s.setMem m).fault = s.fault := rfl
@[simp] theorem State.setMem_mem (m : Memory) : (s.setMem m).mem = m := rfl
@[simp] theorem State.setMem_calls (m : Memory) : (s.setMem m).calls = s.calls := rfl
@[simp] theorem State.setMem_draws (m : Memory) : (s.setMem m).draws = s.draws := rfl
@[simp] theorem State.getReg_setMem (m : Memory) (r : Reg) : (s.setMem m).getReg r = s.getReg r := rfl

/-! ### called -/

@[simp] theorem State.called_cfg (c : ExtCall) : (s.called c).cfg = s.cfg := rfl
@[simp] theorem State.called_regs (c : ExtCall) : (s.called c).regs = s.regs := rfl
@[simp] theorem State.called_sfs (c : ExtCall) : (s.called c).sfs = s.sfs := rfl
@[simp] theorem State.called_inHandler (c : ExtCall) : (s.called c).inHandler = s.inHandler := rfl
@[simp] theorem State.called_halted (c : ExtCall) : (s.called c).halted = s.halted := rfl
@[simp] theorem State.called_fault (c : ExtCall) : (s.called c).fault = s.fault := rfl
@[simp] theorem State.called_mem (c : ExtCall) : (s.called c).mem = s.mem := rfl
@[simp] theorem State.called_calls (c : ExtCall) : (s.called c).calls = s.calls ++ [c] := rfl
@[simp] theorem State.called_draws (c : ExtCall) : (s.called c).draws = s.draws + 1 := rfl
@[simp] theorem State.getReg_called (c : ExtCall) (r : Reg) : (s.called c).getReg r = s.getReg r := rfl

/-! ### recordFault -/

@[simp] theorem State.recordFault_cfg (f : Fault) (w : Word) : (s.recordFault f w).cfg = s.cfg := rfl
@[simp] theorem State.recordFault_regs (f : Fault) (w : Word) : (s.recordFault f w).regs = s.regs := rfl
@[simp] theorem State.recordFault_sfs (f : Fault) (w : Word) : (s.recordFault f w).sfs = s.sfs := rfl
@[simp] theorem State.recordFault_inHandler (f : Fault) (w : Word) : (s.recordFault f w).inHandler = s.inHandler := rfl
@[simp] theorem State.recordFault_halted (f : Fault) (w : Word) : (s.recordFault f w).halted = s.halted := rfl
@[simp] theorem State.recordFault_fault (f : Fault) (w : Word) : (s.recordFault f w).fault = some ⟨f, w⟩ := rfl
@[simp] theorem State.recordFault_mem (f : Fault) (w : Word) : (s.recordFault f w).mem = s.mem := rfl
@[simp] theorem State.recordFault_calls (f : Fault) (w : Word) : (s.recordFault f w).calls = s.calls := rfl
@[simp] theorem State.recordFault_draws (f : Fault) (w : Word) : (s.recordFault f w).draws = s.draws := rfl
@[simp] theorem State.getReg_recordFault (f : Fault) (w : Word) (r : Reg) : (s.recordFault f w).getReg r = s.getReg r := rfl

/-! ### advance -/

@[simp] theorem State.advance_cfg (n : Nat) : (s.advance n).cfg = s.cfg := rfl
@[simp] theorem State.advance_regs (n : Nat) : (s.advance n).regs = s.regs.set .ip (s.getReg .ip + BitVec.ofNat 16 n) := rfl
@[simp] theorem State.advance_sfs (n : Nat) : (s.advance n).sfs = s.sfs := rfl
@[simp] theorem State.advance_inHandler (n : Nat) : (s.advance n).inHandler = s.inHandler := rfl
@[simp] theorem State.advance_halted (n : Nat) : (s.advance n).halted = s.halted := rfl
@[simp] theorem State.advance_fault (n : Nat) : (s.advance n).fault = s.fault := rfl
@[simp] theorem State.advance_mem (n : Nat) : (s.advance n).mem = s.mem := rfl
@[simp] theorem State.advance_calls (n : Nat) : (s.advance n).calls = s.calls := rfl
@[simp] theorem State.advance_draws (n : Nat) : (s.advance n).draws = s.draws := rfl

/-! ### rewind -/

@[simp] theorem State.rewind_cfg (w : Word) : (s.rewind w).cfg = s.cfg := rfl
@[simp] theorem State.rewind_regs (w : Word) : (s.rewind w).regs = s.regs.set .ip w := rfl
@[simp] theorem State.rewind_sfs (w : Word) : (s.rewind w).sfs = s.sfs := rfl
@[simp] theorem State.rewind_inHandler (w : Word) : (s.rewind w).inHandler = s.inHandler := rfl
@[simp] theorem State.rewind_halted (w : Word) : (s.rewind w).halted = s.halted := rfl
@[simp] theorem State.rewind_fault (w : Word) : (s.rewind w).fault = s.fault := rfl
@[simp] theorem State.rewind_mem (w : Word) : (s.rewind w).mem = s.mem := rfl
@[simp] theorem State.rewind_calls (w : Word) : (s.rewind w).calls = s.calls := rfl
@[simp] theorem State.rewind_draws (w : Word) : (s.rewind w).draws = s.draws := rfl

/-! ### Registers -/

/-- A register reads as what was last written to it, and a write leaves every other register alone (10_state.md R24). -/
theorem RegFile.get_set (f : RegFile) (r q : Reg) (v : Word) : (f.set r v).get q = if q = r then v else f.get q := by
  cases r <;> cases q <;> rfl

@[simp] theorem State.getReg_setReg (r q : Reg) (v : Word) :
    (s.setReg r v).getReg q = if q = r then v else s.getReg q := RegFile.get_set s.regs r q v

@[simp] theorem State.getReg_advance (n : Nat) (q : Reg) :
    (s.advance n).getReg q = if q = .ip then s.getReg .ip + BitVec.ofNat 16 n else s.getReg q :=
  RegFile.get_set s.regs .ip q _

@[simp] theorem State.getReg_rewind (w : Word) (q : Reg) :
    (s.rewind w).getReg q = if q = .ip then w else s.getReg q := RegFile.get_set s.regs .ip q w

/-- Register files that read alike are equal. -/
theorem RegFile.ext_get {f g : RegFile} (h : ∀ r, f.get r = g.get r) : f = g := by
  have hip := h .ip; have hacc := h .acc; have h1 := h .r1; have h2 := h .r2; have h3 := h .r3
  have h4 := h .r4; have h5 := h .r5; have h6 := h .r6; have h7 := h .r7; have h8 := h .r8
  have hsp := h .sp; have hfp := h .fp; have him := h .im; have hmb := h .mb
  cases f; cases g
  simp only [RegFile.get] at *
  simp_all

/-- Writing a register twice keeps the second value. -/
theorem RegFile.set_set (f : RegFile) (r : Reg) (v w : Word) : (f.set r v).set r w = f.set r w := by
  cases r <;> rfl

/-- Writing a register with its own value changes nothing. -/
theorem RegFile.set_get (f : RegFile) (r : Reg) : f.set r (f.get r) = f := by
  cases r <;> rfl

@[simp] theorem State.rewind_advance (n : Nat) : (s.advance n).rewind (s.getReg .ip) = s := by
  simp only [State.rewind, State.advance, State.setReg, State.getReg, RegFile.set_set, RegFile.set_get]

/-! ### Chaining -/

@[simp] theorem Res.bind_ok {α β : Type} (a : α) (s : State) (k : α → State → Res β) : (Res.ok a s).bind k = k a s := rfl

@[simp] theorem Res.bind_raised {α β : Type} (f : Fault) (s : State) (k : α → State → Res β) :
    (Res.raised f s).bind k = .raised f s := rfl

/-- A chain answers a value exactly when its first part does and the rest does from there. -/
theorem Res.bind_eq_ok {α β : Type} {r : Res α} {k : α → State → Res β} {b : β} {t : State} :
    r.bind k = .ok b t ↔ ∃ a u, r = .ok a u ∧ k a u = .ok b t := by
  cases r <;> simp [Res.bind]

/-- A chain raises a fault exactly when its first part does or the rest does from there. -/
theorem Res.bind_eq_raised {α β : Type} {r : Res α} {k : α → State → Res β} {f : Fault} {t : State} :
    r.bind k = .raised f t ↔ r = .raised f t ∨ ∃ a u, r = .ok a u ∧ k a u = .raised f t := by
  cases r <;> simp [Res.bind]

theorem Res.bind_assoc {α β γ : Type} (r : Res α) (k : α → State → Res β) (l : β → State → Res γ) :
    (r.bind k).bind l = r.bind fun a s => (k a s).bind l := by
  cases r <;> rfl

end Sys2Proof.Machine
end

