-- ==== Sys2Proof/Laws/Access.lean ====
section
/-!
SUPPORT. What the access primitives and the fetches do, said once: where a byte buffer serves the access, what they answer
(20_memory.md R56 to R61), and which cells an access reaches after the state has changed.
-/

namespace Sys2Proof.Machine

/-! ### Bytes and words -/

theorem wordHi_join (hi lo : Byte) : wordHi (joinBytes hi lo) = hi := by
  apply BitVec.eq_of_getLsbD_eq
  intro i hi'
  simp only [wordHi, joinBytes, BitVec.getLsbD_extractLsb']
  rw [BitVec.getLsbD_append]
  simp [hi']

theorem wordLo_join (hi lo : Byte) : wordLo (joinBytes hi lo) = lo := by
  apply BitVec.eq_of_getLsbD_eq
  intro i hi'
  simp only [wordLo, joinBytes, BitVec.getLsbD_extractLsb']
  rw [BitVec.getLsbD_append]
  simp [hi']

theorem join_hi_lo (w : Word) : joinBytes (wordHi w) (wordLo w) = w := by
  apply BitVec.eq_of_getLsbD_eq
  intro i hi
  simp only [wordHi, wordLo, joinBytes]
  rw [BitVec.getLsbD_append]
  by_cases h : i < 8
  · simp [h]
  · have h₁ : i - 8 < 8 := by omega
    have h₂ : 8 + (i - 8) = i := by omega
    simp [h, h₁, h₂]

/-! ### Resolution looks only at the configuration and at `mb` -/

theorem State.resolve_congr {s t : State} (hc : t.cfg = s.cfg) (hm : t.getReg .mb = s.getReg .mb) (a : Nat) :
    t.resolve a = s.resolve a := by
  simp only [State.resolve, State.backing, hc, hm]

theorem State.wordCell_congr {s t : State} (hc : t.cfg = s.cfg) (hm : t.getReg .mb = s.getReg .mb) (a : Nat) :
    t.wordCell a = s.wordCell a := by
  simp only [State.wordCell, State.resolve_congr hc hm a]

theorem State.byteCell_congr {s t : State} (hc : t.cfg = s.cfg) (hm : t.getReg .mb = s.getReg .mb) (a : Nat) :
    t.byteCell a = s.byteCell a := by
  simp only [State.byteCell, State.resolve_congr hc hm a]

theorem State.romAt_congr {s t : State} (hc : t.cfg = s.cfg) (hm : t.getReg .mb = s.getReg .mb) (a : Nat) :
    t.romAt a = s.romAt a := by
  simp only [State.romAt, State.resolve_congr hc hm a]

theorem State.storable_congr {s t : State} (hc : t.cfg = s.cfg) (hm : t.getReg .mb = s.getReg .mb) (a : Nat) :
    t.storable a = s.storable a := by
  simp only [State.storable, State.romAt_congr hc hm a, State.wordCell_congr hc hm a]

theorem State.storedCells_congr {s t : State} (hc : t.cfg = s.cfg) (hm : t.getReg .mb = s.getReg .mb) (a : Nat) :
    t.storedCells a = s.storedCells a := by
  simp only [State.storedCells, State.romAt_congr hc hm a, State.wordCell_congr hc hm a]

theorem State.pushable_congr {s t : State} (hc : t.cfg = s.cfg) (hm : t.getReg .mb = s.getReg .mb) (p : Word) (n : Nat) :
    t.pushable p n = s.pushable p n := by
  induction n generalizing p with
  | zero => rfl
  | succ n ih => simp only [State.pushable, State.storable_congr hc hm, ih]

theorem State.pushedCells_congr {s t : State} (hc : t.cfg = s.cfg) (hm : t.getReg .mb = s.getReg .mb) (p : Word) (n : Nat) :
    t.pushedCells p n = s.pushedCells p n := by
  induction n generalizing p with
  | zero => rfl
  | succ n ih => simp only [State.pushedCells, State.storedCells_congr hc hm, ih]

theorem State.poppable_congr {s t : State} (hc : t.cfg = s.cfg) (hm : t.getReg .mb = s.getReg .mb) (p : Word) (n : Nat) :
    t.poppable p n = s.poppable p n := by
  induction n generalizing p with
  | zero => rfl
  | succ n ih => simp only [State.poppable, State.wordCell_congr hc hm, ih]

theorem State.wordAt_congr {s t : State} (hc : t.cfg = s.cfg) (hm : t.getReg .mb = s.getReg .mb)
    (hmem : ∀ k, t.mem.read k = s.mem.read k) (a : Nat) : t.wordAt a = s.wordAt a := by
  simp only [State.wordAt, State.wordCell_congr hc hm a, hmem]

/-! ### Accesses that a byte buffer serves -/

/-- What it means that a byte buffer serves an 8-bit access. -/
theorem State.byteCell_eq_some {s : State} {a k : Nat} : s.byteCell a = some k ↔
    ∃ d off base size w, s.resolve a = some ⟨d, off, .buffer base size w⟩ ∧ off < size ∧ base + off = k := by
  rcases h : s.resolve a with _ | ⟨d, off, ⟨base, size, w⟩ | _⟩ <;> simp [State.byteCell, h]

/-- What it means that a byte buffer serves a 16-bit access. -/
theorem State.wordCell_eq_some {s : State} {a k : Nat} : s.wordCell a = some k ↔
    a ≠ 0xFFFF ∧
      ∃ d off base size w, s.resolve a = some ⟨d, off, .buffer base size w⟩ ∧ off + 1 < size ∧ base + off = k := by
  by_cases ha : a = 0xFFFF
  · simp [State.wordCell, ha]
  · rcases h : s.resolve a with _ | ⟨d, off, ⟨base, size, w⟩ | _⟩ <;> simp [State.wordCell, h, ha]

/-- What it means that a ROM serves an access. -/
theorem State.romAt_eq_true {s : State} {a : Nat} :
    s.romAt a = true ↔ ∃ d off base size, s.resolve a = some ⟨d, off, .buffer base size false⟩ := by
  rcases h : s.resolve a with _ | ⟨d, off, ⟨base, size, w⟩ | _⟩ <;> simp [State.romAt, h]

/-- `MemRead(a, 1)` of a buffer byte. -/
theorem memRead8_of_byteCell {s : State} {a k : Nat} (h : s.byteCell a = some k) :
    memRead8 a s = .ok (s.mem.read k) s := by
  obtain ⟨d, off, base, size, w, hr, hlt, rfl⟩ := State.byteCell_eq_some.mp h
  simp [memRead8, hr, bufGet8, hlt]

/-- `MemRead(a, 2)` of a buffer word. -/
theorem memRead16_of_wordCell {s : State} {a k : Nat} (h : s.wordCell a = some k) :
    memRead16 a s = .ok (joinBytes (s.mem.read k) (s.mem.read (k + 1))) s := by
  obtain ⟨ha, d, off, base, size, w, hr, hlt, rfl⟩ := State.wordCell_eq_some.mp h
  simp [memRead16, ha, hr, bufGet16, hlt]

/-- The same, in terms of the word at the address. -/
theorem memRead16_of_isSome {s : State} {a : Nat} (h : (s.wordCell a).isSome = true) :
    memRead16 a s = .ok (s.wordAt a) s := by
  obtain ⟨k, hk⟩ := Option.isSome_iff_exists.mp h
  rw [memRead16_of_wordCell hk, State.wordAt, hk]

/-- `MemWrite(a, 2, v)` into a mutable buffer: the high byte goes to the first cell, the low byte to the next. -/
theorem memWrite16_of_wordCell {s : State} {a k : Nat} (v : Word) (hrom : s.romAt a = false) (h : s.wordCell a = some k) :
    memWrite16 a v s = .ok () (s.setMem ((s.mem.write k (wordHi v)).write (k + 1) (wordLo v))) := by
  obtain ⟨ha, d, off, base, size, w, hr, hlt, rfl⟩ := State.wordCell_eq_some.mp h
  have hw : w = true := by simpa [State.romAt, hr] using hrom
  simp [memWrite16, ha, hr, bufSet16, hlt, hw]

/-- `MemWrite(a, 2, v)` into a ROM changes nothing. -/
theorem memWrite16_of_romAt {s : State} {a : Nat} (v : Word) (ha : a ≠ 0xFFFF) (hrom : s.romAt a = true) :
    memWrite16 a v s = .ok () s := by
  obtain ⟨d, off, base, size, hr⟩ := State.romAt_eq_true.mp hrom
  simp [memWrite16, ha, hr, bufSet16]

/-- A store that completes: what it answers and what it leaves, for a mutable buffer and for a ROM alike. -/
theorem memWrite16_of_storable {s : State} {a : Nat} (v : Word) (h : s.storable a = true) :
    ∃ m, memWrite16 a v s = .ok () (s.setMem m) ∧ (∀ k, k ∉ s.storedCells a → m.read k = s.mem.read k) ∧
      (∀ k, s.romAt a = false → s.wordCell a = some k → m.read k = wordHi v ∧ m.read (k + 1) = wordLo v) := by
  simp only [State.storable, Bool.and_eq_true, decide_eq_true_eq, Bool.or_eq_true] at h
  cases hr : s.romAt a with
  | true => exact ⟨s.mem, memWrite16_of_romAt v h.1 hr, fun _ _ => rfl, by simp⟩
  | false =>
    obtain ⟨k, hk⟩ := Option.isSome_iff_exists.mp (h.2.resolve_left (by simp [hr]))
    refine ⟨_, memWrite16_of_wordCell v hr hk, fun j hj => ?_, fun j _ hj => ?_⟩
    · simp only [State.storedCells, hr, hk, Bool.false_eq_true, if_false, List.mem_cons, List.not_mem_nil, or_false,
        not_or] at hj
      rw [Memory.read_write_other _ _ hj.2, Memory.read_write_other _ _ hj.1]
    · obtain rfl : k = j := Option.some.inj (hk.symm.trans hj)
      exact ⟨by rw [Memory.read_write_other _ _ (by omega), Memory.read_write_same], Memory.read_write_same _ _ _⟩

/-! ### Fetches -/

theorem fetch8_of_byteCell {s : State} {k : Nat} (h : s.byteCell (s.getReg .ip).toNat = some k) :
    fetch8 s = .ok (s.mem.read k) (s.advance 1) := by
  simp [fetch8, memRead8_of_byteCell h]

theorem fetch16_of_wordCell {s : State} {k : Nat} (h : s.wordCell (s.getReg .ip).toNat = some k) :
    fetch16 s = .ok (joinBytes (s.mem.read k) (s.mem.read (k + 1))) (s.advance 2) := by
  simp [fetch16, memRead16_of_wordCell h]

/-! ### The stack -/

/-- A push that completes (43_stack_call.md R200). -/
theorem push_of_storable {s : State} (v : Word) (h : s.storable (s.getReg .sp).toNat = true) :
    ∃ m, push v s = .ok () (((s.setMem m).setReg .sp (s.getReg .sp - 2)).setSfs (s.sfs + 2)) ∧
      (∀ k, k ∉ s.storedCells (s.getReg .sp).toNat → m.read k = s.mem.read k) ∧
      (∀ k, s.romAt (s.getReg .sp).toNat = false → s.wordCell (s.getReg .sp).toNat = some k →
        m.read k = wordHi v ∧ m.read (k + 1) = wordLo v) := by
  obtain ⟨m, hm, hrest⟩ := memWrite16_of_storable v h
  exact ⟨m, by simp [push, hm], hrest⟩

/-- A pop from a byte buffer (43_stack_call.md R201). -/
theorem pop_of_wordCell {s : State} (h : (s.wordCell (s.getReg .sp + 2).toNat).isSome = true) :
    pop s = .ok (s.wordAt (s.getReg .sp + 2).toNat) ((s.setReg .sp (s.getReg .sp + 2)).setSfs (s.sfs - 2)) := by
  have hsp : (popMove s).getReg .sp = s.getReg .sp + 2 := by simp [popMove]
  have hmb : (popMove s).getReg .mb = s.getReg .mb := by simp [popMove]
  have hread : memRead16 (s.getReg .sp + 2).toNat (popMove s) = .ok (s.wordAt (s.getReg .sp + 2).toNat) (popMove s) := by
    rw [memRead16_of_isSome (by rw [State.wordCell_congr (s := s) (t := popMove s) rfl hmb]; exact h),
      State.wordAt_congr (s := s) (t := popMove s) rfl hmb fun _ => rfl]
  simp only [pop, hsp, hread, Res.bind_ok]
  rfl

end Sys2Proof.Machine
end

