-- ==== Sys2Proof/Laws/Evolve.lean ====
section
/-!
SUPPORT. What every operation can do to a state, said once for the whole machine: the configuration, `halted` and the fault
record stay, the store's invariant is kept, ROM bytes stay, the calls of external devices only grow.
-/

namespace Sys2Proof.Machine

/-- The state part of what an operation gives. -/
def Res.state {α : Type} : Res α → State
  | .ok _ s => s
  | .raised _ s => s

@[simp] theorem Res.state_ok {α : Type} (a : α) (s : State) : (Res.ok a s).state = s := rfl

@[simp] theorem Res.state_raised {α : Type} (f : Fault) (s : State) : (Res.raised f s : Res α).state = s := rfl

/-- What every operation of the machine leaves as it is, or changes only in the way the spec allows. -/
structure Evolves (s t : State) : Prop where
  cfg    : t.cfg = s.cfg
  halted : t.halted = s.halted
  fault  : t.fault = s.fault
  store  : s.cfg.wf = true → s.storeInv → t.storeInv
  rom    : s.cfg.wf = true → ∀ k, cellInRom s.cfg k → t.mem.read k = s.mem.read k
  calls  : ∃ new, t.calls = s.calls ++ new ∧ t.draws = s.draws + new.length

theorem Evolves.refl (s : State) : Evolves s s :=
  ⟨rfl, rfl, rfl, fun _ h => h, fun _ _ _ => rfl, ⟨[], by simp⟩⟩

theorem Evolves.trans {s t u : State} (h₁ : Evolves s t) (h₂ : Evolves t u) : Evolves s u where
  cfg := h₂.cfg.trans h₁.cfg
  halted := h₂.halted.trans h₁.halted
  fault := h₂.fault.trans h₁.fault
  store hc hs := h₂.store (by rw [h₁.cfg]; exact hc) (h₁.store hc hs)
  rom hc k hk := (h₂.rom (by rw [h₁.cfg]; exact hc) k (by rw [h₁.cfg]; exact hk)).trans (h₁.rom hc k hk)
  calls := by
    obtain ⟨a, ha, ha'⟩ := h₁.calls
    obtain ⟨b, hb, hb'⟩ := h₂.calls
    exact ⟨a ++ b, by rw [hb, ha, List.append_assoc], by rw [hb', ha', List.length_append, Nat.add_assoc]⟩

/-- A change of registers, `sfs` or `in_handler` alone. -/
theorem Evolves.of_same {s t : State} (hc : t.cfg = s.cfg) (hh : t.halted = s.halted) (hf : t.fault = s.fault)
    (hm : t.mem = s.mem) (hcalls : t.calls = s.calls) (hd : t.draws = s.draws) : Evolves s t where
  cfg := hc
  halted := hh
  fault := hf
  store _ h := by simpa only [State.storeInv, hc, hm] using h
  rom _ _ _ := by rw [hm]
  calls := ⟨[], by simp [hcalls, hd]⟩

theorem Evolves.setReg (s : State) (r : Reg) (v : Word) : Evolves s (s.setReg r v) :=
  Evolves.of_same rfl rfl rfl rfl rfl rfl

theorem Evolves.setSfs (s : State) (v : Word) : Evolves s (s.setSfs v) := Evolves.of_same rfl rfl rfl rfl rfl rfl

theorem Evolves.setInHandler (s : State) (b : Bool) : Evolves s (s.setInHandler b) :=
  Evolves.of_same rfl rfl rfl rfl rfl rfl

theorem Evolves.advance (s : State) (n : Nat) : Evolves s (s.advance n) := Evolves.setReg s .ip _

theorem Evolves.called (s : State) (c : ExtCall) : Evolves s (s.called c) where
  cfg := rfl
  halted := rfl
  fault := rfl
  store _ h := h
  rom _ _ _ := rfl
  calls := ⟨[c], rfl, rfl⟩

/-- A chain evolves when its parts do. -/
theorem Evolves.bind {α β : Type} {s : State} {r : Res α} {k : α → State → Res β} (h₁ : Evolves s r.state)
    (h₂ : ∀ a u, r = .ok a u → Evolves u (k a u).state) : Evolves s (r.bind k).state := by
  cases r with
  | ok a u => exact h₁.trans (h₂ a u rfl)
  | raised f u => exact h₁

/-! ### The cells a store reaches -/

/-- In a well-formed configuration an address that a region serves lies in the address space. -/
theorem findRegion_bound {c : Config} (hc : c.wf = true) {a : Nat} {g : Region} (h : findRegion c a = some g) :
    a < 0x10000 ∧ regionOffset g a ≤ a := by
  have hmem : g ∈ c.bootMap := by simpa [regionList] using List.mem_of_find?_eq_some h
  have hhas : regionHas g a = true := by simpa using List.find?_some h
  have hwf : Region.wf c.devices g = true := by
    simp only [Config.wf, Bool.and_eq_true, List.all_eq_true] at hc
    exact hc.1.1.1 g hmem
  simp only [Region.wf, Bool.and_eq_true, decide_eq_true_eq, regionHas] at hwf hhas
  refine ⟨by omega, ?_⟩
  unfold regionOffset
  split <;> omega

/-- A mutable buffer that serves an access: its cells exist and are no ROM's. -/
theorem State.resolve_writable {s : State} (hc : s.cfg.wf = true) {a d off base size : Nat}
    (h : s.resolve a = some ⟨d, off, .buffer base size true⟩) :
    a < 0x10000 ∧ off ≤ a ∧
      ∀ j, off + j < size → off + j < 0x10000 → cellExists s.cfg (base + off + j) ∧ ¬ cellInRom s.cfg (base + off + j) := by
  simp only [State.resolve] at h
  split at h
  · simp at h
  · next g hg =>
    split at h
    · simp at h
    · next b hb =>
      simp only [Option.some.injEq, Place.mk.injEq] at h
      obtain ⟨rfl, rfl, rfl⟩ := h
      obtain ⟨ha, hoff⟩ := findRegion_bound hc hg
      refine ⟨ha, hoff, fun j hj hj' => ?_⟩
      simp only [State.backing] at hb
      split at hb
      · simp at hb
      · next sz hd =>
        simp only [Option.some.injEq, Backing.buffer.injEq] at hb
        obtain ⟨rfl, rfl, -⟩ := hb
        refine ⟨⟨g.device, 0, _, sz, by simp [bufferSize, hd], hj, hj', by omega, by simp [cellKey]; omega⟩, ?_⟩
        rintro ⟨d', sz', off', hd', ho', hk⟩
        have := cellKey_inj (d₁ := g.device) (b₁ := 0) (o₁ := regionOffset g a + j) (d₂ := d')
          (b₂ := 0) (o₂ := off') (by omega) hj' (by omega) ho'
          (by rw [← hk]; simp [cellKey]; omega)
        rw [this.1, hd'] at hd
        simp at hd
      · simp at hb
      · next n sz hd =>
        simp only [Option.some.injEq, Backing.buffer.injEq] at hb
        obtain ⟨rfl, rfl, -⟩ := hb
        have hdev : Device.wf s.cfg.hasMb (.banked n sz) = true := by
          simp only [Config.wf, Bool.and_eq_true, List.all_eq_true] at hc
          exact hc.1.1.2 _ (List.mem_of_getElem? hd)
        simp only [Device.wf, Bool.and_eq_true, decide_eq_true_eq] at hdev
        have hlt : (s.getReg .mb).toNat % n < n := Nat.mod_lt _ (by omega)
        have hle : (s.getReg .mb).toNat % n < 0x10000 :=
          Nat.lt_of_le_of_lt (Nat.mod_le _ _) (s.getReg .mb).isLt
        refine ⟨⟨g.device, _, _, sz, by simp [bufferSize, hd, hlt], hj, hj', hle, by simp [cellKey]; omega⟩, ?_⟩
        rintro ⟨d', sz', off', hd', ho', hk⟩
        have := cellKey_inj (d₁ := g.device) (b₁ := (s.getReg .mb).toNat % n) (o₁ := regionOffset g a + j)
          (d₂ := d') (b₂ := 0) (o₂ := off') hle hj' (by omega) ho' (by rw [← hk]; simp [cellKey]; omega)
        rw [this.1, hd'] at hd
        simp at hd
      · simp at hb

/-- Writing a cell that exists and is no ROM's. -/
theorem Evolves.write {s : State} {k : Nat} (b : Byte) (hk : s.cfg.wf = true → cellExists s.cfg k ∧ ¬ cellInRom s.cfg k) :
    Evolves s (s.setMem (s.mem.write k b)) where
  cfg := rfl
  halted := rfl
  fault := rfl
  store hc h := by
    refine ⟨Memory.wf_write k b h.1, fun e he => ?_⟩
    rcases Memory.mem_write he with he | he
    · exact h.2 e he
    · rw [he]
      exact (hk hc).1
  rom hc j hj := by
    refine Memory.read_write_other _ b ?_
    rintro rfl
    exact (hk hc).2 hj
  calls := ⟨[], by simp⟩

/-! ### The operations -/

theorem Evolves.extCall {α : Type} (answer : Nat → α) (c : ExtCall) (a : Nat) (s : State) :
    Evolves s (extCall answer c a s).state := by
  simp only [Machine.extCall]
  split
  · exact Evolves.refl s
  · exact Evolves.called s c

theorem Evolves.memRead8 (a : Nat) (s : State) : Evolves s (memRead8 a s).state := by
  rcases h : s.resolve a with _ | ⟨d, off, ⟨base, size, w⟩ | _⟩
  · simpa [Machine.memRead8, h] using Evolves.refl s
  · simp only [Machine.memRead8, h, bufGet8]
    split <;> exact Evolves.refl s
  · simp only [Machine.memRead8, h]
    exact Evolves.extCall _ _ _ _

theorem Evolves.memRead16 (a : Nat) (s : State) : Evolves s (memRead16 a s).state := by
  by_cases ha : a = 0xFFFF
  · simpa [Machine.memRead16, ha] using Evolves.refl s
  · rcases h : s.resolve a with _ | ⟨d, off, ⟨base, size, w⟩ | _⟩
    · simpa [Machine.memRead16, ha, h] using Evolves.refl s
    · simp only [Machine.memRead16, ha, h, bufGet16, if_false]
      split <;> exact Evolves.refl s
    · simp only [Machine.memRead16, ha, h, if_false]
      exact Evolves.extCall _ _ _ _

theorem Evolves.memWrite8 (a : Nat) (v : Byte) (s : State) : Evolves s (memWrite8 a v s).state := by
  rcases h : s.resolve a with _ | ⟨d, off, ⟨base, size, w⟩ | _⟩
  · simpa [Machine.memWrite8, h] using Evolves.refl s
  · simp only [Machine.memWrite8, h, bufSet8]
    split
    · next hw =>
      subst hw
      split
      · exact Evolves.refl s
      · refine Evolves.write v fun hc => ?_
        obtain ⟨ha, hle, hj⟩ := State.resolve_writable hc h
        exact hj 0 (by omega) (by omega)
    · exact Evolves.refl s
  · simp only [Machine.memWrite8, h]
    exact Evolves.extCall _ _ _ _

theorem Evolves.memWrite16 (a : Nat) (v : Word) (s : State) : Evolves s (memWrite16 a v s).state := by
  by_cases ha : a = 0xFFFF
  · simpa [Machine.memWrite16, ha] using Evolves.refl s
  · rcases h : s.resolve a with _ | ⟨d, off, ⟨base, size, w⟩ | _⟩
    · simpa [Machine.memWrite16, ha, h] using Evolves.refl s
    · simp only [Machine.memWrite16, ha, h, bufSet16, if_false]
      split
      · next hw =>
        subst hw
        split
        · exact Evolves.refl s
        · have hcell : s.cfg.wf = true → ∀ j, j ≤ 1 →
              cellExists s.cfg (base + off + j) ∧ ¬ cellInRom s.cfg (base + off + j) := by
            intro hc j hj
            obtain ⟨ha', hle, hcells⟩ := State.resolve_writable hc h
            exact hcells j (by omega) (by omega)
          exact (Evolves.write (wordHi v) fun hc => hcell hc 0 (by omega)).trans
            (Evolves.write (s := s.setMem (s.mem.write (base + off) (wordHi v))) (wordLo v) fun hc => hcell hc 1 (by omega))
      · exact Evolves.refl s
    · simp only [Machine.memWrite16, ha, h, if_false]
      exact Evolves.extCall _ _ _ _

theorem Evolves.fetch8 (s : State) : Evolves s (fetch8 s).state :=
  (Evolves.memRead8 _ s).bind fun _ u _ => Evolves.advance u 1

theorem Evolves.fetch16 (s : State) : Evolves s (fetch16 s).state :=
  (Evolves.memRead16 _ s).bind fun _ u _ => Evolves.advance u 2

theorem Evolves.fetchReg (s : State) : Evolves s (fetchReg s).state :=
  (Evolves.fetch8 s).bind fun b u _ => by
    cases h : decodeReg u.cfg b <;> exact Evolves.refl u

theorem Evolves.fetchShape (sh : Shape) (s : State) : Evolves s (fetchShape sh s).state := by
  cases sh with
  | noArgs i => exact Evolves.refl s
  | reg k => exact (Evolves.fetchReg s).bind fun _ u _ => Evolves.refl u
  | lit k => exact (Evolves.fetch16 s).bind fun _ u _ => Evolves.refl u
  | regReg k => exact (Evolves.fetchReg s).bind fun _ u _ => (Evolves.fetchReg u).bind fun _ u _ => Evolves.refl u
  | regLit k => exact (Evolves.fetchReg s).bind fun _ u _ => (Evolves.fetch16 u).bind fun _ u _ => Evolves.refl u
  | litReg k => exact (Evolves.fetch16 s).bind fun _ u _ => (Evolves.fetchReg u).bind fun _ u _ => Evolves.refl u
  | litLit k => exact (Evolves.fetch16 s).bind fun _ u _ => (Evolves.fetch16 u).bind fun _ u _ => Evolves.refl u
  | litRegReg k =>
    exact (Evolves.fetch16 s).bind fun _ u _ => (Evolves.fetchReg u).bind fun _ u _ =>
      (Evolves.fetchReg u).bind fun _ u _ => Evolves.refl u

theorem Evolves.fetchInstr (s : State) : Evolves s (fetchInstr s).state :=
  (Evolves.fetch8 s).bind fun b u _ => by
    cases h : u.cfg.opOf b with
    | some op => exact (Evolves.fetchShape op.shape u).bind fun _ u _ => Evolves.refl u
    | none =>
      dsimp only
      split <;> exact Evolves.refl u

theorem Evolves.push (v : Word) (s : State) : Evolves s (push v s).state :=
  (Evolves.memWrite16 _ v s).bind fun _ u _ => (Evolves.setReg u .sp _).trans (Evolves.setSfs _ _)

theorem Evolves.pop (s : State) : Evolves s (pop s).state :=
  (Evolves.setReg s .sp _).trans ((Evolves.memRead16 _ _).bind fun _ u _ => Evolves.setSfs u _)

theorem Evolves.pushRegs (rs : List Reg) (s : State) : Evolves s (pushRegs rs s).state := by
  induction rs generalizing s with
  | nil => exact Evolves.refl s
  | cons r rs ih => exact (Evolves.push _ s).bind fun _ u _ => ih u

theorem Evolves.popRegs (rs : List Reg) (s : State) : Evolves s (popRegs rs s).state := by
  induction rs generalizing s with
  | nil => exact Evolves.refl s
  | cons r rs ih => exact (Evolves.pop s).bind fun _ u _ => (Evolves.setReg u r _).trans (ih _)

theorem Evolves.popDiscard (n : Nat) (s : State) : Evolves s (popDiscard n s).state := by
  induction n generalizing s with
  | zero => exact Evolves.refl s
  | succ n ih => exact (Evolves.pop s).bind fun _ u _ => ih u

theorem Evolves.pushState (s : State) : Evolves s (pushState s).state :=
  (Evolves.pushRegs _ s).bind fun _ u _ =>
    (Evolves.push _ u).bind fun _ u _ => (Evolves.setReg u .fp _).trans (Evolves.setSfs _ _)

theorem Evolves.popState (s : State) : Evolves s (popState s).state :=
  (Evolves.setReg s .sp _).trans <| (Evolves.pop _).bind fun sz u _ =>
    (Evolves.setSfs u sz).trans <| (Evolves.popRegs _ _).bind fun _ u _ =>
      (Evolves.pop u).bind fun n u _ =>
        (Evolves.popDiscard n.toNat u).bind fun _ u _ => Evolves.setReg u .fp _

theorem Evolves.saveInterruptFrame (s : State) : Evolves s (saveInterruptFrame s).state := by
  simp only [Machine.saveInterruptFrame]
  split
  · exact Evolves.refl s
  · exact (Evolves.push 0 s).bind fun _ u _ => Evolves.pushState u

theorem Evolves.handleInterrupt (v : Word) (s : State) : Evolves s (handleInterrupt v s).state := by
  simp only [Machine.handleInterrupt]
  split
  · exact (Evolves.saveInterruptFrame s).bind fun _ u _ =>
      (Evolves.setInHandler u true).trans <| (Evolves.memRead16 _ _).bind fun _ u _ => Evolves.setReg u .ip _
  · exact Evolves.refl s

theorem Evolves.returnInterrupt (s : State) : Evolves s (returnInterrupt s).state :=
  (Evolves.setInHandler s false).trans (Evolves.popState _)

theorem Evolves.loadWord (a : Nat) (d : Reg) (s : State) : Evolves s (loadWord a d s).state :=
  (Evolves.memRead16 a s).bind fun _ u _ => Evolves.setReg u d _

theorem Evolves.callTo (t : Word) (s : State) : Evolves s (callTo t s).state :=
  (Evolves.pushState s).bind fun _ u _ => Evolves.setReg u .ip t

end Sys2Proof.Machine
end

