-- ==== Sys2Proof/Laws/Boot.lean ====
section
/-!
SUPPORT. What loading images and booting leave (20_memory.md R70, 70_reset_and_hazards.md R281, R283): the registers and the
hidden state as they were, and a store that still meets its invariant.
-/

namespace Sys2Proof.Machine

/-- From `s` to `t` images were loaded: only the store, and what external devices were told, changed. -/
structure Loads (s t : State) : Prop where
  cfg       : t.cfg = s.cfg
  regs      : t.regs = s.regs
  sfs       : t.sfs = s.sfs
  inHandler : t.inHandler = s.inHandler
  halted    : t.halted = s.halted
  fault     : t.fault = s.fault
  store     : s.cfg.wf = true → s.storeInv → t.storeInv

theorem Loads.refl (s : State) : Loads s s := ⟨rfl, rfl, rfl, rfl, rfl, rfl, fun _ h => h⟩

theorem Loads.trans {s t u : State} (h₁ : Loads s t) (h₂ : Loads t u) : Loads s u where
  cfg := h₂.cfg.trans h₁.cfg
  regs := h₂.regs.trans h₁.regs
  sfs := h₂.sfs.trans h₁.sfs
  inHandler := h₂.inHandler.trans h₁.inHandler
  halted := h₂.halted.trans h₁.halted
  fault := h₂.fault.trans h₁.fault
  store hc hs := h₂.store (by rw [h₁.cfg]; exact hc) (h₁.store hc hs)

theorem Loads.of_evolves {s t : State} (h : Evolves s t) (hr : t.regs = s.regs) (hs : t.sfs = s.sfs)
    (hi : t.inHandler = s.inHandler) : Loads s t :=
  ⟨h.cfg, hr, hs, hi, h.halted, h.fault, h.store⟩

theorem Loads.memWrite8 (a : Nat) (v : Byte) (s : State) : Loads s (memWrite8 a v s).state := by
  refine .of_evolves (Evolves.memWrite8 a v s) ?_ ?_ ?_ <;>
    rcases h : s.resolve a with _ | ⟨d, off, ⟨base, size, w⟩ | _⟩ <;>
    simp only [Machine.memWrite8, h, bufSet8, extCall, Res.state_raised] <;> (repeat' split) <;> simp

theorem Loads.mapperLoad (start : Nat) (bs : List Byte) (s : State) : Loads s (mapperLoad start bs s).state := by
  induction bs generalizing start s with
  | nil => exact Loads.refl s
  | cons b bs ih =>
    have h := Loads.memWrite8 start b s
    cases hr : Machine.memWrite8 start b s with
    | ok a u =>
      rw [hr] at h
      simpa only [Machine.mapperLoad, hr, Res.bind_ok] using h.trans (ih (start + 1) u)
    | raised f u =>
      rw [hr] at h
      simpa only [Machine.mapperLoad, hr, Res.bind_raised] using h

theorem Memory.mem_writeAll {m : Memory} {k : Nat} {bs : List Byte} {e : Host.Cell} (h : e ∈ m.writeAll k bs) :
    e ∈ m ∨ ∃ j, j < bs.length ∧ e.1 = k + j := by
  induction bs generalizing m k with
  | nil => exact .inl h
  | cons b bs ih =>
    rcases ih h with h | ⟨j, hj, h⟩
    · rcases Memory.mem_write h with h | h
      · exact .inl h
      · exact .inr ⟨0, by simp, h⟩
    · exact .inr ⟨j + 1, by simpa using hj, by omega⟩

theorem Loads.deviceLoad {dev bank offset : Nat} {bs : List Byte} {s t : State}
    (h : deviceLoad dev bank offset bs s = some t) : Loads s t := by
  unfold Machine.deviceLoad at h
  cases hb : bufferSize s.cfg dev bank with
  | none => simp [hb] at h
  | some size =>
    simp only [hb] at h
    split at h
    · simp at h
    · split at h
      · cases h
        refine ⟨rfl, rfl, rfl, rfl, rfl, rfl, fun _ hi => ⟨Memory.wf_writeAll _ _ hi.1, fun e he => ?_⟩⟩
        rcases Memory.mem_writeAll he with he | ⟨j, hj, he⟩
        · exact hi.2 e he
        · rw [List.length_take] at hj
          exact ⟨dev, bank, offset + j, size, hb, by omega, by omega, by assumption, by rw [he, cellKey_add]⟩
      · cases h
        exact Loads.refl _

theorem Loads.installImages {images : List Image} {s t : State} (h : installImages images s = .ready t) : Loads s t := by
  induction images generalizing s with
  | nil =>
    cases h
    exact Loads.refl _
  | cons image images ih =>
    cases image with
    | mapped start bs =>
      have hl := Loads.mapperLoad start bs s
      simp only [Machine.installImages] at h
      cases hr : Machine.mapperLoad start bs s with
      | ok a u =>
        rw [hr] at hl h
        exact hl.trans (ih h)
      | raised f u => simp [hr] at h
    | device dev bank offset bs =>
      simp only [Machine.installImages] at h
      cases hr : Machine.deviceLoad dev bank offset bs s with
      | some u =>
        rw [hr] at h
        exact (Loads.deviceLoad hr).trans (ih h)
      | none => simp [hr] at h

/-- What a boot that is not refused leaves. -/
theorem boot_eq_ready {c : Config} {images : List Image} {s : State} (h : boot c images = .ready s) :
    c.wf = true ∧ Loads (State.construct c) s := by
  unfold boot at h
  split at h
  · next hc => exact ⟨hc, Loads.installImages h⟩
  · simp at h

theorem storeInv_construct (c : Config) : (State.construct c).storeInv :=
  ⟨rfl, fun e he => by simp [State.construct] at he⟩

end Sys2Proof.Machine
end

