-- ==== Sys2Proof/Laws/Exec.lean ====
section
/-!
SUPPORT. Every instruction is one `run` of one effect: what `exec` answers, an equation per constructor, so that no later proof
unfolds a meaning.
-/

namespace Sys2Proof.Machine

variable (s : State)

theorem exec_movLitReg (l : Word) (r : Reg) :
    exec (.movLitReg l r) s = run .litReg (fun s => .ok () (s.setReg r l)) s := rfl
theorem exec_movRegReg (src d : Reg) :
    exec (.movRegReg src d) s = run .regReg (fun s => .ok () (s.setReg d (s.getReg src))) s := rfl
theorem exec_movRegMem (r : Reg) (a : Word) :
    exec (.movRegMem r a) s = run .regMem (fun s => memWrite16 a.toNat (s.getReg r) s) s := rfl
theorem exec_movMemReg (a : Word) (r : Reg) : exec (.movMemReg a r) s = run .memReg (loadWord a.toNat r) s := rfl
theorem exec_movLitMem (l a : Word) : exec (.movLitMem l a) s = run .litMem (memWrite16 a.toNat l) s := rfl
theorem exec_movRegPtrReg (src d : Reg) :
    exec (.movRegPtrReg src d) s = run .regPtrReg (fun s => loadWord (s.getReg src).toNat d s) s := rfl
theorem exec_movLitOffReg (b : Word) (o d : Reg) :
    exec (.movLitOffReg b o d) s = run .litOffReg (fun s => (offsetAddress b o s).bind fun ea s => loadWord ea d s) s := rfl
theorem exec_addRegReg (a b : Reg) :
    exec (.addRegReg a b) s = run .regReg (fun s => .ok () (s.setReg .acc (s.getReg a + s.getReg b))) s := rfl
theorem exec_addLitReg (l : Word) (r : Reg) :
    exec (.addLitReg l r) s = run .litReg (fun s => .ok () (s.setReg .acc (l + s.getReg r))) s := rfl
theorem exec_subRegReg (a b : Reg) :
    exec (.subRegReg a b) s = run .regReg (fun s => .ok () (s.setReg .acc (s.getReg a - s.getReg b))) s := rfl
theorem exec_subLitReg (l : Word) (r : Reg) :
    exec (.subLitReg l r) s = run .litReg (fun s => .ok () (s.setReg .acc (l - s.getReg r))) s := rfl
theorem exec_mulRegReg (a b : Reg) :
    exec (.mulRegReg a b) s = run .regReg (fun s => .ok () (s.setReg .acc (s.getReg a * s.getReg b))) s := rfl
theorem exec_mulLitReg (l : Word) (r : Reg) :
    exec (.mulLitReg l r) s = run .litReg (fun s => .ok () (s.setReg .acc (l * s.getReg r))) s := rfl
theorem exec_andRegReg (a b : Reg) :
    exec (.andRegReg a b) s = run .regReg (fun s => .ok () (s.setReg .acc (s.getReg a &&& s.getReg b))) s := rfl
theorem exec_andLitReg (l : Word) (r : Reg) :
    exec (.andLitReg l r) s = run .litReg (fun s => .ok () (s.setReg .acc (l &&& s.getReg r))) s := rfl
theorem exec_orRegReg (a b : Reg) :
    exec (.orRegReg a b) s = run .regReg (fun s => .ok () (s.setReg .acc (s.getReg a ||| s.getReg b))) s := rfl
theorem exec_orLitReg (l : Word) (r : Reg) :
    exec (.orLitReg l r) s = run .litReg (fun s => .ok () (s.setReg .acc (l ||| s.getReg r))) s := rfl
theorem exec_xorRegReg (a b : Reg) :
    exec (.xorRegReg a b) s = run .regReg (fun s => .ok () (s.setReg .acc (s.getReg a ^^^ s.getReg b))) s := rfl
theorem exec_xorLitReg (l : Word) (r : Reg) :
    exec (.xorLitReg l r) s = run .litReg (fun s => .ok () (s.setReg .acc (l ^^^ s.getReg r))) s := rfl
theorem exec_subRegLit (r : Reg) (l : Word) :
    exec (.subRegLit r l) s = run .regLit (fun s => .ok () (s.setReg .acc (s.getReg r - l))) s := rfl
theorem exec_incReg (r : Reg) :
    exec (.incReg r) s = run .singleReg (fun s => .ok () (s.setReg r (s.getReg r + 1))) s := rfl
theorem exec_decReg (r : Reg) :
    exec (.decReg r) s = run .singleReg (fun s => .ok () (s.setReg r (s.getReg r - 1))) s := rfl
theorem exec_lsfRegReg (r n : Reg) :
    exec (.lsfRegReg r n) s = run .regReg (fun s => .ok () (s.setReg r (s.getReg r <<< shiftAmount s.cfg (s.getReg n)))) s := rfl
theorem exec_lsfRegLit (r : Reg) (n : Word) :
    exec (.lsfRegLit r n) s = run .regLit (fun s => .ok () (s.setReg r (s.getReg r <<< shiftAmount s.cfg n))) s := rfl
theorem exec_rsfRegReg (r n : Reg) :
    exec (.rsfRegReg r n) s = run .regReg (fun s => .ok () (s.setReg r (s.getReg r >>> shiftAmount s.cfg (s.getReg n)))) s := rfl
theorem exec_rsfRegLit (r : Reg) (n : Word) :
    exec (.rsfRegLit r n) s = run .regLit (fun s => .ok () (s.setReg r (s.getReg r >>> shiftAmount s.cfg n))) s := rfl
theorem exec_not (r : Reg) : exec (.not r) s = run .singleReg (fun s => .ok () (s.setReg .acc (~~~s.getReg r))) s := rfl
theorem exec_jmpNotEq (v t : Word) : exec (.jmpNotEq v t) s = run .litMem (fun s => .ok () (jumpIf .ne v t s)) s := rfl
theorem exec_jneReg (r : Reg) (t : Word) :
    exec (.jneReg r t) s = run .regMem (fun s => .ok () (jumpIf .ne (s.getReg r) t s)) s := rfl
theorem exec_jeqLit (v t : Word) : exec (.jeqLit v t) s = run .litMem (fun s => .ok () (jumpIf .eq v t s)) s := rfl
theorem exec_jeqReg (r : Reg) (t : Word) :
    exec (.jeqReg r t) s = run .regMem (fun s => .ok () (jumpIf .eq (s.getReg r) t s)) s := rfl
theorem exec_jltLit (v t : Word) : exec (.jltLit v t) s = run .litMem (fun s => .ok () (jumpIf .lt v t s)) s := rfl
theorem exec_jltReg (r : Reg) (t : Word) :
    exec (.jltReg r t) s = run .regMem (fun s => .ok () (jumpIf .lt (s.getReg r) t s)) s := rfl
theorem exec_jgtLit (v t : Word) : exec (.jgtLit v t) s = run .litMem (fun s => .ok () (jumpIf .gt v t s)) s := rfl
theorem exec_jgtReg (r : Reg) (t : Word) :
    exec (.jgtReg r t) s = run .regMem (fun s => .ok () (jumpIf .gt (s.getReg r) t s)) s := rfl
theorem exec_jleLit (v t : Word) : exec (.jleLit v t) s = run .litMem (fun s => .ok () (jumpIf .le v t s)) s := rfl
theorem exec_jleReg (r : Reg) (t : Word) :
    exec (.jleReg r t) s = run .regMem (fun s => .ok () (jumpIf .le (s.getReg r) t s)) s := rfl
theorem exec_jgeLit (v t : Word) : exec (.jgeLit v t) s = run .litMem (fun s => .ok () (jumpIf .ge v t s)) s := rfl
theorem exec_jgeReg (r : Reg) (t : Word) :
    exec (.jgeReg r t) s = run .regMem (fun s => .ok () (jumpIf .ge (s.getReg r) t s)) s := rfl
theorem exec_pshLit (l : Word) : exec (.pshLit l) s = run .singleLit (push l) s := rfl
theorem exec_pshReg (r : Reg) : exec (.pshReg r) s = run .singleReg (fun s => push (s.getReg r) s) s := rfl
theorem exec_pop (r : Reg) :
    exec (.pop r) s = run .singleReg (fun s => (pop s).bind fun v s => .ok () (s.setReg r v)) s := rfl
theorem exec_calLit (t : Word) : exec (.calLit t) s = run .singleLit (callTo t) s := rfl
theorem exec_calReg (r : Reg) : exec (.calReg r) s = run .singleReg (fun s => callTo (s.getReg r) s) s := rfl
theorem exec_ret : exec .ret s = run .noArgs popState s := rfl
theorem exec_int (v : Word) : exec (.int v) s = run .singleLit (handleInterrupt v) s := rfl
theorem exec_retInt : exec .retInt s = run .noArgs returnInterrupt s := rfl
theorem exec_hlt : exec .hlt s = run .noArgs (fun s => .ok () s.halt) s := rfl

/-- A run whose effect answers. -/
theorem run_of_ok {f : Format} {e : State → Res Unit} {s t : State} (h : e (s.advance f.length) = .ok () t) :
    run f e s = .next t := by
  rw [run, h, finish]

/-- A run whose effect raises. -/
theorem run_of_raised {f : Format} {e : State → Res Unit} {s t : State} {x : Fault}
    (h : e (s.advance f.length) = .raised x t) : run f e s = .next (t.recordFault x (s.getReg .ip)) := by
  rw [run, h, finish]

end Sys2Proof.Machine
end

