-- ==== Sys2Proof/Laws/Stack.lean ====
section
/-!
SUPPORT. The stack primitives over several words, each said once: where every access completes, what push_state and
pop_state answer, what they leave and what the frame holds (43_stack_call.md R200 to R203).
-/

namespace Sys2Proof.Machine

/-! ### Offsets of words -/

theorem sub_two_sub (a : Word) (n : Nat) : a - 2 - BitVec.ofNat 16 (2 * n) = a - BitVec.ofNat 16 (2 * (n + 1)) := by
  bv_omega

theorem add_two_add (a : Word) (n : Nat) : a + 2 + BitVec.ofNat 16 (2 * n) = a + BitVec.ofNat 16 (2 * (n + 1)) := by
  bv_omega

/-! ### Pushing a list -/

/-- In store `m`, the word at an address (resolved as in `s`) is `v`. -/
def holdsWord (s : State) (m : Memory) (a : Nat) (v : Word) : Prop :=
  ∃ k, s.wordCell a = some k ∧ m.read k = wordHi v ∧ m.read (k + 1) = wordLo v

theorem holdsWord.wordAt {s t : State} {a : Nat} {v : Word} (hc : t.cfg = s.cfg) (hb : t.getReg .mb = s.getReg .mb)
    (h : holdsWord s t.mem a v) : t.wordAt a = v := by
  obtain ⟨k, hk, h₁, h₂⟩ := h
  rw [State.wordAt, State.wordCell_congr hc hb, hk]
  simp only [h₁, h₂, join_hi_lo]

/-- A store that completes and does write lists both its cells. -/
theorem State.storedCells_length (s : State) (a : Nat) : (s.storedCells a).length ≤ 2 := by
  simp only [State.storedCells]
  split
  · simp
  · split <;> simp

theorem State.storedCells_two {s : State} {a : Nat} (h : (s.storedCells a).length = 2) :
    s.romAt a = false ∧ ∃ k, s.wordCell a = some k ∧ s.storedCells a = [k, k + 1] := by
  cases hr : s.romAt a <;> cases hk : s.wordCell a <;> simp_all [State.storedCells]

theorem State.pushedCells_length (s : State) (p : Word) (n : Nat) : (s.pushedCells p n).length ≤ 2 * n := by
  induction n generalizing p with
  | zero => simp [State.pushedCells]
  | succ n ih =>
    have := s.storedCells_length p.toNat
    have := ih (p - 2)
    simp only [State.pushedCells, List.length_append]
    omega

/-- What the pushes of a list of words leave: only their cells change, and where these are all different the words stand
there. -/
structure PushedOnto (s : State) (p : Word) (ws : List Word) (m : Memory) : Prop where
  same  : ∀ k, k ∉ s.pushedCells p ws.length → m.read k = s.mem.read k
  holds : (s.pushedCells p ws.length).length = 2 * ws.length → (s.pushedCells p ws.length).Nodup →
    ∀ j (h : j < ws.length), holdsWord s m (p - BitVec.ofNat 16 (2 * j)).toNat ws[j]

theorem PushedOnto.nil (s : State) (p : Word) : PushedOnto s p [] s.mem := ⟨fun _ _ => rfl, fun _ _ j h => by simp at h⟩

/-- One push, then the rest. -/
theorem PushedOnto.cons {s u : State} {p : Word} {w : Word} {ws : List Word} {m : Memory}
    (hc : u.cfg = s.cfg) (hb : u.getReg .mb = s.getReg .mb)
    (hsame : ∀ k, k ∉ s.storedCells p.toNat → u.mem.read k = s.mem.read k)
    (hword : ∀ k, s.romAt p.toNat = false → s.wordCell p.toNat = some k →
      u.mem.read k = wordHi w ∧ u.mem.read (k + 1) = wordLo w)
    (h : PushedOnto u (p - 2) ws m) : PushedOnto s p (w :: ws) m where
  same k hk := by
    simp only [List.length_cons, State.pushedCells, List.mem_append, not_or] at hk
    rw [h.same k (by rw [State.pushedCells_congr hc hb]; exact hk.2), hsame k hk.1]
  holds hlen hnd j hj := by
    simp only [List.length_cons, State.pushedCells, List.length_append] at hlen hnd
    have h₁ := s.storedCells_length p.toNat
    have h₂ := s.pushedCells_length (p - 2) ws.length
    obtain ⟨hrom, k, hk, hcells⟩ := State.storedCells_two (s := s) (a := p.toNat) (by omega)
    rw [List.nodup_append] at hnd
    cases j with
    | zero =>
      obtain ⟨hhi, hlo⟩ := hword k hrom hk
      have hout : ∀ i, i ∈ s.storedCells p.toNat → m.read i = u.mem.read i := by
        intro i hi
        refine h.same i ?_
        rw [State.pushedCells_congr hc hb]
        exact fun hi' => hnd.2.2 i hi i hi' rfl
      refine ⟨k, by simpa using hk, ?_, ?_⟩
      · rw [hout k (by simp [hcells]), hhi, List.getElem_cons_zero]
      · rw [hout (k + 1) (by simp [hcells]), hlo, List.getElem_cons_zero]
    | succ j =>
      have hcongr := State.pushedCells_congr hc hb (p - 2) ws.length
      obtain ⟨i, hi, hhi, hlo⟩ := h.holds (by rw [hcongr]; omega) (by rw [hcongr]; exact hnd.2.1) j
        (by simpa using hj)
      rw [sub_two_sub, State.wordCell_congr hc hb] at hi
      exact ⟨i, hi, by simpa using hhi, by simpa using hlo⟩

/-- The state after `n` pushes that left the store `m`. -/
def afterPushes (s : State) (n : Nat) (m : Memory) : State :=
  ((s.setMem m).setReg .sp (s.getReg .sp - BitVec.ofNat 16 (2 * n))).setSfs (s.sfs + BitVec.ofNat 16 (2 * n))

theorem afterPushes_succ (s : State) (n : Nat) (m m' : Memory) :
    afterPushes (((s.setMem m).setReg .sp (s.getReg .sp - 2)).setSfs (s.sfs + 2)) n m' = afterPushes s (n + 1) m' := by
  have h₁ : s.getReg .sp - 2 - BitVec.ofNat 16 (2 * n) = s.getReg .sp - BitVec.ofNat 16 (2 * (n + 1)) := sub_two_sub _ n
  have h₂ : s.sfs + 2 + BitVec.ofNat 16 (2 * n) = s.sfs + BitVec.ofNat 16 (2 * (n + 1)) := add_two_add _ n
  rw [afterPushes, afterPushes, ← h₁, ← h₂]
  rfl

/-- Push a list of words, in order: what the frame pushes come to. -/
def pushList : List Word → State → Res Unit
  | [], s => .ok () s
  | w :: ws, s => (push w s).bind fun _ s => pushList ws s

theorem pushList_append (ws : List Word) (w : Word) (s : State) :
    pushList (ws ++ [w]) s = (pushList ws s).bind fun _ u => push w u := by
  induction ws generalizing s with
  | nil => cases h : push w s <;> simp [pushList, h]
  | cons x xs ih => simp only [List.cons_append, pushList, Res.bind_assoc, ih]

/-- What a push that answers leaves of the registers and of `sfs`. -/
theorem push_ok_frame {v : Word} {s u : State} (h : push v s = .ok () u) :
    (∀ r, r ≠ .sp → u.getReg r = s.getReg r) ∧ u.sfs = s.sfs + 2 ∧ u.getReg .sp = s.getReg .sp - 2 ∧
      u.inHandler = s.inHandler := by
  obtain ⟨⟨⟩, t, ht, hu⟩ := Res.bind_eq_ok.mp h
  have hregs : t.regs = s.regs ∧ t.sfs = s.sfs ∧ t.inHandler = s.inHandler := by
    revert ht
    by_cases ha : (s.getReg .sp).toNat = 0xFFFF
    · simp [memWrite16, ha]
    · rcases hr : s.resolve (s.getReg .sp).toNat with _ | ⟨d, off, ⟨base, size, w⟩ | _⟩
      · simp [memWrite16, ha, hr]
      · simp only [memWrite16, ha, hr, bufSet16, if_false]
        split
        · split
          · simp
          · rintro ⟨⟩
            exact ⟨rfl, rfl, rfl⟩
        · rintro ⟨⟩
          exact ⟨rfl, rfl, rfl⟩
      · simp only [memWrite16, ha, hr, extCall, if_false]
        split
        · simp
        · rintro ⟨⟩
          exact ⟨rfl, rfl, rfl⟩
  have hget : ∀ r, t.getReg r = s.getReg r := fun r => by simp only [State.getReg, hregs.1]
  cases hu
  refine ⟨fun r hr => ?_, ?_, ?_, ?_⟩
  · simp [hr, hget]
  · simp [hregs.2.1]
  · simp [hget]
  · simp [hregs.2.2]

theorem pushList_ok_frame {ws : List Word} {s u : State} (h : pushList ws s = .ok () u) :
    (∀ r, r ≠ .sp → u.getReg r = s.getReg r) ∧ u.sfs = s.sfs + BitVec.ofNat 16 (2 * ws.length) ∧
      u.inHandler = s.inHandler := by
  induction ws generalizing s with
  | nil =>
    cases h
    simp
  | cons w ws ih =>
    obtain ⟨⟨⟩, t, ht, hu⟩ := Res.bind_eq_ok.mp h
    obtain ⟨h₁, h₂, -, h₃⟩ := push_ok_frame ht
    obtain ⟨h₄, h₅, h₆⟩ := ih hu
    exact ⟨fun r hr => (h₄ r hr).trans (h₁ r hr), by rw [h₅, h₂, List.length_cons, add_two_add], h₆.trans h₃⟩

/-- Pushing registers other than `sp` is pushing the words they hold. -/
theorem pushRegs_eq_pushList {rs : List Reg} (hrs : .sp ∉ rs) (s : State) :
    pushRegs rs s = pushList (rs.map s.getReg) s := by
  induction rs generalizing s with
  | nil => rfl
  | cons r rs ih =>
    simp only [List.mem_cons, not_or] at hrs
    simp only [pushRegs, List.map_cons, pushList]
    cases h : push (s.getReg r) s with
    | raised f u => rfl
    | ok a u =>
      have hmap : rs.map u.getReg = rs.map s.getReg := List.map_congr_left fun q hq =>
        (push_ok_frame h).1 q fun h' => hrs.2 (h' ▸ hq)
      simp only [Res.bind_ok, ih hrs.2, hmap]

theorem pushList_of_pushable {ws : List Word} {s : State} (h : s.pushable (s.getReg .sp) ws.length = true) :
    ∃ m, pushList ws s = .ok () (afterPushes s ws.length m) ∧ PushedOnto s (s.getReg .sp) ws m := by
  induction ws generalizing s with
  | nil => exact ⟨s.mem, by simp [pushList, afterPushes, State.setMem, State.setReg, State.getReg, State.setSfs,
      RegFile.set_get], PushedOnto.nil s _⟩
  | cons w ws ih =>
    simp only [List.length_cons, State.pushable, Bool.and_eq_true] at h
    obtain ⟨m, hm, hsame, hword⟩ := push_of_storable w h.1
    generalize hu : ((s.setMem m).setReg .sp (s.getReg .sp - 2)).setSfs (s.sfs + 2) = u at hm
    have hc : u.cfg = s.cfg := by rw [← hu]; rfl
    have hb : u.getReg .mb = s.getReg .mb := by rw [← hu]; simp
    have hsp : u.getReg .sp = s.getReg .sp - 2 := by rw [← hu]; simp
    have hmem : u.mem = m := by rw [← hu]; rfl
    obtain ⟨m', hm', hrest⟩ := ih (s := u) (by rw [State.pushable_congr hc hb, hsp]; exact h.2)
    refine ⟨m', ?_, PushedOnto.cons hc hb (by rw [hmem]; exact hsame) (by rw [hmem]; exact hword) (hsp ▸ hrest)⟩
    rw [pushList, hm, Res.bind_ok, hm', ← hu, afterPushes_succ]
    rfl

/-! ### The frame -/

/-- `push_state` is ten pushes, then `fp` and `sfs` are set. -/
theorem pushState_eq (s : State) :
    pushState s = (pushList (frameWords s) s).bind fun _ u => .ok () ((u.setReg .fp (u.getReg .sp)).setSfs 0) := by
  have hsplit : frameWords s = savedRegs.map s.getReg ++ [s.sfs + 20] := rfl
  rw [pushState, pushRegs_eq_pushList (by decide), hsplit, pushList_append, Res.bind_assoc]
  cases h : pushList (savedRegs.map s.getReg) s with
  | raised f u => rfl
  | ok a u =>
    have hsfs : u.sfs + 2 = s.sfs + 20 := by
      rw [(pushList_ok_frame h).2.1]
      simp only [savedRegs, List.map_cons, List.map_nil, List.length_cons, List.length_nil]
      bv_omega
    simp only [Res.bind_ok, hsfs]

/-- `push_state` where every push completes (43_stack_call.md R202). -/
theorem pushState_of_pushable {s : State} (h : s.pushable (s.getReg .sp) 10 = true) :
    ∃ m, pushState s = .ok () (((afterPushes s 10 m).setReg .fp (s.getReg .sp - 20)).setSfs 0) ∧
      PushedOnto s (s.getReg .sp) (frameWords s) m := by
  obtain ⟨m, hm, hrest⟩ := pushList_of_pushable (ws := frameWords s) h
  refine ⟨m, ?_, hrest⟩
  rw [pushState_eq, hm, Res.bind_ok]
  simp [frameWords, afterPushes]

/-- The frame save of an interrupt outside a handler is eleven pushes, then `fp` and `sfs` are set. -/
theorem saveInterruptFrame_eq {s : State} (hh : s.inHandler = false) :
    saveInterruptFrame s = (pushList (interruptWords s) s).bind fun _ u =>
      .ok () ((u.setReg .fp (u.getReg .sp)).setSfs 0) := by
  simp only [saveInterruptFrame, hh, Bool.false_eq_true, if_false, interruptWords, List.cons_append, pushList,
    Res.bind_assoc]
  cases hp : push 0 s with
  | raised f u => rfl
  | ok a u =>
    obtain ⟨hregs, hsfs, -, -⟩ := push_ok_frame hp
    have hwords : frameWords u = (frameWords s).take 9 ++ [s.sfs + 22] := by
      have : u.sfs + 20 = s.sfs + 22 := by rw [hsfs]; bv_omega
      simpa [frameWords, hregs] using this
    simp only [Res.bind_ok, pushState_eq, hwords]

/-- The frame save of an interrupt outside a handler where every push completes (60_exceptions.md R260, R266). -/
theorem saveInterruptFrame_of_pushable {s : State} (hh : s.inHandler = false)
    (h : s.pushable (s.getReg .sp) 11 = true) :
    ∃ m, saveInterruptFrame s = .ok () (((afterPushes s 11 m).setReg .fp (s.getReg .sp - 22)).setSfs 0) ∧
      PushedOnto s (s.getReg .sp) (interruptWords s) m := by
  obtain ⟨m, hm, hrest⟩ := pushList_of_pushable (ws := interruptWords s) h
  refine ⟨m, ?_, hrest⟩
  rw [saveInterruptFrame_eq hh, hm, Res.bind_ok]
  simp [interruptWords, frameWords, afterPushes]

/-! ### Popping -/

/-- The state after `n` pops, the registers otherwise as they were. -/
def afterPops (s : State) (n : Nat) : State :=
  (s.setReg .sp (s.getReg .sp + BitVec.ofNat 16 (2 * n))).setSfs (s.sfs - BitVec.ofNat 16 (2 * n))

theorem popDiscard_of_poppable {n : Nat} {s : State} (h : s.poppable (s.getReg .sp) n = true) :
    popDiscard n s = .ok () (afterPops s n) := by
  induction n generalizing s with
  | zero => simp [popDiscard, afterPops, State.setReg, State.getReg, State.setSfs, RegFile.set_get]
  | succ n ih =>
    simp only [State.poppable, Bool.and_eq_true] at h
    rw [popDiscard, pop_of_wordCell h.1, Res.bind_ok, ih]
    · have h₁ : s.getReg .sp + 2 + BitVec.ofNat 16 (2 * n) = s.getReg .sp + BitVec.ofNat 16 (2 * (n + 1)) :=
        add_two_add _ n
      have h₂ : s.sfs - 2 - BitVec.ofNat 16 (2 * n) = s.sfs - BitVec.ofNat 16 (2 * (n + 1)) := sub_two_sub _ n
      rw [afterPops, afterPops, ← h₁, ← h₂]
      rfl
    · rw [State.poppable_congr (s := s) (t := (s.setReg .sp (s.getReg .sp + 2)).setSfs (s.sfs - 2)) rfl (by simp)]
      simpa using h.2

/-- What popping into a list of registers leaves. -/
structure PoppedInto (rs : List Reg) (s t : State) : Prop where
  regs      : ∀ j (h : j < rs.length), t.getReg rs[j] = s.popped (s.getReg .sp) j
  others    : ∀ r, r ∉ rs → r ≠ .sp → t.getReg r = s.getReg r
  sp        : t.getReg .sp = s.getReg .sp + BitVec.ofNat 16 (2 * rs.length)
  sfs       : t.sfs = s.sfs - BitVec.ofNat 16 (2 * rs.length)
  cfg       : t.cfg = s.cfg
  inHandler : t.inHandler = s.inHandler
  halted    : t.halted = s.halted
  fault     : t.fault = s.fault
  mem       : t.mem = s.mem
  calls     : t.calls = s.calls
  draws     : t.draws = s.draws

theorem State.popped_congr {s t : State} (hc : t.cfg = s.cfg) (hb : t.getReg .mb = s.getReg .mb)
    (hmem : t.mem = s.mem) (p : Word) (j : Nat) : t.popped p j = s.popped p j :=
  State.wordAt_congr hc hb (fun k => by rw [hmem]) _

theorem State.popped_succ (s : State) (p : Word) (j : Nat) : s.popped (p + 2) j = s.popped p (j + 1) := by
  have : p + 2 + BitVec.ofNat 16 (2 * j + 2) = p + BitVec.ofNat 16 (2 * (j + 1) + 2) := by bv_omega
  rw [State.popped, State.popped, this]

theorem State.poppable_add (s : State) (p : Word) (m n : Nat) :
    s.poppable p (m + n) = (s.poppable p m && s.poppable (p + BitVec.ofNat 16 (2 * m)) n) := by
  induction m generalizing p with
  | zero => simp [State.poppable]
  | succ m ih =>
    have : m + 1 + n = (m + n) + 1 := by omega
    rw [this, State.poppable, State.poppable, ih, add_two_add, Bool.and_assoc]

theorem popRegs_of_poppable {rs : List Reg} (hnd : rs.Nodup) (hsp : .sp ∉ rs) (hmb : .mb ∉ rs) {s : State}
    (h : s.poppable (s.getReg .sp) rs.length = true) : ∃ t, popRegs rs s = .ok () t ∧ PoppedInto rs s t := by
  induction rs generalizing s with
  | nil => exact ⟨s, rfl, ⟨by simp, by simp, by simp, by simp, rfl, rfl, rfl, rfl, rfl, rfl, rfl⟩⟩
  | cons r rs ih =>
    simp only [List.nodup_cons, List.mem_cons, not_or] at hnd hsp hmb
    simp only [List.length_cons, State.poppable, Bool.and_eq_true] at h
    generalize hv : s.wordAt (s.getReg .sp + 2).toNat = v
    generalize hu : ((s.setReg .sp (s.getReg .sp + 2)).setSfs (s.sfs - 2)).setReg r v = u
    have hc : u.cfg = s.cfg := by rw [← hu]; rfl
    have hb : u.getReg .mb = s.getReg .mb := by rw [← hu]; simp [hmb.1]
    have hsp' : u.getReg .sp = s.getReg .sp + 2 := by rw [← hu]; simp [hsp.1]
    obtain ⟨t, ht, hpop⟩ := ih hnd.2 hsp.2 hmb.2 (s := u) (by rw [State.poppable_congr hc hb, hsp']; exact h.2)
    refine ⟨t, ?_, ?_⟩
    · rw [popRegs, pop_of_wordCell h.1, Res.bind_ok, hv, hu, ht]
    · refine ⟨fun j hj => ?_, fun q hq hq' => ?_, ?_, ?_, ?_, ?_, ?_, ?_, ?_, ?_, ?_⟩
      · cases j with
        | zero =>
          have : t.getReg r = u.getReg r := hpop.others r hnd.1 fun h => hsp.1 h.symm
          simp only [List.getElem_cons_zero]
          rw [this, ← hu]
          simpa [State.popped] using hv.symm
        | succ j =>
          have := hpop.regs j (by simpa using hj)
          rw [hsp', State.popped_succ, State.popped_congr hc hb (by rw [← hu]; rfl)] at this
          simpa using this
      · simp only [List.mem_cons, not_or] at hq
        rw [hpop.others q hq.2 hq', ← hu]
        simp [hq.1, hq']
      · rw [hpop.sp, hsp', List.length_cons, add_two_add]
      · rw [hpop.sfs, ← hu, List.length_cons]
        exact sub_two_sub s.sfs rs.length
      · rw [hpop.cfg, hc]
      · rw [hpop.inHandler, ← hu]; rfl
      · rw [hpop.halted, ← hu]; rfl
      · rw [hpop.fault, ← hu]; rfl
      · rw [hpop.mem, ← hu]; rfl
      · rw [hpop.calls, ← hu]; rfl
      · rw [hpop.draws, ← hu]; rfl

/-- `pop_state` where every pop completes from a byte buffer (43_stack_call.md R203). -/
theorem popState_of_poppable {s : State}
    (h : s.poppable (s.getReg .fp) (11 + (s.popped (s.getReg .fp) 10).toNat) = true) :
    ∃ t, popState s = .ok () t ∧ FrameRestored s t ∧ t.inHandler = s.inHandler := by
  generalize hp : s.getReg .fp = p at h
  generalize hn : (s.popped p 10).toNat = n at h
  -- the frame size
  generalize hs₁ : ((s.setReg .sp p).setReg .sp (p + 2)).setSfs (s.popped p 0) = s₁
  have hsplit : 11 + n = 1 + (9 + (1 + n)) := by omega
  rw [hsplit, State.poppable_add, State.poppable_add, State.poppable_add] at h
  simp only [Bool.and_eq_true] at h
  obtain ⟨h₁, h₂, h₃, h₄⟩ := h
  have hc₁ : s₁.cfg = s.cfg := by rw [← hs₁]; rfl
  have hb₁ : s₁.getReg .mb = s.getReg .mb := by rw [← hs₁]; simp
  have hm₁ : s₁.mem = s.mem := by rw [← hs₁]; rfl
  have hsp₁ : s₁.getReg .sp = p + 2 := by rw [← hs₁]; simp
  have hpop₁ : pop (s.setReg .sp p) =
      .ok (s.popped p 0) (((s.setReg .sp p).setReg .sp (p + 2)).setSfs (s.sfs - 2)) := by
    have hcell : ((s.setReg .sp p).wordCell ((s.setReg .sp p).getReg .sp + 2).toNat).isSome = true := by
      rw [State.wordCell_congr (s := s) (t := s.setReg .sp p) rfl (by simp)]
      simpa [State.poppable] using h₁
    rw [pop_of_wordCell hcell, State.wordAt_congr (s := s) (t := s.setReg .sp p) rfl (by simp) fun _ => rfl]
    simp [State.popped]
  -- the saved registers
  obtain ⟨s₂, hs₂, hr⟩ := popRegs_of_poppable (rs := savedRegs.reverse) (by decide) (by decide) (by decide) (s := s₁) (by
    rw [State.poppable_congr hc₁ hb₁, hsp₁]
    exact h₂)
  have hlen : savedRegs.reverse.length = 9 := rfl
  have hget : ∀ j (hj : j < 9), s₂.getReg (savedRegs.reverse[j]'(by rw [hlen]; exact hj)) = s.popped p (j + 1) := by
    intro j hj
    rw [hr.regs j (by rw [hlen]; exact hj), hsp₁, State.popped_succ, State.popped_congr hc₁ hb₁ hm₁]
  have hc₂ : s₂.cfg = s.cfg := hr.cfg.trans hc₁
  have hb₂ : s₂.getReg .mb = s.getReg .mb := (hr.others .mb (by decide) (by decide)).trans hb₁
  have hm₂ : s₂.mem = s.mem := hr.mem.trans hm₁
  have hsp₂ : s₂.getReg .sp = p + 20 := by
    rw [hr.sp, hsp₁, hlen]
    bv_omega
  -- the argument count
  have hpop₂ : pop s₂ = .ok (s.popped p 10) ((s₂.setReg .sp (p + 22)).setSfs (s₂.sfs - 2)) := by
    have hadd : (p + 20 : Word) + 2 = p + 22 := by bv_omega
    have hcell : (s₂.wordCell (s₂.getReg .sp + 2).toNat).isSome = true := by
      rw [State.wordCell_congr hc₂ hb₂, hsp₂]
      have : (p + BitVec.ofNat 16 (2 * 1) + BitVec.ofNat 16 (2 * 9) : Word) = p + 20 := by bv_omega
      rw [this] at h₃
      simpa [State.poppable] using h₃
    rw [pop_of_wordCell hcell, State.wordAt_congr hc₂ hb₂ fun k => by rw [hm₂]]
    simp only [hsp₂, hadd]
    rfl
  -- the argument words
  generalize hs₃ : (s₂.setReg .sp (p + 22)).setSfs (s₂.sfs - 2) = s₃ at hpop₂
  have hsp₃ : s₃.getReg .sp = p + 22 := by rw [← hs₃]; simp
  have hpop₃ : popDiscard n s₃ = .ok () (afterPops s₃ n) := by
    refine popDiscard_of_poppable ?_
    rw [State.poppable_congr (s := s) (t := s₃) (by rw [← hs₃]; exact hc₂) (by rw [← hs₃]; simpa using hb₂), hsp₃]
    have : (p + BitVec.ofNat 16 (2 * 1) + BitVec.ofNat 16 (2 * 9) + BitVec.ofNat 16 (2 * 1) : Word) = p + 22 := by
      bv_omega
    rw [this] at h₄
    exact h₄
  refine ⟨(afterPops s₃ n).setReg .fp (p + s.popped p 0), ?_, ?_, ?_⟩
  · have hs₁' : (((s.setReg .sp p).setReg .sp (p + 2)).setSfs (s.sfs - 2)).setSfs (s.popped p 0) = s₁ := by
      rw [← hs₁]; rfl
    simp only [popState, hp, hpop₁, Res.bind_ok, hs₁', hs₂, hpop₂, hn, hpop₃]
  · have hreg : ∀ r, r ≠ .sp → r ≠ .fp → ((afterPops s₃ n).setReg .fp (p + s.popped p 0)).getReg r = s₂.getReg r := by
      intro r h₁ h₂
      rw [← hs₃]
      simp [afterPops, h₁, h₂]
    refine ⟨(hreg .ip (by decide) (by decide)).trans ?_, (hreg .r8 (by decide) (by decide)).trans ?_,
      (hreg .r7 (by decide) (by decide)).trans ?_, (hreg .r6 (by decide) (by decide)).trans ?_,
      (hreg .r5 (by decide) (by decide)).trans ?_, (hreg .r4 (by decide) (by decide)).trans ?_,
      (hreg .r3 (by decide) (by decide)).trans ?_, (hreg .r2 (by decide) (by decide)).trans ?_,
      (hreg .r1 (by decide) (by decide)).trans ?_, ?_, ?_, ?_, ?_⟩
    · rw [hp]; exact hget 0 (by decide)
    · rw [hp]; exact hget 1 (by decide)
    · rw [hp]; exact hget 2 (by decide)
    · rw [hp]; exact hget 3 (by decide)
    · rw [hp]; exact hget 4 (by decide)
    · rw [hp]; exact hget 5 (by decide)
    · rw [hp]; exact hget 6 (by decide)
    · rw [hp]; exact hget 7 (by decide)
    · rw [hp]; exact hget 8 (by decide)
    · simp only [hp, hn, afterPops, State.getReg_setReg, State.getReg_setSfs, if_true, hsp₃]
      rw [if_neg (by decide)]
      bv_omega
    · simp [hp]
    · have h₁ : s₃.sfs = s.popped p 0 - 20 := by
        rw [← hs₃, State.setSfs_sfs, hr.sfs, ← hs₁, State.setSfs_sfs, hlen]
        bv_omega
      simp only [hp, hn, afterPops, State.setReg_sfs, State.setSfs_sfs, h₁]
      bv_omega
    · refine ⟨fun r hr' => ?_, fun k _ => ?_, ?_, ?_, ?_, ?_, ?_⟩
      · simp only [List.mem_cons, List.not_mem_nil, or_false, not_or] at hr'
        rw [hreg r (by tauto) (by tauto), hr.others r ?_ (by tauto), ← hs₁]
        · simp only [State.getReg_setReg, State.getReg_setSfs]
          rw [if_neg (by tauto), if_neg (by tauto)]
        · simp only [savedRegs, List.reverse_cons, List.reverse_nil, List.nil_append, List.cons_append, List.mem_cons,
            List.not_mem_nil, or_false, not_or]
          tauto
      · simp only [afterPops, State.setReg_mem, State.setSfs_mem, ← hs₃, hm₂]
      · simp only [afterPops, State.setReg_cfg, State.setSfs_cfg, ← hs₃, hc₂]
      · simp only [afterPops, State.setReg_halted, State.setSfs_halted, ← hs₃, hr.halted, ← hs₁]
      · simp only [afterPops, State.setReg_fault, State.setSfs_fault, ← hs₃, hr.fault, ← hs₁]
      · simp only [afterPops, State.setReg_calls, State.setSfs_calls, ← hs₃, hr.calls, ← hs₁]
      · simp only [afterPops, State.setReg_draws, State.setSfs_draws, ← hs₃, hr.draws, ← hs₁]
  · simp only [afterPops, State.setReg_inHandler, State.setSfs_inHandler, ← hs₃, hr.inHandler, ← hs₁]

end Sys2Proof.Machine
end

