-- ==== Sys2Proof/Laws/Run.lean ====
section
/-!
SUPPORT. Running an instruction from the state after its fetches: what the moved `ip` leaves as it is, when an access faults and
what it then answers, and the shapes of Safety.lean for an effect that writes one register.
-/

namespace Sys2Proof.Machine

/-! ### `ip` past the instruction -/

/-- A register operand is read after `ip` has moved (30_encoding.md R104). -/
theorem getReg_advance_operand (s : State) (n : Nat) (r : Reg) : (s.advance n).getReg r = operand n s r := by
  simp [operand]

theorem resolve_advance (s : State) (n a : Nat) : (s.advance n).resolve a = s.resolve a :=
  State.resolve_congr rfl (by simp) a

theorem wordCell_advance (s : State) (n a : Nat) : (s.advance n).wordCell a = s.wordCell a :=
  State.wordCell_congr rfl (by simp) a

theorem romAt_advance (s : State) (n a : Nat) : (s.advance n).romAt a = s.romAt a := State.romAt_congr rfl (by simp) a

theorem byteCell_advance (s : State) (n a : Nat) : (s.advance n).byteCell a = s.byteCell a :=
  State.byteCell_congr rfl (by simp) a

theorem storable_advance (s : State) (n a : Nat) : (s.advance n).storable a = s.storable a :=
  State.storable_congr rfl (by simp) a

theorem pushable_advance (s : State) (n : Nat) (p : Word) (m : Nat) : (s.advance n).pushable p m = s.pushable p m :=
  State.pushable_congr (s := s) (t := s.advance n) rfl (by simp) p m

theorem pushedCells_advance (s : State) (n : Nat) (p : Word) (m : Nat) :
    (s.advance n).pushedCells p m = s.pushedCells p m :=
  State.pushedCells_congr (s := s) (t := s.advance n) rfl (by simp) p m

theorem sp_advance (s : State) (n : Nat) : (s.advance n).getReg .sp = s.getReg .sp := by simp

theorem advance_advance (s : State) (a b : Nat) : (s.advance a).advance b = s.advance (a + b) := by
  simp only [State.advance, State.getReg_setReg, if_true]
  simp only [State.setReg, RegFile.set_set, BitVec.ofNat_add, BitVec.add_assoc]

/-! ### Accesses that fault (60_exceptions.md R253) -/

theorem State.wordFault_congr {s t : State} (hc : t.cfg = s.cfg) (hm : t.getReg .mb = s.getReg .mb)
    (hd : t.draws = s.draws) (b : Bool) (a : Nat) :
    t.wordFault b a = s.wordFault b a := by
  simp only [State.wordFault, State.resolve_congr hc hm a, hd]

theorem wordFault_advance (s : State) (n : Nat) (b : Bool) (a : Nat) : (s.advance n).wordFault b a = s.wordFault b a :=
  State.wordFault_congr rfl (by simp) rfl _ _

/-- A word read that faults answers that fault and changes nothing. -/
theorem memRead16_of_wordFault {s : State} {a : Nat} {f : Fault} (h : s.wordFault false a = some f) :
    memRead16 a s = .raised f s := by
  unfold State.wordFault at h
  unfold memRead16
  split at h
  · cases h; rename_i ha; simp [ha]
  · rename_i ha; rw [if_neg ha]
    rcases hr : s.resolve a with _ | ⟨d, off, ⟨base, size, w⟩ | _⟩ <;> simp only [hr] at h ⊢
    · cases h; rfl
    · split at h
      · cases h; rename_i hs; simp at hs; simp [bufGet16, hs]
      · cases h
    · split at h
      · cases h; rename_i he; simp [extCall, he]
      · cases h

/-- A word write that faults answers that fault and changes nothing. -/
theorem memWrite16_of_wordFault {s : State} {a : Nat} {f : Fault} (v : Word) (h : s.wordFault true a = some f) :
    memWrite16 a v s = .raised f s := by
  unfold State.wordFault at h
  unfold memWrite16
  split at h
  · cases h; rename_i ha; simp [ha]
  · rename_i ha; rw [if_neg ha]
    rcases hr : s.resolve a with _ | ⟨d, off, ⟨base, size, w⟩ | _⟩ <;> simp only [hr] at h ⊢
    · cases h; rfl
    · split at h
      · cases h; rename_i hs; simp at hs; simp [bufSet16, hs]
      · cases h
    · split at h
      · cases h; rename_i he; simp [extCall, he]
      · cases h

theorem State.byteFault_congr {s t : State} (hc : t.cfg = s.cfg) (hm : t.getReg .mb = s.getReg .mb)
    (hd : t.draws = s.draws) (a : Nat) : t.byteFault a = s.byteFault a := by
  simp only [State.byteFault, State.resolve_congr hc hm a, hd]

theorem byteFault_advance (s : State) (n a : Nat) : (s.advance n).byteFault a = s.byteFault a :=
  State.byteFault_congr rfl (by simp) rfl _

/-- A byte read that faults answers that fault and changes nothing. -/
theorem memRead8_of_byteFault {s : State} {a : Nat} {f : Fault} (h : s.byteFault a = some f) :
    memRead8 a s = .raised f s := by
  rcases hr : s.resolve a with _ | ⟨d, off, ⟨base, size, w⟩ | _⟩ <;>
    simp_all [State.byteFault, memRead8, bufGet8, extCall]

/-- A push that faults leaves `sp` and `sfs` (43_stack_call.md R200). -/
theorem push_of_wordFault {s : State} {f : Fault} (v : Word) (h : s.wordFault true (s.getReg .sp).toNat = some f) :
    push v s = .raised f s := by
  rw [push, memWrite16_of_wordFault v h]; rfl

/-- A pop that faults has moved `sp` (43_stack_call.md R201). -/
theorem pop_of_wordFault {s : State} {f : Fault} (h : s.wordFault false (s.getReg .sp + 2).toNat = some f) :
    pop s = .raised f (s.setReg .sp (s.getReg .sp + 2)) := by
  have : (popMove s).getReg .sp = s.getReg .sp + 2 := by simp [popMove]
  rw [pop, this, memRead16_of_wordFault (s := popMove s)
    ((State.wordFault_congr (s := s) rfl (by simp) rfl _ _).trans h)]; rfl

/-! ### Effects that write one register -/

theorem writesReg_of_next {i : Instr} {n : Nat} {d : Reg} {v : Word} {s : State}
    (h : exec i s = .next ((s.advance n).setReg d v)) : WritesReg i n d v s := by
  refine ⟨_, h, by simp, fun hd => by simp [Ne.symm hd], ⟨rfl, rfl⟩,
    ⟨fun r hr => ?_, fun _ _ => rfl, rfl, rfl, rfl, rfl, rfl⟩⟩
  simp only [List.mem_cons, List.not_mem_nil, or_false, not_or] at hr
  simp [hr.1, hr.2]

theorem writesReg_of_run {i : Instr} {f : Format} {n : Nat} {d : Reg} {v : State → Word} {w : Word} {s : State}
    (h : exec i s = run f (fun s => .ok () (s.setReg d (v s))) s) (hn : f.length = n) (hv : v (s.advance n) = w) :
     WritesReg i n d w s := by
  subst hn hv
  exact writesReg_of_next (h.trans (run_of_ok rfl))

theorem writesReg_of_load {i : Instr} {f : Format} {n : Nat} {d : Reg} {a : State → Nat} {k : Nat} {s : State}
    (h : exec i s = run f (fun s => loadWord (a s) d s) s) (hn : f.length = n)
     (hk : s.wordCell (a (s.advance n)) = some k) :
   WritesReg i n d (joinBytes (s.mem.read k) (s.mem.read (k + 1))) s := by
  subst hn
  refine writesReg_of_next (h.trans (run_of_ok ?_))
  have : (s.advance f.length).wordCell (a (s.advance f.length)) = some k := by
    rw [wordCell_advance]
    exact hk
  simp [loadWord, memRead16_of_wordCell this]

end Sys2Proof.Machine
end

