-- ==== Sys2Proof/Laws/Interrupt.lean ====
section
/-!
SUPPORT. The frame on the stack read back word by word, and interrupt entry in its three cases: masked, nested, and outside a
handler (43_stack_call.md R202, R203; 60_exceptions.md R260, R264, R266).
-/

namespace Sys2Proof.Machine

/-! ### Words pushed, read back -/

/-- Pushes that each write both their bytes complete. -/
theorem pushable_of_length {s : State} {p : Word} {n : Nat} (h : (s.pushedCells p n).length = 2 * n) :
    s.pushable p n = true := by
  induction n generalizing p with
  | zero => rfl
  | succ n ih =>
    simp only [State.pushedCells, List.length_append] at h
    have h1 := s.storedCells_length p.toNat
    have h2 := s.pushedCells_length (p-2) n
    obtain ⟨hr, k, hk, _⟩ := State.storedCells_two (s := s) (a := p.toNat) (by omega)
    simp only [State.pushable, Bool.and_eq_true]
    refine ⟨?_, ih (by omega)⟩
    simp [State.storable, hr, hk, (State.wordCell_eq_some.mp hk).1]

/-- ... and every slot they write is a word that can be read. -/
theorem wordCell_of_pushedCells {s : State} {p : Word} {n : Nat} (h : (s.pushedCells p n).length = 2 * n) : ∀ j, j < n →
    (s.wordCell (p - BitVec.ofNat 16 (2*j)).toNat).isSome = true := by
  induction n generalizing p with
  | zero => intro j hj; omega
  | succ n ih =>
    simp only [State.pushedCells, List.length_append] at h
    have h1 := s.storedCells_length p.toNat
    have h2 := s.pushedCells_length (p-2) n
    intro j hj
    cases j with
    | zero =>
      obtain ⟨hr, k, hk, _⟩ := State.storedCells_two (s := s) (a := p.toNat) (by omega)
      simp [hk]
    | succ j => rw [← sub_two_sub]; exact ih (by omega) j (by omega)

theorem poppable_of_cells {s : State} {p : Word} {n : Nat} (h : ∀ j, j < n →
    (s.wordCell (p + BitVec.ofNat 16 (2*j+2)).toNat).isSome = true) : s.poppable p n = true := by
  induction n generalizing p with
  | zero => rfl
  | succ n ih =>
    simp only [State.poppable, Bool.and_eq_true]
    refine ⟨by simpa using h 0 (by omega), ih fun j hj => ?_⟩
    have := h (j+1) (by omega)
    have e : p + 2 + BitVec.ofNat 16 (2*j+2) = p + BitVec.ofNat 16 (2*(j+1)+2) := by bv_omega
    rw [e]; exact this

/-- Where the pushes write different cells, the j-th word pushed stands at the j-th slot, in any later state that still has these
cells. -/
theorem wordAt_of_pushedOnto {s0 s t : State} {p : Word} {ws : List Word} {m : Memory} {n : Nat}
    (hp : PushedOnto s0 p ws m)
    (hc : s0.cfg = s.cfg) (hb : s0.getReg .mb = s.getReg .mb)
    (hlen : (s.pushedCells p n).length = 2 * n) (hnd : (s.pushedCells p n).Nodup) (hn : ws.length = n)
    (htc : t.cfg = s.cfg) (htb : t.getReg .mb = s.getReg .mb) (htm : ∀ k ∈ s.pushedCells p n, t.mem.read k = m.read k) :
    ∀ j (hj : j < ws.length), t.wordAt (p - BitVec.ofNat 16 (2*j)).toNat = ws[j] := by
  intro j hj
  subst hn
  have hcg := State.pushedCells_congr hc hb p ws.length
  obtain ⟨k, hk, h1, h2⟩ := hp.holds (by rw [hcg]; exact hlen) (by rw [hcg]; exact hnd) j hj
  have hkc : ∀ (n : Nat) (p : Word) (j : Nat), j < n → ∀ k, s.romAt (p - BitVec.ofNat 16 (2*j)).toNat = false →
    s.wordCell (p - BitVec.ofNat 16 (2*j)).toNat = some k → k ∈ s.pushedCells p n ∧ k + 1 ∈ s.pushedCells p n := by
    intro n
    induction n with
    | zero => intro p j hj; omega
    | succ n ih =>
      intro p j hj k hr hk
      cases j with
      | zero =>
        simp at hr hk
        simp [State.pushedCells, State.storedCells, hr, hk]
      | succ j =>
        rw [← sub_two_sub] at hr hk
        have := ih (p-2) j (by omega) k hr hk
        exact ⟨List.mem_append.mpr (.inr this.1), List.mem_append.mpr (.inr this.2)⟩
  have hrom : ∀ (n : Nat) (p : Word) (j : Nat), j < n → (s.pushedCells p n).length = 2 * n → s.romAt
    (p - BitVec.ofNat 16 (2*j)).toNat = false := by
    intro n
    induction n with
    | zero => intro p j hj; omega
    | succ n ih =>
      intro p j hj h
      simp only [State.pushedCells, List.length_append] at h
      have h1 := s.storedCells_length p.toNat
      have h2 := s.pushedCells_length (p-2) n
      cases j with
      | zero => simpa using (State.storedCells_two (s := s) (a := p.toNat) (by omega)).1
      | succ j => rw [← sub_two_sub]; exact ih (p-2) j (by omega) (by omega)
  rw [State.wordCell_congr hc hb] at hk
  have hin := hkc ws.length p j hj k (hrom _ _ _ hj hlen) hk
  rw [State.wordAt, State.wordCell_congr htc htb, hk]
  simp only [htm k hin.1, htm (k+1) hin.2, h1, h2, join_hi_lo]

/-- The same, counted upward from the new `sp`, as pops read it. -/
theorem popped_of_pushedOnto {s0 s t : State} {p : Word} {ws : List Word} {m : Memory} {n : Nat}
    (hp : PushedOnto s0 p ws m)
    (hc : s0.cfg = s.cfg) (hb : s0.getReg .mb = s.getReg .mb)
    (hlen : (s.pushedCells p n).length = 2 * n) (hnd : (s.pushedCells p n).Nodup) (hn : ws.length = n)
    (htc : t.cfg = s.cfg) (htb : t.getReg .mb = s.getReg .mb) (htm : ∀ k ∈ s.pushedCells p n, t.mem.read k = m.read k) :
    ∀ j, (hj : j < n) → t.popped (p - BitVec.ofNat 16 (2*n)) j = ws[n - 1 - j]'(by omega) := by
  intro j hj
  have := wordAt_of_pushedOnto hp hc hb hlen hnd hn htc htb htm (n-1-j) (by omega)
  rw [← this, State.popped]
  congr 2
  have : ∃ q, n = j + 1 + q := ⟨n - j - 1, by omega⟩
  obtain ⟨q, rfl⟩ := this
  have : j + 1 + q - 1 - j = q := by omega
  rw [this]
  rw [show 2 * (j+1+q) = (2*j+2) + 2*q by omega, BitVec.ofNat_add]
  bv_omega

/-! ### Interrupt entry -/

/-- The state after the frame save, with `in_handler` set, before the vector is read. -/
def interruptState (s : State) (m : Memory) : State :=
    (((afterPushes s 11 m).setReg .fp (s.getReg .sp - 22)).setSfs 0).setInHandler true

theorem im_of_interruptEnabled {v : Word} {s : State} (he : interruptEnabled v s = true) : (s.getReg .im).getLsbD
    (interruptLine v) = true := he

theorem wordCell_interruptState (s : State) (m : Memory) (a : Nat) : (interruptState s m).wordCell a = s.wordCell a :=
    State.wordCell_congr rfl (by simp [interruptState, afterPushes]) a

/-- Outside a handler: the frame, then the vector read. -/
theorem handleInterrupt_of_pushable {s : State} {v : Word} (he : interruptEnabled v s = true) (hh : s.inHandler = false)
    (hp : s.pushable (s.getReg .sp) 11 = true) :
    ∃ m, handleInterrupt v s = ((memRead16 (vectorAddress s.cfg (interruptLine v))
     (interruptState s m)).bind fun h u => .ok () (u.setReg .ip h)) ∧
      PushedOnto s (s.getReg .sp) (interruptWords s) m := by
  obtain ⟨m, hm, h⟩ := saveInterruptFrame_of_pushable hh hp
  refine ⟨m, ?_, h⟩
  rw [handleInterrupt, if_pos (im_of_interruptEnabled he), hm]
  rfl

theorem handleInterrupt_of_vectorReadable {s : State} {v : Word} (he : interruptEnabled v s = true)
    (hh : s.inHandler = false) (hp : s.pushable (s.getReg .sp) 11 = true)
    (hv : vectorReadable v s = true) : ∃ m, handleInterrupt v s = .ok ()
     ((interruptState s m).setReg .ip ((interruptState s m).wordAt (vectorAddress s.cfg (interruptLine v)))) ∧
      PushedOnto s (s.getReg .sp) (interruptWords s) m := by
  obtain ⟨m, hm, h⟩ := handleInterrupt_of_pushable he hh hp
  refine ⟨m, ?_, h⟩
  rw [hm, memRead16_of_isSome (by rw [wordCell_interruptState]; exact hv)]; rfl

/-- Inside a handler: the vector read alone. -/
theorem handleInterrupt_nested {s : State} {v : Word} (he : interruptEnabled v s = true) (hh : s.inHandler = true) :
    handleInterrupt v s =
    ((memRead16 (vectorAddress s.cfg (interruptLine v)) s).bind fun h u => .ok () (u.setReg .ip h)) := by
  rw [handleInterrupt, if_pos (im_of_interruptEnabled he), saveInterruptFrame, if_pos hh, Res.bind_ok]
  have : s.setInHandler true = s := by
    cases s; simp only [State.setInHandler] at *; simp_all
  rw [this]

/-- Masked: nothing. -/
theorem handleInterrupt_masked {s : State} {v : Word} (h : (s.getReg .im).getLsbD (v.toNat % 16) = false) :
    handleInterrupt v s = .ok () s := by
  rw [handleInterrupt, if_neg (by rw [interruptLine, h]; simp)]

end Sys2Proof.Machine
end

