-- ==== Sys2Proof/Laws/Broken.lean ====
section
/-!
SUPPORT. Sequences of accesses that a fault breaks off (60_exceptions.md R252): the pushes of a frame, the pops of a
`pop_state`, and the operand fetches of an instruction (30_encoding.md R106). What was done before the fault stands.
-/

namespace Sys2Proof.Machine

/-! ### Pushes -/

/-- A list of pushes of which number `n` faults: the `n` before it stand. -/
theorem pushList_of_wordFault {ws : List Word} {s : State} {n : Nat} {f : Fault} (hn : n < ws.length)
    (hp : s.pushable (s.getReg .sp) n = true)
    (hf : s.wordFault true (s.getReg .sp - BitVec.ofNat 16 (2 * n)).toNat = some f) :
    ∃ m, pushList ws s = .raised f (afterPushes s n m) ∧ PushedOnto s (s.getReg .sp) (ws.take n) m := by
  have hlen : (ws.take n).length = n := by simp; omega
  obtain ⟨m, hm, hpo⟩ := pushList_of_pushable (ws := ws.take n) (s := s) (by rw [hlen]; exact hp)
  rw [hlen] at hm
  refine ⟨m, ?_, hpo⟩
  have hsplit : ws = ws.take n ++ ws[n] :: ws.drop (n + 1) := by simp
  have happ : ∀ (xs ys : List Word) (t : State),
      pushList (xs ++ ys) t = (pushList xs t).bind fun _ u => pushList ys u := by
    intro xs
    induction xs with
    | nil => intro ys t; rfl
    | cons x xs ih =>
      intro ys t
      simp only [List.cons_append, pushList, Res.bind_assoc, ih]
  have hsp : (afterPushes s n m).getReg .sp = s.getReg .sp - BitVec.ofNat 16 (2 * n) := by simp [afterPushes]
  have hf' : (afterPushes s n m).wordFault true ((afterPushes s n m).getReg .sp).toNat = some f := by
    rw [hsp, State.wordFault_congr (s := s) (t := afterPushes s n m) rfl (by simp [afterPushes]) rfl]
    exact hf
  rw [hsplit, happ, hm, Res.bind_ok, pushList, push_of_wordFault _ hf']
  rfl

/-- What `PushesDone` says of the state after some pushes. -/
theorem pushesDone_of_pushedOnto {s : State} {ws : List Word} {m : Memory} (hp : PushedOnto s (s.getReg .sp) ws m) :
    PushesDone ws s (afterPushes s ws.length m) := by
  refine ⟨by simp [afterPushes], rfl, rfl, ⟨fun r hr => ?_, hp.same, rfl, rfl, rfl, rfl, rfl⟩, fun hl hd j hj => ?_⟩
  · simp only [List.mem_singleton] at hr
    simp [afterPushes, hr]
  · exact (hp.holds hl hd j hj).wordAt (t := afterPushes s ws.length m) rfl (by simp [afterPushes])

theorem pushList_broken {ws : List Word} {s : State} {n : Nat} {f : Fault} (hn : n < ws.length)
    (hp : s.pushable (s.getReg .sp) n = true)
    (hf : s.wordFault true (s.getReg .sp - BitVec.ofNat 16 (2 * n)).toNat = some f) :
    ∃ u, pushList ws s = .raised f u ∧ PushesDone (ws.take n) s u := by
  obtain ⟨m, hm, hpo⟩ := pushList_of_wordFault hn hp hf
  have hlen : (ws.take n).length = n := by simp; omega
  have hd := pushesDone_of_pushedOnto hpo
  rw [hlen] at hd
  exact ⟨_, hm, hd⟩

/-- `push_state` broken off at push number `n`. -/
theorem pushState_broken {s : State} {n : Nat} {f : Fault} (hn : n < 10) (hp : s.pushable (s.getReg .sp) n = true)
    (hf : s.wordFault true (s.getReg .sp - BitVec.ofNat 16 (2 * n)).toNat = some f) :
    ∃ u, pushState s = .raised f u ∧ PushesDone ((frameWords s).take n) s u := by
  obtain ⟨u, hu, hd⟩ := pushList_broken (ws := frameWords s) hn hp hf
  exact ⟨u, by rw [pushState_eq, hu]; rfl, hd⟩

/-- The frame save of an interrupt broken off at push number `n`. -/
theorem saveInterruptFrame_broken {s : State} {n : Nat} {f : Fault} (hh : s.inHandler = false) (hn : n < 11)
    (hp : s.pushable (s.getReg .sp) n = true)
    (hf : s.wordFault true (s.getReg .sp - BitVec.ofNat 16 (2 * n)).toNat = some f) :
    ∃ u, saveInterruptFrame s = .raised f u ∧ PushesDone ((interruptWords s).take n) s u := by
  obtain ⟨u, hu, hd⟩ := pushList_broken (ws := interruptWords s) hn hp hf
  exact ⟨u, by rw [saveInterruptFrame_eq hh, hu]; rfl, hd⟩

/-! ### Pops -/

theorem popRegs_append (rs qs : List Reg) (s : State) :
    popRegs (rs ++ qs) s = (popRegs rs s).bind fun _ u => popRegs qs u := by
  induction rs generalizing s with
  | nil => rfl
  | cons r rs ih => simp only [List.cons_append, popRegs, Res.bind_assoc, ih]

/-- Popping into registers, broken off at pop number `n`: the `n` before it stand, and `sp` has moved for it. -/
theorem popRegs_of_wordFault {rs : List Reg} (hnd : rs.Nodup) (hsp : .sp ∉ rs) (hmb : .mb ∉ rs) {s : State} {n : Nat}
    {f : Fault} (hn : n < rs.length) (hp : s.poppable (s.getReg .sp) n = true)
    (hf : s.wordFault false (s.getReg .sp + BitVec.ofNat 16 (2 * n + 2)).toNat = some f) :
    ∃ t, popRegs rs s = .raised f (t.setReg .sp (s.getReg .sp + BitVec.ofNat 16 (2 * n + 2))) ∧
      PoppedInto (rs.take n) s t := by
  have hlen : (rs.take n).length = n := by simp; omega
  have hsub : ∀ r, r ∈ rs.take n → r ∈ rs := fun r hr => List.mem_of_mem_take hr
  obtain ⟨t, ht, hpi⟩ := popRegs_of_poppable (rs := rs.take n) (hnd.sublist (List.take_sublist n rs))
    (fun h => hsp (hsub _ h)) (fun h => hmb (hsub _ h)) (s := s) (by rw [hlen]; exact hp)
  refine ⟨t, ?_, hpi⟩
  have hsplit : rs = rs.take n ++ rs[n] :: rs.drop (n + 1) := by simp
  have hnext : t.getReg .sp + 2 = s.getReg .sp + BitVec.ofNat 16 (2 * n + 2) := by
    rw [hpi.sp, hlen, BitVec.ofNat_add, BitVec.add_assoc]
    rfl
  have hf' : t.wordFault false (t.getReg .sp + 2).toNat = some f := by
    rw [hnext, State.wordFault_congr hpi.cfg (hpi.others .mb (fun h => hmb (hsub _ h)) (by decide)) hpi.draws]
    exact hf
  rw [hsplit, popRegs_append, ht, Res.bind_ok, popRegs, pop_of_wordFault hf', hnext]
  rfl

/-- Discarding words, broken off at pop number `n`. -/
theorem popDiscard_of_wordFault {k n : Nat} {s : State} {f : Fault} (hn : n < k)
    (hp : s.poppable (s.getReg .sp) n = true)
    (hf : s.wordFault false (s.getReg .sp + BitVec.ofNat 16 (2 * n + 2)).toNat = some f) :
    popDiscard k s = .raised f ((afterPops s n).setReg .sp (s.getReg .sp + BitVec.ofNat 16 (2 * n + 2))) := by
  induction n generalizing s k with
  | zero =>
    obtain ⟨k, rfl⟩ : ∃ j, k = j + 1 := ⟨k - 1, by omega⟩
    rw [popDiscard, pop_of_wordFault (by simpa using hf)]
    simp [afterPops, State.setReg, State.setSfs, State.getReg, RegFile.set_set]
  | succ n ih =>
    obtain ⟨k, rfl⟩ : ∃ j, k = j + 1 := ⟨k - 1, by omega⟩
    simp only [State.poppable, Bool.and_eq_true] at hp
    have hadd : s.getReg .sp + 2 + BitVec.ofNat 16 (2 * n + 2) = s.getReg .sp + BitVec.ofNat 16 (2 * (n + 1) + 2) := by
      bv_omega
    generalize hu : (s.setReg .sp (s.getReg .sp + 2)).setSfs (s.sfs - 2) = u
    have hc : u.cfg = s.cfg := by rw [← hu]; rfl
    have hb : u.getReg .mb = s.getReg .mb := by rw [← hu]; simp
    have hd : u.draws = s.draws := by rw [← hu]; rfl
    have hsp : u.getReg .sp = s.getReg .sp + 2 := by rw [← hu]; simp
    rw [popDiscard, pop_of_wordCell hp.1, Res.bind_ok, hu, ih (s := u) (by omega)
      (by rw [State.poppable_congr hc hb, hsp]; exact hp.2)
      (by rw [State.wordFault_congr hc hb hd, hsp, hadd]; exact hf), hsp, hadd]
    have hsfs : u.sfs - BitVec.ofNat 16 (2 * n) = s.sfs - BitVec.ofNat 16 (2 * (n + 1)) := by
      rw [← hu]
      exact sub_two_sub _ n
    simp only [afterPops, hsfs]
    rw [← hu]
    simp [State.setReg, State.setSfs, RegFile.set_set]

/-- The state after `pop_state` has popped the frame size. -/
def afterSize (s : State) : State :=
  ((s.setReg .sp (s.getReg .fp)).setReg .sp (s.getReg .fp + 2)).setSfs (s.popped (s.getReg .fp) 0)

/-- `pop_state` after its first pop. -/
theorem popState_eq {s : State} (h : s.poppable (s.getReg .fp) 1 = true) :
    popState s = (popRegs savedRegs.reverse (afterSize s)).bind fun _ u => (pop u).bind fun n u =>
      (popDiscard n.toNat u).bind fun _ u => .ok () (u.setReg .fp (s.getReg .fp + s.popped (s.getReg .fp) 0)) := by
  generalize hp : s.getReg .fp = p at h
  have hcell : ((s.setReg .sp p).wordCell ((s.setReg .sp p).getReg .sp + 2).toNat).isSome = true := by
    rw [State.wordCell_congr (s := s) (t := s.setReg .sp p) rfl (by simp)]
    simpa [State.poppable] using h
  have hpop : pop (s.setReg .sp p) = .ok (s.popped p 0) (((s.setReg .sp p).setReg .sp (p + 2)).setSfs (s.sfs - 2)) := by
    rw [pop_of_wordCell hcell, State.wordAt_congr (s := s) (t := s.setReg .sp p) rfl (by simp) fun _ => rfl]
    simp [State.popped]
  simp only [popState, hp, hpop, Res.bind_ok, afterSize]
  rfl

/-- What popping some of the saved registers, and then words that go to no register, leaves. -/
theorem popsDone_of_poppedInto {n : Nat} {s t : State} {y : Word} (hn : n ≠ 0)
    (hpi : PoppedInto (restoredRegs.take (n - 1)) (afterSize s) t)
    (hy : y = s.popped (s.getReg .fp) 0 - BitVec.ofNat 16 (2 * (n - 1))) :
    PopsDone n s ((t.setReg .sp (s.getReg .fp + BitVec.ofNat 16 (2 * n + 2))).setSfs y) ∧
      ((t.setReg .sp (s.getReg .fp + BitVec.ofNat 16 (2 * n + 2))).setSfs y).inHandler = s.inHandler := by
  refine ⟨⟨by simp, by simp [hn, hy], fun j hj hlt => ?_, ⟨fun r hr => ?_, fun k _ => ?_, ?_, ?_, ?_, ?_, ?_⟩⟩, ?_⟩
  · have hjl : j < (restoredRegs.take (n - 1)).length := by rw [List.length_take]; omega
    have hne : restoredRegs[j] ≠ .sp := by
      intro e
      exact absurd (e ▸ List.getElem_mem hj) (by decide : Reg.sp ∉ restoredRegs)
    have h := hpi.regs j hjl
    simp only [List.getElem_take] at h
    have hsp : (afterSize s).getReg .sp = s.getReg .fp + 2 := by simp [afterSize]
    rw [hsp, State.popped_succ, State.popped_congr (s := s) (t := afterSize s) rfl (by simp [afterSize]) rfl] at h
    simpa [hne] using h
  · simp only [List.mem_cons, not_or] at hr
    have h := hpi.others r hr.2 hr.1
    simp only [State.getReg_setSfs, State.getReg_setReg, hr.1, if_false, h]
    simp [afterSize, hr.1]
  · rw [State.setSfs_mem, State.setReg_mem, hpi.mem]
    rfl
  · exact hpi.cfg
  · exact hpi.halted
  · exact hpi.fault
  · exact hpi.calls
  · exact hpi.draws
  · exact hpi.inHandler

/-- `pop_state` broken off at pop number `n`: the pops before it stand, and `sp` has moved for it. -/
theorem popState_broken {s : State} {n : Nat} {f : Fault} (hn : n < 11 + (s.popped (s.getReg .fp) 10).toNat)
    (hp : s.poppable (s.getReg .fp) n = true)
    (hf : s.wordFault false (s.getReg .fp + BitVec.ofNat 16 (2 * n + 2)).toNat = some f) :
    ∃ u, popState s = .raised f u ∧ PopsDone n s u ∧ u.inHandler = s.inHandler := by
  generalize hpe : s.getReg .fp = p at *
  obtain rfl | ⟨m, rfl⟩ : n = 0 ∨ ∃ m, n = m + 1 := by cases n <;> simp
  · -- the frame size
    have hf' : (s.setReg .sp p).wordFault false ((s.setReg .sp p).getReg .sp + 2).toNat = some f := by
      rw [State.wordFault_congr (s := s) (t := s.setReg .sp p) rfl (by simp) rfl]
      simpa using hf
    refine ⟨(s.setReg .sp p).setReg .sp (p + 2), ?_, ⟨by simp [hpe], rfl, fun j _ h => by omega, ⟨fun r hr => ?_,
      fun _ _ => rfl, rfl, rfl, rfl, rfl, rfl⟩⟩, rfl⟩
    · simp only [popState, hpe, pop_of_wordFault hf']
      simp
    · simp only [List.mem_cons, not_or] at hr
      simp [hr.1]
  rw [show m + 1 = 1 + m by omega, State.poppable_add, Bool.and_eq_true] at hp
  obtain ⟨hp1, hpm⟩ := hp
  have hpm : s.poppable (p + 2) m = true := hpm
  have hc : (afterSize s).cfg = s.cfg := rfl
  have hb : (afterSize s).getReg .mb = s.getReg .mb := by simp [afterSize]
  have hd : (afterSize s).draws = s.draws := rfl
  have hsp : (afterSize s).getReg .sp = p + 2 := by simp [afterSize, hpe]
  have hfs : (afterSize s).sfs = s.popped p 0 := by simp [afterSize, hpe]
  have hnext : p + 2 + BitVec.ofNat 16 (2 * m + 2) = p + BitVec.ofNat 16 (2 * (m + 1) + 2) := by bv_omega
  have heq := popState_eq (s := s) (by rw [hpe]; exact hp1)
  have hlen : savedRegs.reverse.length = 9 := rfl
  have hdone : ∀ {t : State} {y : Word}, PoppedInto (restoredRegs.take m) (afterSize s) t →
      y = s.popped p 0 - BitVec.ofNat 16 (2 * m) →
      PopsDone (m + 1) s ((t.setReg .sp (p + BitVec.ofNat 16 (2 * (m + 1) + 2))).setSfs y) ∧
        ((t.setReg .sp (p + BitVec.ofNat 16 (2 * (m + 1) + 2))).setSfs y).inHandler = s.inHandler := by
    intro t y hpi hy
    have h := popsDone_of_poppedInto (n := m + 1) (y := y) (by omega) hpi (by rw [hpe]; exact hy)
    rw [hpe] at h
    exact h
  by_cases hm : m < 9
  · -- a saved register
    obtain ⟨t, ht, hpi⟩ := popRegs_of_wordFault (rs := savedRegs.reverse) (by decide) (by decide) (by decide)
      (s := afterSize s) (n := m) (f := f) (by rw [hlen]; exact hm) (by rw [State.poppable_congr hc hb, hsp]; exact hpm)
      (by rw [State.wordFault_congr hc hb hd, hsp, hnext]; exact hf)
    rw [hsp, hnext] at ht
    refine ⟨_, by rw [heq, ht]; rfl, hdone (y := t.sfs) hpi ?_⟩
    have hl : (savedRegs.reverse.take m).length = m := by rw [List.length_take, hlen]; omega
    rw [hpi.sfs, hfs, hl]
  · obtain ⟨k, rfl⟩ : ∃ k, m = 9 + k := ⟨m - 9, by omega⟩
    rw [State.poppable_add, Bool.and_eq_true] at hpm
    obtain ⟨t, ht, hpi⟩ := popRegs_of_poppable (rs := savedRegs.reverse) (by decide) (by decide) (by decide)
      (s := afterSize s) (by rw [State.poppable_congr hc hb, hsp, hlen]; exact hpm.1)
    have htake : restoredRegs.take (9 + k) = savedRegs.reverse := List.take_of_length_le (by simp [restoredRegs])
    rw [htake] at hdone
    have htc : t.cfg = s.cfg := hpi.cfg
    have htb : t.getReg .mb = s.getReg .mb := (hpi.others .mb (by decide) (by decide)).trans hb
    have htd : t.draws = s.draws := hpi.draws
    have htsp : t.getReg .sp = p + 20 := by
      rw [hpi.sp, hsp, hlen]
      bv_omega
    have htfs : t.sfs = s.popped p 0 - 18 := by rw [hpi.sfs, hfs, hlen]; rfl
    have hadd : (p + 20 : Word) + 2 = p + 22 := by bv_omega
    rw [ht, Res.bind_ok] at heq
    obtain rfl | ⟨j, rfl⟩ : k = 0 ∨ ∃ j, k = j + 1 := by cases k <;> simp
    · -- the count word
      have hf' : t.wordFault false (t.getReg .sp + 2).toNat = some f := by
        rw [State.wordFault_congr htc htb htd, htsp, hadd]
        exact hf
      refine ⟨t.setReg .sp (p + 22), by rw [heq, pop_of_wordFault hf', htsp, hadd]; rfl, ?_⟩
      exact hdone (y := t.sfs) hpi htfs
    · -- a discarded word
      have h20 : p + 2 + BitVec.ofNat 16 (2 * 9) = p + 20 := by bv_omega
      rw [show j + 1 = 1 + j by omega, h20, State.poppable_add, Bool.and_eq_true] at hpm
      obtain ⟨-, hp10, hpj⟩ := hpm
      have hpj : s.poppable (p + 20 + 2) j = true := hpj
      have hcell : (t.wordCell (t.getReg .sp + 2).toNat).isSome = true := by
        rw [State.wordCell_congr htc htb, htsp]
        simpa [State.poppable] using hp10
      have hval : t.wordAt (t.getReg .sp + 2).toNat = s.popped p 10 := by
        rw [State.wordAt_congr htc htb (fun q => by rw [hpi.mem]; rfl), htsp, hadd]
        rfl
      rw [pop_of_wordCell hcell, hval, htsp, Res.bind_ok] at heq
      generalize hu : (t.setReg .sp (p + 20 + 2)).setSfs (t.sfs - 2) = u at heq
      have huc : u.cfg = s.cfg := by rw [← hu]; exact htc
      have hub : u.getReg .mb = s.getReg .mb := by rw [← hu]; simpa using htb
      have hud : u.draws = s.draws := by rw [← hu]; exact htd
      have husp : u.getReg .sp = p + 20 + 2 := by rw [← hu]; simp
      have hlast : p + 20 + 2 + BitVec.ofNat 16 (2 * j + 2) = p + BitVec.ofNat 16 (2 * (9 + (j + 1) + 1) + 2) := by
        bv_omega
      rw [popDiscard_of_wordFault (n := j) (f := f) (by omega) (by rw [State.poppable_congr huc hub, husp]; exact hpj)
        (by rw [State.wordFault_congr huc hub hud, husp, hlast]; exact hf), husp, hlast] at heq
      refine ⟨_, heq, ?_⟩
      have hfin : (afterPops u j).setReg .sp (p + BitVec.ofNat 16 (2 * (9 + (j + 1) + 1) + 2)) =
          (t.setReg .sp (p + BitVec.ofNat 16 (2 * (9 + (j + 1) + 1) + 2))).setSfs
            (t.sfs - 2 - BitVec.ofNat 16 (2 * j)) := by
        rw [← hu]
        simp [afterPops, State.setReg, State.setSfs, RegFile.set_set]
      rw [hfin]
      exact hdone hpi (by rw [htfs]; bv_omega)

/-! ### Operand fetches -/

/-- The kinds of the operands a shape fetches. -/
def shapeKinds : Shape → List OperandKind
  | .noArgs _ => []
  | .reg _ => [.reg]
  | .lit _ => [.lit]
  | .regReg _ => [.reg, .reg]
  | .regLit _ => [.reg, .lit]
  | .litReg _ => [.lit, .reg]
  | .litLit _ => [.lit, .lit]
  | .litRegReg _ => [.lit, .reg, .reg]

/-- What an instruction fetches is what its format says (30_encoding.md R95, R100). -/
theorem shapeKinds_eq_operands (op : Op) : shapeKinds op.shape = op.format.operands := by cases op <;> rfl

/-- Fetch one operand and forget its value. -/
def fetchOperand (k : OperandKind) (s : State) : Res Unit :=
  match k with
  | .reg => (fetchReg s).bind fun _ u => .ok () u
  | .lit => (fetch16 s).bind fun _ u => .ok () u

/-- Fetch operands in a row and forget their values. -/
def fetchOperands : List OperandKind → State → Res Unit
  | [], s => .ok () s
  | k :: ks, s => (fetchOperand k s).bind fun _ u => fetchOperands ks u

theorem fetchOperands_append (ks js : List OperandKind) (s : State) :
    fetchOperands (ks ++ js) s = (fetchOperands ks s).bind fun _ u => fetchOperands js u := by
  induction ks generalizing s with
  | nil => rfl
  | cons k ks ih => simp only [List.cons_append, fetchOperands, Res.bind_assoc, ih]

/-- Fetching the operands of a shape raises what fetching operands of its kinds raises. -/
theorem fetchShape_eq_operands (sh : Shape) (s : State) :
    ((fetchShape sh s).bind fun _ u => .ok () u) = fetchOperands (shapeKinds sh) s := by
  cases sh <;> simp [fetchShape, shapeKinds, fetchOperands, fetchOperand, Res.bind_assoc]

theorem fetchShape_raised {sh : Shape} {s u : State} {f : Fault} (h : fetchOperands (shapeKinds sh) s = .raised f u) :
    fetchShape sh s = .raised f u := by
  rw [← fetchShape_eq_operands] at h
  cases hs : fetchShape sh s with
  | ok i t => simp [hs] at h
  | raised g t => simpa [hs] using h

/-- An operand that a byte buffer serves is fetched and `ip` moves past it. -/
theorem fetchOperand_of_operandRead {k : OperandKind} {s : State} (h : s.operandRead (s.getReg .ip) k = true) :
    fetchOperand k s = .ok () (s.advance k.length) := by
  cases k with
  | reg =>
    cases hb : s.byteCell (s.getReg .ip).toNat with
    | none => simp [State.operandRead, hb] at h
    | some c =>
      simp only [State.operandRead, hb] at h
      obtain ⟨r, hr⟩ := Option.isSome_iff_exists.mp h
      simp [fetchOperand, fetchReg, fetch8_of_byteCell hb, hr, OperandKind.length]
  | lit =>
    obtain ⟨c, hc⟩ := Option.isSome_iff_exists.mp (show (s.wordCell (s.getReg .ip).toNat).isSome = true from h)
    simp [fetchOperand, fetch16_of_wordCell hc, OperandKind.length]

/-- An operand whose fetch faults. -/
theorem fetchOperand_of_operandFault {k : OperandKind} {s : State} {f : Fault} {n : Nat}
    (h : s.operandFault (s.getReg .ip) k = some (f, n)) : fetchOperand k s = .raised f (s.advance n) := by
  have hzero : s.advance 0 = s := by simp [State.advance, State.setReg, State.getReg, RegFile.set_get]
  cases k with
  | reg =>
    cases hf : s.byteFault (s.getReg .ip).toNat with
    | some g =>
      simp only [State.operandFault, hf, Option.some.injEq, Prod.mk.injEq] at h
      obtain ⟨rfl, rfl⟩ := h
      simp [fetchOperand, fetchReg, fetch8, memRead8_of_byteFault hf, hzero]
    | none =>
      cases hb : s.byteCell (s.getReg .ip).toNat with
      | none => simp [State.operandFault, hf, hb] at h
      | some c =>
        cases hd : decodeReg s.cfg (s.mem.read c) with
        | some r => simp [State.operandFault, hf, hb, hd] at h
        | none =>
          simp only [State.operandFault, hf, hb, hd, Option.isNone_none, if_true, Option.some.injEq,
            Prod.mk.injEq] at h
          obtain ⟨rfl, rfl⟩ := h
          simp [fetchOperand, fetchReg, fetch8_of_byteCell hb, hd]
  | lit =>
    cases hf : s.wordFault false (s.getReg .ip).toNat with
    | none => simp [State.operandFault, hf] at h
    | some g =>
      simp only [State.operandFault, hf, Option.map_some, Option.some.injEq, Prod.mk.injEq] at h
      obtain ⟨rfl, rfl⟩ := h
      simp [fetchOperand, fetch16, memRead16_of_wordFault hf, hzero]

theorem operandRead_advance (s : State) (n : Nat) (a : Word) (k : OperandKind) :
    (s.advance n).operandRead a k = s.operandRead a k := by
  cases k <;> simp only [State.operandRead, byteCell_advance, wordCell_advance] <;> rfl

theorem operandsRead_advance (s : State) (n : Nat) (a : Word) (ks : List OperandKind) :
    (s.advance n).operandsRead a ks = s.operandsRead a ks := by
  induction ks generalizing a with
  | nil => rfl
  | cons k ks ih => simp only [State.operandsRead, operandRead_advance, ih]

theorem operandFault_advance (s : State) (n : Nat) (a : Word) (k : OperandKind) :
    (s.advance n).operandFault a k = s.operandFault a k := by
  cases k <;> simp only [State.operandFault, byteFault_advance, byteCell_advance, wordFault_advance] <;> rfl

/-- Operands that byte buffers serve are fetched and `ip` moves past them. -/
theorem fetchOperands_of_operandsRead {ks : List OperandKind} {s : State}
    (h : s.operandsRead (s.getReg .ip) ks = true) : fetchOperands ks s = .ok () (s.advance (operandsLength ks)) := by
  induction ks generalizing s with
  | nil => simp [fetchOperands, operandsLength, State.advance, State.setReg, State.getReg, RegFile.set_get]
  | cons k ks ih =>
    simp only [State.operandsRead, Bool.and_eq_true] at h
    rw [fetchOperands, fetchOperand_of_operandRead h.1, Res.bind_ok,
      ih (by rw [operandsRead_advance]; simpa using h.2), advance_advance]
    rfl

end Sys2Proof.Machine
end

