-- ==== Sys2Proof/Laws/Decode.lean ====
section
/-!
SUPPORT. The decoder read backwards, and the fetch beside it: what bytes an operand took, and that fetching an instruction whose
bytes stand at `ip` reads what the decoder reads.
-/

namespace Sys2Proof.Machine

/-! ### The decoder -/

theorem takeWord_litBytes (w : Word) (rest : List Byte) : takeWord (litBytes w ++ rest) = .ok w rest := by
  simp [litBytes, takeWord, join_hi_lo]

theorem index_lt_nreg (c : Config) {r : Reg} (h : r.present c = true) : r.index < c.nreg := by
  cases r <;> simp_all [Reg.present, Reg.index, Config.nreg] <;> split <;> omega

theorem regOfIndex_index (r : Reg) : regOfIndex r.index = some r := by cases r <;> rfl

theorem takeReg_encodeReg (c : Config) {r : Reg} (h : r.present c = true) (rest : List Byte) : takeReg c
    (encodeReg r :: rest) = .ok r rest := by
  have e : (encodeReg r).toNat = r.index := by cases r <;> rfl
  have := index_lt_nreg c h
  simp [takeReg, takeByte, Parsed.bind, decodeReg, e, this, regOfIndex_index]

theorem decode_cons {c : Config} (hm : c.opcodeMap = opcodeTable) {b : Byte} {op : Op}
    (h : opcodeTable.lookup b = some op) (bs : List Byte) :
   decode c (b :: bs) = decodeShape c op.shape bs := by
  simp [decode, takeByte, Parsed.bind, Config.opOf, hm, h]

/-- A register the decoder reads exists (30_encoding.md R94). -/
theorem decodeReg_present {c : Config} {b : Byte} {r : Reg} (h : decodeReg c b = some r) : r.present c = true := by
  have key : ∀ n, n < c.nreg → regOfIndex n = some r → r.present c = true := by
    intro n hn hr
    by_cases hm : c.hasMb = true
    · cases r <;> simp [Reg.present, hm]
    · have : n < 13 := by simpa [Config.nreg, hm] using hn
      have : r ≠ .mb := by rintro rfl; interval_cases n <;> simp [regOfIndex] at hr
      cases r <;> simp_all [Reg.present]
  unfold decodeReg at h
  split at h
  · exact key _ (by assumption) h
  · split at h
    · cases h
    · exact key _ (Nat.mod_lt _ (by simp [Config.nreg]; split <;> omega)) h

theorem takeReg_eq_ok {c : Config} {bs rest : List Byte} {r : Reg} (h : takeReg c bs = .ok r rest) :
    r.present c = true ∧ ∃ b, bs = b :: rest ∧ decodeReg c b = some r := by
  cases bs with
  | nil => simp [takeReg, takeByte, Parsed.bind] at h
  | cons b bs =>
    simp only [takeReg, takeByte, Parsed.bind] at h
    cases hd : decodeReg c b with
    | none => simp [hd] at h
    | some q => simp [hd] at h; obtain ⟨rfl, rfl⟩ := h; exact ⟨decodeReg_present hd, b, rfl, hd⟩

theorem takeWord_eq_ok {bs rest : List Byte} {w : Word} (h : takeWord bs = .ok w rest) : ∃ hi lo,
    bs = hi :: lo :: rest ∧ w = joinBytes hi lo := by
  match bs, h with
  | hi :: lo :: r, h => simp [takeWord] at h; obtain ⟨rfl, rfl⟩ := h; exact ⟨hi, lo, rfl, rfl⟩
  | [_], h => simp [takeWord] at h
  | [], h => simp [takeWord] at h

theorem parsed_bind_eq_ok {α β : Type} {p : Parsed α} {f : α → List Byte → Parsed β} {b : β} {r : List Byte}
    (h : p.bind f = .ok b r) : ∃ a q, p = .ok a q ∧ f a q = .ok b r := by
  cases p with
  | ok a q => exact ⟨a, q, rfl, h⟩
  | rejected e => simp [Parsed.bind] at h

/-- The operand bytes of a shape. -/
def shapeOperands : Shape → Nat
  | .noArgs _ => 0
  | .reg _ => 1
  | .lit _ | .regReg _ => 2
  | .regLit _ | .litReg _ => 3
  | .litLit _ | .litRegReg _ => 4

/-- What operands were read, and from how many bytes. -/
theorem decodeShape_eq_ok {c : Config} {sh : Shape} {bs rest : List Byte} {i : Instr}
    (h : decodeShape c sh bs = .ok i rest) :
    (∃ ops, bs = ops ++ rest ∧ ops.length = shapeOperands sh) ∧
    (match sh with
    | .noArgs k => i = k
    | .reg k => ∃ r, i = k r ∧ r.present c = true
    | .lit k => ∃ l, i = k l
    | .regReg k => ∃ a b, i = k a b ∧ a.present c = true ∧ b.present c = true
    | .regLit k => ∃ r l, i = k r l ∧ r.present c = true
    | .litReg k => ∃ l r, i = k l r ∧ r.present c = true
    | .litLit k => ∃ l a, i = k l a
    | .litRegReg k => ∃ l a b, i = k l a b ∧ a.present c = true ∧ b.present c = true) := by
  cases sh with
  | noArgs k => simp [decodeShape] at h; obtain ⟨rfl, rfl⟩ := h; exact ⟨⟨[], rfl, rfl⟩, rfl⟩
  | reg k =>
    obtain ⟨r, q, h1, h2⟩ := parsed_bind_eq_ok h; obtain ⟨hp, b, rfl, _⟩ := takeReg_eq_ok h1; cases h2
    exact ⟨⟨[b], rfl, rfl⟩, r, rfl, hp⟩
  | lit k =>
    obtain ⟨l, q, h1, h2⟩ := parsed_bind_eq_ok h; obtain ⟨x, y, rfl, _⟩ := takeWord_eq_ok h1; cases h2
    exact ⟨⟨[x, y], rfl, rfl⟩, l, rfl⟩
  | regReg k =>
    obtain ⟨r, q, h1, h2⟩ := parsed_bind_eq_ok h; obtain ⟨hp, b, rfl, _⟩ := takeReg_eq_ok h1
    obtain ⟨r', q', h1', h2'⟩ := parsed_bind_eq_ok h2; obtain ⟨hp', b', rfl, _⟩ := takeReg_eq_ok h1'; cases h2'
    exact ⟨⟨[b, b'], rfl, rfl⟩, r, r', rfl, hp, hp'⟩
  | regLit k =>
    obtain ⟨r, q, h1, h2⟩ := parsed_bind_eq_ok h; obtain ⟨hp, b, rfl, _⟩ := takeReg_eq_ok h1
    obtain ⟨l, q', h1', h2'⟩ := parsed_bind_eq_ok h2; obtain ⟨x, y, rfl, _⟩ := takeWord_eq_ok h1'; cases h2'
    exact ⟨⟨[b, x, y], rfl, rfl⟩, r, l, rfl, hp⟩
  | litReg k =>
    obtain ⟨l, q', h1', h2'⟩ := parsed_bind_eq_ok h; obtain ⟨x, y, rfl, _⟩ := takeWord_eq_ok h1'
    obtain ⟨r, q, h1, h2⟩ := parsed_bind_eq_ok h2'; obtain ⟨hp, b, rfl, _⟩ := takeReg_eq_ok h1; cases h2
    exact ⟨⟨[x, y, b], rfl, rfl⟩, l, r, rfl, hp⟩
  | litLit k =>
    obtain ⟨l, q', h1', h2'⟩ := parsed_bind_eq_ok h; obtain ⟨x, y, rfl, _⟩ := takeWord_eq_ok h1'
    obtain ⟨l', q, h1, h2⟩ := parsed_bind_eq_ok h2'; obtain ⟨x', y', rfl, _⟩ := takeWord_eq_ok h1; cases h2
    exact ⟨⟨[x, y, x', y'], rfl, rfl⟩, l, l', rfl⟩
  | litRegReg k =>
    obtain ⟨l, q', h1', h2'⟩ := parsed_bind_eq_ok h; obtain ⟨x, y, rfl, _⟩ := takeWord_eq_ok h1'
    obtain ⟨r, q, h1, h2⟩ := parsed_bind_eq_ok h2'; obtain ⟨hp, b, rfl, _⟩ := takeReg_eq_ok h1
    obtain ⟨r', q', h1', h2''⟩ := parsed_bind_eq_ok h2; obtain ⟨hp', b', rfl, _⟩ := takeReg_eq_ok h1'; cases h2''
    exact ⟨⟨[x, y, b, b'], rfl, rfl⟩, l, r, r', rfl, hp, hp'⟩

theorem decode_eq_ok {c : Config} {bs rest : List Byte} {i : Instr} (h : decode c bs = .ok i rest) : ∃ b op tl,
    bs = b :: tl ∧ c.opOf b = some op ∧ decodeShape c op.shape tl = .ok i rest := by
  obtain ⟨b, q, h1, h2⟩ := parsed_bind_eq_ok h
  cases bs with
  | nil => simp [takeByte] at h1
  | cons x xs =>
    simp [takeByte] at h1; obtain ⟨rfl, rfl⟩ := h1
    cases ho : c.opOf x with
    | none => simp [ho] at h2
    | some op => simp [ho] at h2; exact ⟨x, op, xs, rfl, ho, h2⟩

/-! ### The fetch -/

/-- The bytes of a list stand at `ip` onward, all served by the one region `g`. -/
def Code (g : Region) (s : State) (bs : List Byte) : Prop :=
  (s.getReg .ip).toNat + bs.length ≤ 0x10000 ∧ ∀ j (h : j < bs.length), findRegion s.cfg
    ((s.getReg .ip).toNat + j) = some g ∧
    ∃ k, s.byteCell ((s.getReg .ip).toNat + j) = some k ∧ s.mem.read k = bs[j]

theorem Code.tail {g : Region} {s : State} {pre rest : List Byte} (h : Code g s (pre ++ rest)) : Code g
    (s.advance pre.length) rest := by
  by_cases hr : rest = []
  · subst hr; exact ⟨by have := ((s.advance pre.length).getReg .ip).isLt; simpa using Nat.le_of_lt this,
    fun j hj => by simp at hj⟩
  have hl : 0 < rest.length := List.length_pos_of_ne_nil hr
  have h1 := h.1
  rw [List.length_append] at h1
  have e : ((s.advance pre.length).getReg .ip).toNat = (s.getReg .ip).toNat + pre.length := by
    simp only [State.getReg_advance, if_true]
    rw [BitVec.toNat_add, BitVec.toNat_ofNat]; omega
  refine ⟨by omega, fun j hj => ?_⟩
  have := h.2 (pre.length + j) (by rw [List.length_append]; omega)
  rw [e, byteCell_advance]
  simpa [Nat.add_assoc] using this

theorem Code.fetch8 {g : Region} {s : State} {b : Byte} {rest : List Byte} (h : Code g s (b :: rest)) :
   Machine.fetch8 s = .ok b (s.advance 1) ∧ Code g (s.advance 1) rest := by
  obtain ⟨_, k, hk, hb⟩ := h.2 0 (by simp)
  refine ⟨?_, Code.tail (pre := [b]) h⟩
  rw [fetch8_of_byteCell hk, hb]; rfl

theorem Code.fetch16 {g : Region} {s : State} {x y : Byte} {rest : List Byte} (h : Code g s (x :: y :: rest)) :
   Machine.fetch16 s = .ok (joinBytes x y) (s.advance 2) ∧ Code g (s.advance 2) rest := by
  obtain ⟨hg, k, hk, hb⟩ := h.2 0 (by simp)
  obtain ⟨hg', k', hk', hb'⟩ := h.2 1 (by simp)
  have h1 := h.1
  simp only [List.length_cons] at h1
  refine ⟨?_, Code.tail (pre := [x, y]) h⟩
  have hw : s.wordCell (s.getReg .ip).toNat = some k ∧ k' = k + 1 := by
    simp only [Nat.add_zero] at hk hg
    obtain ⟨d, off, base, size, w, hr, hlt, hkk⟩ := State.byteCell_eq_some.mp hk
    obtain ⟨d', off', base', size', w', hr', hlt', hkk'⟩ := State.byteCell_eq_some.mp hk'
    have hb1 : g.start ≤ (s.getReg .ip).toNat := by
      have := List.find?_some hg; simp [regionHas] at this; exact this.1
    simp only [State.resolve, hg] at hr
    simp only [State.resolve, hg'] at hr'
    cases hba : s.backing g.device with
    | none => simp [hba] at hr
    | some bk =>
      simp [hba] at hr hr'
      obtain ⟨h2, h3, h4⟩ := hr
      obtain ⟨h2', h3', h4'⟩ := hr'
      rw [h4] at h4'; cases h4'
      have e : off' = off + 1 := by
        rw [← h3, ← h3', regionOffset, regionOffset]; split <;> omega
      refine ⟨State.wordCell_eq_some.mpr ⟨by omega, d, off, base, size, w, ?_, by omega, hkk⟩, by omega⟩
      simp [State.resolve, hg, ← h2, hba, h3, h4]
  rw [hw.2] at hb'
  rw [fetch16_of_wordCell hw.1, hb, hb']; rfl

theorem Code.fetchReg {g : Region} {s : State} {b : Byte} {rest : List Byte} {r : Reg} (h : Code g s (b :: rest))
    (hd : decodeReg s.cfg b = some r) :
   Machine.fetchReg s = .ok r (s.advance 1) ∧ Code g (s.advance 1) rest := by
  obtain ⟨h1, h2⟩ := h.fetch8
  refine ⟨?_, h2⟩
  simp [Machine.fetchReg, h1, hd]

/-- Fetching the operands reads what the decoder reads from the same bytes. -/
theorem Code.shape {g : Region} {s : State} {bs rest : List Byte} {sh : Shape} {i : Instr} (h : Code g s bs)
    (hd : decodeShape s.cfg sh bs = .ok i rest) :
   fetchShape sh s = .ok i (s.advance (shapeOperands sh)) := by
  have adv0 : s.advance 0 = s := by simp [State.advance, State.setReg, State.getReg, RegFile.set_get]
  cases sh with
  | noArgs k => simp [decodeShape] at hd; obtain ⟨rfl, rfl⟩ := hd; simp [fetchShape, shapeOperands, adv0]
  | reg k =>
    obtain ⟨r, q, h1, h2⟩ := parsed_bind_eq_ok hd; obtain ⟨hp, b, rfl, hr⟩ := takeReg_eq_ok h1; cases h2
    simp [fetchShape, (h.fetchReg hr).1, shapeOperands]
  | lit k =>
    obtain ⟨l, q, h1, h2⟩ := parsed_bind_eq_ok hd; obtain ⟨x, y, rfl, rfl⟩ := takeWord_eq_ok h1; cases h2
    simp [fetchShape, h.fetch16.1, shapeOperands]
  | regReg k =>
    obtain ⟨r, q, h1, h2⟩ := parsed_bind_eq_ok hd; obtain ⟨hp, b, rfl, hr⟩ := takeReg_eq_ok h1
    obtain ⟨r', q', h1', h2'⟩ := parsed_bind_eq_ok h2; obtain ⟨hp', b', rfl, hr'⟩ := takeReg_eq_ok h1'; cases h2'
    obtain ⟨e1, h'⟩ := h.fetchReg hr
    simp [fetchShape, e1, (h'.fetchReg hr').1, shapeOperands, advance_advance]
  | regLit k =>
    obtain ⟨r, q, h1, h2⟩ := parsed_bind_eq_ok hd; obtain ⟨hp, b, rfl, hr⟩ := takeReg_eq_ok h1
    obtain ⟨l, q', h1', h2'⟩ := parsed_bind_eq_ok h2; obtain ⟨x, y, rfl, rfl⟩ := takeWord_eq_ok h1'; cases h2'
    obtain ⟨e1, h'⟩ := h.fetchReg hr
    simp [fetchShape, e1, h'.fetch16.1, shapeOperands, advance_advance]
  | litReg k =>
    obtain ⟨l, q', h1', h2'⟩ := parsed_bind_eq_ok hd; obtain ⟨x, y, rfl, rfl⟩ := takeWord_eq_ok h1'
    obtain ⟨r, q, h1, h2⟩ := parsed_bind_eq_ok h2'; obtain ⟨hp, b, rfl, hr⟩ := takeReg_eq_ok h1; cases h2
    obtain ⟨e1, h'⟩ := h.fetch16
    simp [fetchShape, e1, (h'.fetchReg hr).1, shapeOperands, advance_advance]
  | litLit k =>
    obtain ⟨l, q', h1', h2'⟩ := parsed_bind_eq_ok hd; obtain ⟨x, y, rfl, rfl⟩ := takeWord_eq_ok h1'
    obtain ⟨l', q, h1, h2⟩ := parsed_bind_eq_ok h2'; obtain ⟨x', y', rfl, rfl⟩ := takeWord_eq_ok h1; cases h2
    obtain ⟨e1, h'⟩ := h.fetch16
    simp [fetchShape, e1, h'.fetch16.1, shapeOperands, advance_advance]
  | litRegReg k =>
    obtain ⟨l, q', h1', h2'⟩ := parsed_bind_eq_ok hd; obtain ⟨x, y, rfl, rfl⟩ := takeWord_eq_ok h1'
    obtain ⟨r, q, h1, h2⟩ := parsed_bind_eq_ok h2'; obtain ⟨hp, b, rfl, hr⟩ := takeReg_eq_ok h1
    obtain ⟨r', q', h1', h2''⟩ := parsed_bind_eq_ok h2; obtain ⟨hp', b', rfl, hr'⟩ := takeReg_eq_ok h1'; cases h2''
    obtain ⟨e1, h'⟩ := h.fetch16
    obtain ⟨e2, h''⟩ := h'.fetchReg hr
    have e3 := (h''.fetchReg hr').1
    simp only [advance_advance] at e2 e3
    simp [fetchShape, e1, e2, e3, shapeOperands]

end Sys2Proof.Machine
end

