-- ==== Sys2Proof/Laws/Frame.lean ====
section
/-!
SUPPORT. What every operation leaves as it is, whether it answers or raises: the registers it does not write, the store where it
does not store, `sfs` where it does not use the stack, `in_handler` where it is no interrupt operation.
-/

namespace Sys2Proof.Machine

/-- Between `s` and `t` only the registers of `w` changed; the store only if `store`, `sfs` only if `stack`, `in_handler` only
if `hand`. -/
structure Frames (w : List Reg) (store stack hand : Bool) (s t : State) : Prop where
  regs : ∀ r, r ∉ w → t.getReg r = s.getReg r
  mem  : store = false → t.mem = s.mem
  sfs  : stack = false → t.sfs = s.sfs
  hand : hand = false → t.inHandler = s.inHandler

variable {w : List Reg} {store stack hand : Bool} {s t u : State}

theorem Frames.refl (s : State) : Frames w store stack hand s s := ⟨fun _ _ => rfl, fun _ => rfl, fun _ => rfl, fun _ => rfl⟩

theorem Frames.trans (h₁ : Frames w store stack hand s t) (h₂ : Frames w store stack hand t u) :
    Frames w store stack hand s u where
  regs r hr := (h₂.regs r hr).trans (h₁.regs r hr)
  mem h := (h₂.mem h).trans (h₁.mem h)
  sfs h := (h₂.sfs h).trans (h₁.sfs h)
  hand h := (h₂.hand h).trans (h₁.hand h)

theorem Frames.bind {α β : Type} {r : Res α} {k : α → State → Res β} (h₁ : Frames w store stack hand s r.state)
    (h₂ : ∀ a u, r = .ok a u → Frames w store stack hand u (k a u).state) :
    Frames w store stack hand s (r.bind k).state := by
  cases r with
  | ok a u => exact h₁.trans (h₂ a u rfl)
  | raised f u => exact h₁

theorem Frames.setReg {r : Reg} (h : r ∈ w) (v : Word) : Frames w store stack hand s (s.setReg r v) where
  regs q hq := by simp [show q ≠ r from fun e => hq (e ▸ h)]
  mem _ := rfl
  sfs _ := rfl
  hand _ := rfl

theorem Frames.advance (h : .ip ∈ w) (n : Nat) : Frames w store stack hand s (s.advance n) := Frames.setReg h _

theorem Frames.setSfs (v : Word) : Frames w store true hand s (s.setSfs v) := ⟨fun _ _ => rfl, fun _ => rfl, by simp, fun _ => rfl⟩

theorem Frames.setInHandler (b : Bool) : Frames w store stack true s (s.setInHandler b) :=
  ⟨fun _ _ => rfl, fun _ => rfl, fun _ => rfl, by simp⟩

/-- An access that leaves the registers and the hidden state alone. -/
theorem Frames.of_access (hr : t.regs = s.regs) (hs : t.sfs = s.sfs) (hh : t.inHandler = s.inHandler)
    (hm : store = false → t.mem = s.mem) : Frames w store stack hand s t :=
  ⟨fun r _ => by simp only [State.getReg, hr], hm, fun _ => hs, fun _ => hh⟩

theorem Frames.extCall {α : Type} (answer : Nat → α) (c : ExtCall) (a : Nat) (s : State) :
    Frames w store stack hand s (extCall answer c a s).state := by
  simp only [Machine.extCall]
  split
  · exact Frames.refl s
  · exact Frames.of_access rfl rfl rfl fun _ => rfl

theorem Frames.memRead8 (a : Nat) (s : State) : Frames w store stack hand s (memRead8 a s).state := by
  rcases h : s.resolve a with _ | ⟨d, off, ⟨base, size, wr⟩ | _⟩
  · simpa [Machine.memRead8, h] using Frames.refl s
  · simp only [Machine.memRead8, h, bufGet8]
    split <;> exact Frames.refl s
  · simp only [Machine.memRead8, h]
    exact Frames.extCall _ _ _ _

theorem Frames.memRead16 (a : Nat) (s : State) : Frames w store stack hand s (memRead16 a s).state := by
  by_cases ha : a = 0xFFFF
  · simpa [Machine.memRead16, ha] using Frames.refl s
  · rcases h : s.resolve a with _ | ⟨d, off, ⟨base, size, wr⟩ | _⟩
    · simpa [Machine.memRead16, ha, h] using Frames.refl s
    · simp only [Machine.memRead16, ha, h, bufGet16, if_false]
      split <;> exact Frames.refl s
    · simp only [Machine.memRead16, ha, h, if_false]
      exact Frames.extCall _ _ _ _

theorem Frames.memWrite16 (a : Nat) (v : Word) (s : State) : Frames w true stack hand s (memWrite16 a v s).state := by
  by_cases ha : a = 0xFFFF
  · simpa [Machine.memWrite16, ha] using Frames.refl s
  · rcases h : s.resolve a with _ | ⟨d, off, ⟨base, size, wr⟩ | _⟩
    · simpa [Machine.memWrite16, ha, h] using Frames.refl s
    · simp only [Machine.memWrite16, ha, h, bufSet16, if_false]
      split
      · split
        · exact Frames.refl s
        · exact Frames.of_access rfl rfl rfl (by simp)
      · exact Frames.refl s
    · simp only [Machine.memWrite16, ha, h, if_false]
      exact Frames.extCall _ _ _ _

/-! ### The instruction stream -/

theorem Frames.fetch8 (h : .ip ∈ w) (s : State) : Frames w store stack hand s (fetch8 s).state :=
  (Frames.memRead8 _ s).bind fun _ _ _ => Frames.advance h 1

theorem Frames.fetch16 (h : .ip ∈ w) (s : State) : Frames w store stack hand s (fetch16 s).state :=
  (Frames.memRead16 _ s).bind fun _ _ _ => Frames.advance h 2

theorem Frames.fetchReg (h : .ip ∈ w) (s : State) : Frames w store stack hand s (fetchReg s).state :=
  (Frames.fetch8 h s).bind fun b u _ => by
    cases hd : decodeReg u.cfg b <;> exact Frames.refl u

theorem Frames.fetchShape (h : .ip ∈ w) (sh : Shape) (s : State) : Frames w store stack hand s (fetchShape sh s).state := by
  cases sh with
  | noArgs i => exact Frames.refl s
  | reg k => exact (Frames.fetchReg h s).bind fun _ u _ => Frames.refl u
  | lit k => exact (Frames.fetch16 h s).bind fun _ u _ => Frames.refl u
  | regReg k => exact (Frames.fetchReg h s).bind fun _ u _ => (Frames.fetchReg h u).bind fun _ u _ => Frames.refl u
  | regLit k => exact (Frames.fetchReg h s).bind fun _ u _ => (Frames.fetch16 h u).bind fun _ u _ => Frames.refl u
  | litReg k => exact (Frames.fetch16 h s).bind fun _ u _ => (Frames.fetchReg h u).bind fun _ u _ => Frames.refl u
  | litLit k => exact (Frames.fetch16 h s).bind fun _ u _ => (Frames.fetch16 h u).bind fun _ u _ => Frames.refl u
  | litRegReg k =>
    exact (Frames.fetch16 h s).bind fun _ u _ => (Frames.fetchReg h u).bind fun _ u _ =>
      (Frames.fetchReg h u).bind fun _ u _ => Frames.refl u

/-- Fetching an instruction moves `ip` and nothing else of the core. -/
theorem Frames.fetchInstr (s : State) : Frames [.ip] false false false s (fetchInstr s).state :=
  (Frames.fetch8 (by simp) s).bind fun b u _ => by
    cases h : u.cfg.opOf b with
    | some op => exact (Frames.fetchShape (by simp) op.shape u).bind fun _ u _ => Frames.refl u
    | none =>
      dsimp only
      split <;> exact Frames.refl u

/-! ### The stack and the interrupt operations -/

theorem Frames.push (h : .sp ∈ w) (v : Word) (s : State) : Frames w true true hand s (push v s).state :=
  (Frames.memWrite16 _ v s).bind fun _ _ _ => (Frames.setReg h _).trans (Frames.setSfs _)

theorem Frames.pop (h : .sp ∈ w) (s : State) : Frames w store true hand s (pop s).state :=
  (Frames.setReg h _).trans ((Frames.memRead16 _ _).bind fun _ _ _ => Frames.setSfs _)

theorem Frames.pushRegs (h : .sp ∈ w) (rs : List Reg) (s : State) : Frames w true true hand s (pushRegs rs s).state := by
  induction rs generalizing s with
  | nil => exact Frames.refl s
  | cons r rs ih => exact (Frames.push h _ s).bind fun _ u _ => ih u

theorem Frames.popRegs (h : .sp ∈ w) {rs : List Reg} (hrs : ∀ r ∈ rs, r ∈ w) (s : State) :
    Frames w store true hand s (popRegs rs s).state := by
  induction rs generalizing s with
  | nil => exact Frames.refl s
  | cons r rs ih =>
    exact (Frames.pop h s).bind fun _ u _ =>
      (Frames.setReg (hrs r (by simp)) _).trans (ih (fun q hq => hrs q (by simp [hq])) _)

theorem Frames.popDiscard (h : .sp ∈ w) (n : Nat) (s : State) : Frames w store true hand s (popDiscard n s).state := by
  induction n generalizing s with
  | zero => exact Frames.refl s
  | succ n ih => exact (Frames.pop h s).bind fun _ u _ => ih u

theorem Frames.pushState (h : .sp ∈ w) (hf : .fp ∈ w) (s : State) : Frames w true true hand s (pushState s).state :=
  (Frames.pushRegs h _ s).bind fun _ u _ =>
    (Frames.push h _ u).bind fun _ _ _ => (Frames.setReg hf _).trans (Frames.setSfs _)

theorem Frames.popState (h : .sp ∈ w) (hf : .fp ∈ w) (hr : ∀ r ∈ savedRegs, r ∈ w) (s : State) :
    Frames w store true hand s (popState s).state :=
  (Frames.setReg h _).trans <| (Frames.pop h _).bind fun sz _ _ =>
    (Frames.setSfs sz).trans <| (Frames.popRegs h (fun r hq => hr r (List.mem_reverse.mp hq)) _).bind fun _ u _ =>
      (Frames.pop h u).bind fun n u _ => (Frames.popDiscard h n.toNat u).bind fun _ _ _ => Frames.setReg hf _

theorem Frames.saveInterruptFrame (h : .sp ∈ w) (hf : .fp ∈ w) (s : State) :
    Frames w true true hand s (saveInterruptFrame s).state := by
  simp only [Machine.saveInterruptFrame]
  split
  · exact Frames.refl s
  · exact (Frames.push h 0 s).bind fun _ u _ => Frames.pushState h hf u

theorem Frames.handleInterrupt (hi : .ip ∈ w) (h : .sp ∈ w) (hf : .fp ∈ w) (v : Word) (s : State) :
    Frames w true true true s (handleInterrupt v s).state := by
  simp only [Machine.handleInterrupt]
  split
  · exact (Frames.saveInterruptFrame h hf s).bind fun _ _ _ =>
      (Frames.setInHandler true).trans <| (Frames.memRead16 _ _).bind fun _ _ _ => Frames.setReg hi _
  · exact Frames.refl s

theorem Frames.returnInterrupt (h : .sp ∈ w) (hf : .fp ∈ w) (hr : ∀ r ∈ savedRegs, r ∈ w) (s : State) :
    Frames w store true true s (returnInterrupt s).state :=
  (Frames.setInHandler false).trans (Frames.popState h hf hr _)

theorem Frames.loadWord {d : Reg} (h : d ∈ w) (a : Nat) (s : State) : Frames w store stack hand s (loadWord a d s).state :=
  (Frames.memRead16 a s).bind fun _ _ _ => Frames.setReg h _

theorem Frames.callTo (hi : .ip ∈ w) (h : .sp ∈ w) (hf : .fp ∈ w) (t : Word) (s : State) :
    Frames w true true hand s (callTo t s).state :=
  (Frames.pushState h hf s).bind fun _ _ _ => Frames.setReg hi t

/-! ### Running an effect -/

/-- What `run` answers is the state of the effect, with a fault record where it raised. -/
theorem run_eq_next {f : Format} {effect : State → Res Unit} (h : run f effect s = .next t) :
    t = (effect (s.advance f.length)).state ∨
      ∃ x u, effect (s.advance f.length) = .raised x u ∧ t = u.recordFault x (s.getReg .ip) := by
  rcases hr : effect (s.advance f.length) with ⟨⟨⟩, u⟩ | ⟨x, u⟩
  · simp only [run, hr, finish, Host.Outcome.next.injEq] at h
    exact .inl h.symm
  · simp only [run, hr, finish, Host.Outcome.next.injEq] at h
    exact .inr ⟨x, u, rfl, h.symm⟩

theorem Frames.run {f : Format} {effect : State → Res Unit} (hi : .ip ∈ w)
    (he : ∀ s, Frames w store stack hand s (effect s).state) (h : run f effect s = .next t) :
    Frames w store stack hand s t := by
  refine (Frames.advance hi f.length).trans ?_
  rcases run_eq_next h with rfl | ⟨x, u, hu, rfl⟩
  · exact he _
  · have := he (s.advance f.length)
    rw [hu] at this
    exact ⟨this.regs, this.mem, this.sfs, this.hand⟩

end Sys2Proof.Machine
end

