-- ==== Sys2Proof/Laws/PerInstr.lean ====
section
/-!
SUPPORT. A statement made of every instruction, one lemma per constructor: its encoding begins with an assigned opcode byte and
has the length that the opcode's format gives it (30_encoding.md R99, R100).
-/

namespace Sys2Proof.Laws.EncodedForm

/-- The encoding of `i` begins with a byte that R100 assigns, and is as long as R99 says for that opcode's format. -/
def Statement (i : Instr) : Prop :=
  ∃ b op, (encode i).head? = some b ∧ opcodeTable.lookup b = some op ∧ (encode i).length = op.format.length

theorem movLitReg (l : Word) (r : Reg) : Statement (.movLitReg l r) := ⟨_, _, rfl, rfl, rfl⟩
theorem movRegReg (s d : Reg) : Statement (.movRegReg s d) := ⟨_, _, rfl, rfl, rfl⟩
theorem movRegMem (r : Reg) (a : Word) : Statement (.movRegMem r a) := ⟨_, _, rfl, rfl, rfl⟩
theorem movMemReg (a : Word) (r : Reg) : Statement (.movMemReg a r) := ⟨_, _, rfl, rfl, rfl⟩
theorem movLitMem (l a : Word) : Statement (.movLitMem l a) := ⟨_, _, rfl, rfl, rfl⟩
theorem movRegPtrReg (s d : Reg) : Statement (.movRegPtrReg s d) := ⟨_, _, rfl, rfl, rfl⟩
theorem movLitOffReg (b : Word) (o d : Reg) : Statement (.movLitOffReg b o d) := ⟨_, _, rfl, rfl, rfl⟩
theorem addRegReg (a b : Reg) : Statement (.addRegReg a b) := ⟨_, _, rfl, rfl, rfl⟩
theorem addLitReg (l : Word) (r : Reg) : Statement (.addLitReg l r) := ⟨_, _, rfl, rfl, rfl⟩
theorem subRegReg (a b : Reg) : Statement (.subRegReg a b) := ⟨_, _, rfl, rfl, rfl⟩
theorem subLitReg (l : Word) (r : Reg) : Statement (.subLitReg l r) := ⟨_, _, rfl, rfl, rfl⟩
theorem subRegLit (r : Reg) (l : Word) : Statement (.subRegLit r l) := ⟨_, _, rfl, rfl, rfl⟩
theorem mulRegReg (a b : Reg) : Statement (.mulRegReg a b) := ⟨_, _, rfl, rfl, rfl⟩
theorem mulLitReg (l : Word) (r : Reg) : Statement (.mulLitReg l r) := ⟨_, _, rfl, rfl, rfl⟩
theorem incReg (r : Reg) : Statement (.incReg r) := ⟨_, _, rfl, rfl, rfl⟩
theorem decReg (r : Reg) : Statement (.decReg r) := ⟨_, _, rfl, rfl, rfl⟩
theorem lsfRegReg (r s : Reg) : Statement (.lsfRegReg r s) := ⟨_, _, rfl, rfl, rfl⟩
theorem lsfRegLit (r : Reg) (n : Word) : Statement (.lsfRegLit r n) := ⟨_, _, rfl, rfl, rfl⟩
theorem rsfRegReg (r s : Reg) : Statement (.rsfRegReg r s) := ⟨_, _, rfl, rfl, rfl⟩
theorem rsfRegLit (r : Reg) (n : Word) : Statement (.rsfRegLit r n) := ⟨_, _, rfl, rfl, rfl⟩
theorem andRegReg (a b : Reg) : Statement (.andRegReg a b) := ⟨_, _, rfl, rfl, rfl⟩
theorem andLitReg (l : Word) (r : Reg) : Statement (.andLitReg l r) := ⟨_, _, rfl, rfl, rfl⟩
theorem orRegReg (a b : Reg) : Statement (.orRegReg a b) := ⟨_, _, rfl, rfl, rfl⟩
theorem orLitReg (l : Word) (r : Reg) : Statement (.orLitReg l r) := ⟨_, _, rfl, rfl, rfl⟩
theorem xorRegReg (a b : Reg) : Statement (.xorRegReg a b) := ⟨_, _, rfl, rfl, rfl⟩
theorem xorLitReg (l : Word) (r : Reg) : Statement (.xorLitReg l r) := ⟨_, _, rfl, rfl, rfl⟩
theorem not (r : Reg) : Statement (.not r) := ⟨_, _, rfl, rfl, rfl⟩
theorem jmpNotEq (v t : Word) : Statement (.jmpNotEq v t) := ⟨_, _, rfl, rfl, rfl⟩
theorem jneReg (r : Reg) (t : Word) : Statement (.jneReg r t) := ⟨_, _, rfl, rfl, rfl⟩
theorem jeqReg (r : Reg) (t : Word) : Statement (.jeqReg r t) := ⟨_, _, rfl, rfl, rfl⟩
theorem jeqLit (v t : Word) : Statement (.jeqLit v t) := ⟨_, _, rfl, rfl, rfl⟩
theorem jltReg (r : Reg) (t : Word) : Statement (.jltReg r t) := ⟨_, _, rfl, rfl, rfl⟩
theorem jltLit (v t : Word) : Statement (.jltLit v t) := ⟨_, _, rfl, rfl, rfl⟩
theorem jgtReg (r : Reg) (t : Word) : Statement (.jgtReg r t) := ⟨_, _, rfl, rfl, rfl⟩
theorem jgtLit (v t : Word) : Statement (.jgtLit v t) := ⟨_, _, rfl, rfl, rfl⟩
theorem jleReg (r : Reg) (t : Word) : Statement (.jleReg r t) := ⟨_, _, rfl, rfl, rfl⟩
theorem jleLit (v t : Word) : Statement (.jleLit v t) := ⟨_, _, rfl, rfl, rfl⟩
theorem jgeReg (r : Reg) (t : Word) : Statement (.jgeReg r t) := ⟨_, _, rfl, rfl, rfl⟩
theorem jgeLit (v t : Word) : Statement (.jgeLit v t) := ⟨_, _, rfl, rfl, rfl⟩
theorem pshLit (l : Word) : Statement (.pshLit l) := ⟨_, _, rfl, rfl, rfl⟩
theorem pshReg (r : Reg) : Statement (.pshReg r) := ⟨_, _, rfl, rfl, rfl⟩
theorem pop (r : Reg) : Statement (.pop r) := ⟨_, _, rfl, rfl, rfl⟩
theorem calLit (t : Word) : Statement (.calLit t) := ⟨_, _, rfl, rfl, rfl⟩
theorem calReg (r : Reg) : Statement (.calReg r) := ⟨_, _, rfl, rfl, rfl⟩
theorem ret : Statement .ret := ⟨_, _, rfl, rfl, rfl⟩
theorem int (v : Word) : Statement (.int v) := ⟨_, _, rfl, rfl, rfl⟩
theorem retInt : Statement .retInt := ⟨_, _, rfl, rfl, rfl⟩
theorem hlt : Statement .hlt := ⟨_, _, rfl, rfl, rfl⟩

end Sys2Proof.Laws.EncodedForm
end

