-- ==== Sys2Proof/Laws/Transition.lean ====
section
/-!
SUPPORT. What one instruction and one transition of the machine can do, said once; the invariants of a run follow from it.
-/

namespace Sys2Proof.Machine

/-! ### One instruction -/

/-- An instruction that is a run of an effect under which the state evolves. -/
def EvolvesUnder (i : Instr) : Prop := ∃ f e, (∀ s, exec i s = run f e s) ∧ ∀ s, Evolves s (e s).state

theorem evolvesUnder_setReg {i : Instr} {f : Format} {r : Reg} {v : State → Word}
    (h : ∀ s, exec i s = run f (fun s => .ok () (s.setReg r (v s))) s) : EvolvesUnder i :=
  ⟨f, _, h, fun s => Evolves.setReg s _ _⟩

theorem evolvesUnder_jump {i : Instr} {f : Format} {c : Cond} {v : State → Word} {t : Word}
    (h : ∀ s, exec i s = run f (fun s => .ok () (jumpIf c (v s) t s)) s) : EvolvesUnder i := by
  refine ⟨f, _, h, fun s => ?_⟩
  simp only [jumpIf]
  split
  · exact Evolves.setReg _ _ _
  · exact Evolves.refl s

theorem Evolves.offsetAddress (b : Word) (o : Reg) (s : State) : Evolves s (offsetAddress b o s).state := by
  simp only [Machine.offsetAddress]
  split <;> exact Evolves.refl s

/-- Every instruction but `HLT`. -/
theorem exec_evolvesUnder {i : Instr} (hi : i ≠ .hlt) : EvolvesUnder i := by
  cases i
  case hlt => exact absurd rfl hi
  case jmpNotEq v t => exact evolvesUnder_jump (v := fun _ => v) (exec_jmpNotEq · v t)
  case jneReg r t => exact evolvesUnder_jump (v := fun s => s.getReg r) (exec_jneReg · r t)
  case jeqLit v t => exact evolvesUnder_jump (v := fun _ => v) (exec_jeqLit · v t)
  case jeqReg r t => exact evolvesUnder_jump (v := fun s => s.getReg r) (exec_jeqReg · r t)
  case jltLit v t => exact evolvesUnder_jump (v := fun _ => v) (exec_jltLit · v t)
  case jltReg r t => exact evolvesUnder_jump (v := fun s => s.getReg r) (exec_jltReg · r t)
  case jgtLit v t => exact evolvesUnder_jump (v := fun _ => v) (exec_jgtLit · v t)
  case jgtReg r t => exact evolvesUnder_jump (v := fun s => s.getReg r) (exec_jgtReg · r t)
  case jleLit v t => exact evolvesUnder_jump (v := fun _ => v) (exec_jleLit · v t)
  case jleReg r t => exact evolvesUnder_jump (v := fun s => s.getReg r) (exec_jleReg · r t)
  case jgeLit v t => exact evolvesUnder_jump (v := fun _ => v) (exec_jgeLit · v t)
  case jgeReg r t => exact evolvesUnder_jump (v := fun s => s.getReg r) (exec_jgeReg · r t)
  case movRegMem r a => exact ⟨_, _, (exec_movRegMem · r a), fun s => Evolves.memWrite16 _ _ s⟩
  case movLitMem l a => exact ⟨_, _, (exec_movLitMem · l a), fun s => Evolves.memWrite16 _ _ s⟩
  case movMemReg a r => exact ⟨_, _, (exec_movMemReg · a r), fun s => Evolves.loadWord _ _ s⟩
  case movRegPtrReg p r => exact ⟨_, _, (exec_movRegPtrReg · p r), fun s => Evolves.loadWord _ _ s⟩
  case movLitOffReg b o d =>
    exact ⟨_, _, (exec_movLitOffReg · b o d), fun s => (Evolves.offsetAddress b o s).bind fun _ u _ => Evolves.loadWord _ _ u⟩
  case pshLit l => exact ⟨_, _, (exec_pshLit · l), fun s => Evolves.push _ s⟩
  case pshReg r => exact ⟨_, _, (exec_pshReg · r), fun s => Evolves.push _ s⟩
  case pop r =>
    refine ⟨_, _, (exec_pop · r), fun s => (Evolves.pop s).bind fun _ u _ => ?_⟩
    exact Evolves.setReg u _ _
  case calLit t => exact ⟨_, _, (exec_calLit · t), fun s => Evolves.callTo _ s⟩
  case calReg r => exact ⟨_, _, (exec_calReg · r), fun s => Evolves.callTo _ s⟩
  case ret => exact ⟨_, _, exec_ret, Evolves.popState⟩
  case retInt => exact ⟨_, _, exec_retInt, Evolves.returnInterrupt⟩
  case int v => exact ⟨_, _, (exec_int · v), Evolves.handleInterrupt v⟩
  case movLitReg l r => exact evolvesUnder_setReg (r := r) (v := fun s => l) (exec_movLitReg · l r)
  case movRegReg src d => exact evolvesUnder_setReg (r := d) (v := fun s => (s.getReg src)) (exec_movRegReg · src d)
  case addRegReg a b =>
    exact evolvesUnder_setReg (r := .acc) (v := fun s => (s.getReg a + s.getReg b))
      (exec_addRegReg · a b)
  case addLitReg l r => exact evolvesUnder_setReg (r := .acc) (v := fun s => (l + s.getReg r)) (exec_addLitReg · l r)
  case subRegReg a b =>
    exact evolvesUnder_setReg (r := .acc) (v := fun s => (s.getReg a - s.getReg b))
      (exec_subRegReg · a b)
  case subLitReg l r => exact evolvesUnder_setReg (r := .acc) (v := fun s => (l - s.getReg r)) (exec_subLitReg · l r)
  case mulRegReg a b =>
    exact evolvesUnder_setReg (r := .acc) (v := fun s => (s.getReg a * s.getReg b))
      (exec_mulRegReg · a b)
  case mulLitReg l r => exact evolvesUnder_setReg (r := .acc) (v := fun s => (l * s.getReg r)) (exec_mulLitReg · l r)
  case andRegReg a b =>
    exact evolvesUnder_setReg (r := .acc) (v := fun s => (s.getReg a &&& s.getReg b))
      (exec_andRegReg · a b)
  case andLitReg l r => exact evolvesUnder_setReg (r := .acc) (v := fun s => (l &&& s.getReg r)) (exec_andLitReg · l r)
  case orRegReg a b =>
    exact evolvesUnder_setReg (r := .acc) (v := fun s => (s.getReg a ||| s.getReg b))
      (exec_orRegReg · a b)
  case orLitReg l r => exact evolvesUnder_setReg (r := .acc) (v := fun s => (l ||| s.getReg r)) (exec_orLitReg · l r)
  case xorRegReg a b =>
    exact evolvesUnder_setReg (r := .acc) (v := fun s => (s.getReg a ^^^ s.getReg b))
      (exec_xorRegReg · a b)
  case xorLitReg l r => exact evolvesUnder_setReg (r := .acc) (v := fun s => (l ^^^ s.getReg r)) (exec_xorLitReg · l r)
  case subRegLit r l => exact evolvesUnder_setReg (r := .acc) (v := fun s => (s.getReg r - l)) (exec_subRegLit · r l)
  case incReg r => exact evolvesUnder_setReg (r := r) (v := fun s => (s.getReg r + 1)) (exec_incReg · r)
  case decReg r => exact evolvesUnder_setReg (r := r) (v := fun s => (s.getReg r - 1)) (exec_decReg · r)
  case lsfRegReg r n =>
    exact evolvesUnder_setReg (r := r) (v := fun s => (s.getReg r <<< shiftAmount s.cfg (s.getReg n)))
      (exec_lsfRegReg · r n)
  case lsfRegLit r n =>
    exact evolvesUnder_setReg (r := r) (v := fun s => (s.getReg r <<< shiftAmount s.cfg n))
      (exec_lsfRegLit · r n)
  case rsfRegReg r n =>
    exact evolvesUnder_setReg (r := r) (v := fun s => (s.getReg r >>> shiftAmount s.cfg (s.getReg n)))
      (exec_rsfRegReg · r n)
  case rsfRegLit r n =>
    exact evolvesUnder_setReg (r := r) (v := fun s => (s.getReg r >>> shiftAmount s.cfg n))
      (exec_rsfRegLit · r n)
  case not r => exact evolvesUnder_setReg (r := .acc) (v := fun s => (~~~s.getReg r)) (exec_not · r)

/-- What executing an instruction answers: the halted state for `HLT`, otherwise a state that evolved, with a fault record or
without. -/
theorem exec_cases (i : Instr) (s : State) : ∃ t, exec i s = .next t ∧
    ((i = .hlt ∧ t = (s.advance 1).halt) ∨ Evolves s t ∨ ∃ u x, Evolves s u ∧ t = u.recordFault x (s.getReg .ip)) := by
  by_cases hi : i = .hlt
  · subst hi
    exact ⟨_, rfl, .inl ⟨rfl, rfl⟩⟩
  · obtain ⟨f, e, he, hev⟩ := exec_evolvesUnder hi
    have h := (Evolves.advance s f.length).trans (hev (s.advance f.length))
    rw [he]
    rcases hr : e (s.advance f.length) with ⟨⟨⟩, u⟩ | ⟨x, u⟩ <;> rw [hr] at h
    · exact ⟨u, run_of_ok hr, .inr (.inl h)⟩
    · exact ⟨_, run_of_raised hr, .inr (.inr ⟨u, x, h, rfl⟩)⟩

/-! ### One transition -/

/-- A transition that answers was made under a well-formed configuration. -/
theorem wf_of_transition {m : HostMove} {s t : State} (h : transition m s = .next t) : s.cfg.wf = true := by
  by_contra hc
  cases m <;> simp [transition, step, hostInterrupt, hc] at h

/-- What a transition answers: the same state if the core is stopped; otherwise the effect of an executed `HLT`, or a state that
evolved, with a fault record or without. -/
theorem transition_cases (m : HostMove) {s : State} (hc : s.cfg.wf = true) : ∃ t, transition m s = .next t ∧
    ((s.stopped = true ∧ t = s) ∨ s.stopped = false ∧
      ((∃ u, m = .step ∧ fetchInstr s = .ok (some .hlt) u ∧ Evolves s u ∧
          t = ((u.rewind (s.getReg .ip)).advance 1).halt) ∨
        Evolves s t ∨ ∃ u x, Evolves s u ∧ t = u.recordFault x (s.getReg .ip))) := by
  cases hs : s.stopped with
  | true => cases m <;> exact ⟨s, by simp [transition, step, hostInterrupt, hc, hs], .inl ⟨rfl, rfl⟩⟩
  | false =>
    cases m with
    | interrupt v =>
      have h := Evolves.handleInterrupt v s
      rcases hr : handleInterrupt v s with ⟨⟨⟩, u⟩ | ⟨x, u⟩ <;> rw [hr] at h
      · exact ⟨u, by simp [transition, hostInterrupt, hc, hs, hr, finish], .inr ⟨rfl, .inr (.inl h)⟩⟩
      · exact ⟨_, by simp [transition, hostInterrupt, hc, hs, hr, finish], .inr ⟨rfl, .inr (.inr ⟨u, x, h, rfl⟩)⟩⟩
    | step =>
      have h := Evolves.fetchInstr s
      rcases hr : fetchInstr s with ⟨_ | i, u⟩ | ⟨x, u⟩ <;> rw [hr] at h
      · exact ⟨u, by simp [transition, step, stepRunning, hc, hs, hr], .inr ⟨rfl, .inr (.inl h)⟩⟩
      · have hu : Evolves s (u.rewind (s.getReg .ip)) := h.trans (Evolves.setReg _ _ _)
        obtain ⟨t, ht, hcase⟩ := exec_cases i (u.rewind (s.getReg .ip))
        refine ⟨t, by simp [transition, step, stepRunning, hc, hs, hr, ht], .inr ⟨rfl, ?_⟩⟩
        rcases hcase with ⟨rfl, rfl⟩ | h' | ⟨w, x, h', rfl⟩
        · exact .inl ⟨u, rfl, rfl, h, rfl⟩
        · exact .inr (.inl (hu.trans h'))
        · exact .inr (.inr ⟨w, x, hu.trans h', by simp⟩)
      · exact ⟨_, by simp [transition, step, stepRunning, hc, hs, hr], .inr ⟨rfl, .inr (.inr ⟨u, x, h, rfl⟩)⟩⟩

end Sys2Proof.Machine
end

