-- ==== Sys2Proof/Tests/Slice0.lean ====
section
/-!
SUPPORT. The model's own tests: the checks of WellFormed on ill-formed terms, a word of every instruction written out from
30_encoding.md, single steps whose results are those of 95_test_vectors.md, and for each statement with hypotheses a state that
meets them.
-/

namespace Sys2Proof.Tests

open Sys2Proof.Machine

/-! ### Small states -/

/-- A state with some registers and some bytes of memory set. -/
def edit (s : State) (regs : List (Reg × Word)) (mem : List (Word × List Byte)) : State :=
  mem.foldl (fun s e => s.placeBytes e.1 e.2) (regs.foldl (fun s e => s.setReg e.1 e.2) s)

/-- The start of the spec's vectors under a configuration: reset, the bytes at `ip = 0x0200`, then the row's own start. -/
def startIn (c : Config) (code : List Byte) (regs : List (Reg × Word)) (mem : List (Word × List Byte)) : State :=
  edit (State.construct c) ((.ip, 0x0200) :: regs) ((0x0200, code) :: mem)

/-- The same under the default parameters. -/
def start (code : List Byte) (regs : List (Reg × Word)) (mem : List (Word × List Byte)) : State :=
  startIn defaultConfig code regs mem

/-- An outcome is this next state. -/
def leads (o : Host.Outcome State Fault Refusal) (t : State) : Bool :=
  match o with
  | .next u => decide (u = t)
  | .fault _ | .refused _ => false

/-- An outcome is the refusal of an ill-formed configuration. -/
def refusesConfig (o : Host.Outcome State Fault Refusal) : Bool :=
  match o with
  | .next _ | .fault _ => false
  | .refused r => decide (r = .illFormedConfig)

/-- One step from a vector's start comes to exactly the vector's end: the start with the row's changes. -/
def vector (code : List Byte) (regs : List (Reg × Word)) (mem : List (Word × List Byte)) (regs' : List (Reg × Word))
    (mem' : List (Word × List Byte)) (more : State → State := id) : Bool :=
  leads (step (start code regs mem)) (more (edit (start code regs mem) regs' mem'))

/-- A region of a device with rebased addresses. -/
def region (device start size : Nat) : Region := { device := device, start := start, size := size, remap := true }

/-- The default parameters with other devices and regions. -/
def board (devices : List Device) (regions : List Region) : Config :=
  { defaultConfig with devices := devices, bootMap := regions }

/-- One RAM of 32 KiB at `0x0000`: addresses from `0x8000` are unmapped. -/
def halfRam : Config := board [.ram 0x8000] [region 0 0 0x8000]

/-- One RAM of 256 bytes in a region twice as large. -/
def smallRam : Config := board [.ram 0x100] [region 0 0 0x200]

/-- RAM everywhere, then a ROM of 4 KiB at `0x8000`. -/
def withRom : Config := board [.ram 0x10000, .rom 0x1000] [region 0 0 0x10000, region 1 0x8000 0x1000]

/-- RAM everywhere, then a ROM of 4 KiB at `0xF000`, under the stack. -/
def romStack : Config := board [.ram 0x10000, .rom 0x1000] [region 0 0 0x10000, region 1 0xF000 0x1000]

/-- RAM everywhere, then two banks of 256 bytes at `0x4000`, in a region twice as large. -/
def withBanks : Config := board [.ram 0x10000, .banked 2 0x100] [region 0 0 0x10000, region 1 0x4000 0x200]

/-- RAM everywhere, then an external device at `0x9000`. -/
def withExternal : Config := board [.ram 0x10000, .external] [region 0 0 0x10000, region 1 0x9000 0x100]

/-- RAM of 4 KiB at `0x0000` and at `0xF000`: the vector table is unmapped. -/
def noVectors : Config := board [.ram 0x1000, .ram 0x1000] [region 0 0 0x1000, region 1 0xF000 0x1000]

/-! ### Well-formedness: each check refuses an ill-formed term -/

theorem test_wf_default : defaultConfig.wf = true := by decide

theorem test_wf_boards :
    (halfRam.wf && smallRam.wf && withRom.wf && romStack.wf && withBanks.wf && withExternal.wf && noVectors.wf) = true := by decide

theorem test_wf_emptyRegion : (board [.ram 0x100] [region 0 0 0]).wf = false := by decide

theorem test_wf_regionEnd : (board [.ram 0x100] [region 0 0xFF00 0x101]).wf = false ∧
    (board [.ram 0x100] [region 0 0xFF00 0x100]).wf = true := by decide

theorem test_wf_regionDevice : (board [.ram 0x100] [region 1 0 0x100]).wf = false := by decide

theorem test_wf_noBanks : (board [.banked 0 0x100] []).wf = false := by decide

theorem test_wf_banksWithoutMb : ({ withBanks with hasMb := false } : Config).wf = false := by decide

theorem test_wf_vectorBase : ({ defaultConfig with ivtBase := 0xFFE1 } : Config).wf = false ∧
    ({ defaultConfig with ivtBase := 0xFFE0 } : Config).wf = true := by decide

theorem test_wf_shiftCountMod : ({ defaultConfig with shiftCountMod := 0 } : Config).wf = false := by decide

theorem test_wf_instr : (Instr.pshReg .mb).wf { defaultConfig with hasMb := false } = false ∧
    (Instr.pshReg .mb).wf defaultConfig = true ∧ (Instr.movRegReg .r1 .mb).wf { defaultConfig with hasMb := false } = false := by
  decide

theorem test_refused_config :
    refusesConfig (step (State.construct { defaultConfig with shiftCountMod := 0 })) = true := by decide

/-! ### Decoding: a word of every instruction, written out from 30_encoding.md R95 and R100 -/

/-- These bytes are this instruction, all of them. -/
def decodesTo (bs : List Byte) (i : Instr) : Bool := decide (decode defaultConfig bs = .ok i [])

theorem test_decode_dataMovement :
    (decodesTo [0x10, 0xBE, 0xEF, 0x04] (.movLitReg 0xBEEF .r3) &&
      decodesTo [0x11, 0x02, 0x03] (.movRegReg .r1 .r2) &&
      decodesTo [0x12, 0x02, 0x40, 0x00] (.movRegMem .r1 0x4000) &&
      decodesTo [0x13, 0x40, 0x01, 0x03] (.movMemReg 0x4001 .r2) &&
      decodesTo [0x1B, 0x12, 0x34, 0x40, 0x01] (.movLitMem 0x1234 0x4001) &&
      decodesTo [0x1C, 0x02, 0x03] (.movRegPtrReg .r1 .r2) &&
      decodesTo [0x1D, 0x40, 0x00, 0x02, 0x03] (.movLitOffReg 0x4000 .r1 .r2)) = true := by
  decide

theorem test_decode_arithmetic :
    (decodesTo [0x14, 0x02, 0x03] (.addRegReg .r1 .r2) &&
      decodesTo [0x3F, 0x01, 0x00, 0x04] (.addLitReg 0x0100 .r3) &&
      decodesTo [0x1F, 0x03, 0x02] (.subRegReg .r2 .r1) &&
      decodesTo [0x16, 0x00, 0x10, 0x02] (.subLitReg 0x0010 .r1) &&
      decodesTo [0x1E, 0x02, 0x00, 0x03] (.subRegLit .r1 0x0003) &&
      decodesTo [0x21, 0x02, 0x03] (.mulRegReg .r1 .r2) &&
      decodesTo [0x20, 0xFF, 0xFE, 0x02] (.mulLitReg 0xFFFE .r1) &&
      decodesTo [0x35, 0x00] (.incReg .ip) &&
      decodesTo [0x36, 0x0A] (.decReg .sp)) = true := by
  decide

theorem test_decode_shifts :
    (decodesTo [0x27, 0x02, 0x03] (.lsfRegReg .r1 .r2) &&
      decodesTo [0x26, 0x02, 0x00, 0x21] (.lsfRegLit .r1 0x0021) &&
      decodesTo [0x2B, 0x02, 0x03] (.rsfRegReg .r1 .r2) &&
      decodesTo [0x2A, 0x02, 0xFF, 0xFF] (.rsfRegLit .r1 0xFFFF)) = true := by
  decide

theorem test_decode_bitwise :
    (decodesTo [0x2F, 0x02, 0x03] (.andRegReg .r1 .r2) &&
      decodesTo [0x2E, 0x0F, 0x0E, 0x02] (.andLitReg 0x0F0E .r1) &&
      decodesTo [0x31, 0x02, 0x03] (.orRegReg .r1 .r2) &&
      decodesTo [0x30, 0x00, 0x0F, 0x02] (.orLitReg 0x000F .r1) &&
      decodesTo [0x33, 0x02, 0x03] (.xorRegReg .r1 .r2) &&
      decodesTo [0x32, 0xFF, 0xFE, 0x02] (.xorLitReg 0xFFFE .r1) &&
      decodesTo [0x34, 0x01] (.not .acc)) = true := by
  decide

theorem test_decode_jumpsOnLiterals :
    (decodesTo [0x15, 0x00, 0x03, 0x03, 0x00] (.jmpNotEq 0x0003 0x0300) &&
      decodesTo [0x41, 0x00, 0x03, 0x03, 0x00] (.jeqLit 0x0003 0x0300) &&
      decodesTo [0x43, 0x00, 0x03, 0x03, 0x00] (.jltLit 0x0003 0x0300) &&
      decodesTo [0x45, 0x00, 0x03, 0x03, 0x00] (.jgtLit 0x0003 0x0300) &&
      decodesTo [0x47, 0x00, 0x03, 0x03, 0x00] (.jleLit 0x0003 0x0300) &&
      decodesTo [0x49, 0x00, 0x03, 0x03, 0x00] (.jgeLit 0x0003 0x0300)) = true := by
  decide

theorem test_decode_jumpsOnRegisters :
    (decodesTo [0x40, 0x02, 0x03, 0x00] (.jneReg .r1 0x0300) &&
      decodesTo [0x3E, 0x02, 0x03, 0x00] (.jeqReg .r1 0x0300) &&
      decodesTo [0x42, 0x02, 0x03, 0x00] (.jltReg .r1 0x0300) &&
      decodesTo [0x44, 0x02, 0x03, 0x00] (.jgtReg .r1 0x0300) &&
      decodesTo [0x46, 0x02, 0x03, 0x00] (.jleReg .r1 0x0300) &&
      decodesTo [0x48, 0x02, 0x03, 0x00] (.jgeReg .r1 0x0300)) = true := by
  decide

theorem test_decode_stackAndCalls :
    (decodesTo [0x17, 0xAB, 0xCD] (.pshLit 0xABCD) &&
      decodesTo [0x18, 0x06] (.pshReg .r5) &&
      decodesTo [0x1A, 0x0A] (.pop .sp) &&
      decodesTo [0x5E, 0x03, 0x00] (.calLit 0x0300) &&
      decodesTo [0x5F, 0x0D] (.calReg .mb) &&
      decodesTo [0x60] (.ret)) = true := by
  decide

theorem test_decode_system :
    (decodesTo [0xFD, 0x00, 0x13] (.int 0x0013) &&
      decodesTo [0xFC] (.retInt) &&
      decodesTo [0xFF] (.hlt)) = true := by
  decide

/-- `fetchReg` by index: the bytes `0x00` to `0x0D` in the order of 10_state.md R20. -/
theorem test_decode_registers :
    ((List.range 15).map fun n => decodeReg defaultConfig (BitVec.ofNat 8 n)) =
      [some .ip, some .acc, some .r1, some .r2, some .r3, some .r4, some .r5, some .r6, some .r7, some .r8, some .sp,
        some .fp, some .im, some .mb, none] := by
  decide

/-- 98_reader.md and spec/opcode_table.json number the first byte lowest: `CAL_LIT` with operand bytes 0. -/
theorem test_decodeTableWord :
    decodeTableWord 8 0x5E = some (.calLit 0x0000) ∧ decodeTableWord 8 0x19 = none ∧
      decodeTableWord 24 0x34125E = some (.calLit 0x1234) := by
  decide

/-! ### Vectors: data movement (40_data_movement.md) -/

/-- V10: MOV_LIT_REG. -/
theorem test_v10_movLitReg : vector [0x10, 0xBE, 0xEF, 0x04] [] [] [(.ip, 0x0204), (.r3, 0xBEEF)] [] = true := by decide

/-- V11: MOV_LIT_REG to ip (jump). -/
theorem test_v11_movLitReg : vector [0x10, 0x03, 0x00, 0x00] [] [] [(.ip, 0x0300)] [] = true := by decide

/-- V14: MOV_REG_REG ip source. -/
theorem test_v14_movRegReg : vector [0x11, 0x00, 0x02] [] [] [(.ip, 0x0203), (.r1, 0x0203)] [] = true := by decide

/-- V15: MOV_REG_REG same register. -/
theorem test_v15_movRegReg : vector [0x11, 0x02, 0x02] [(.r1, 0x1234)] [] [(.ip, 0x0203)] [] = true := by decide

/-- V17: MOV_REG_MEM at 0xFFFE (last word). -/
theorem test_v17_movRegMem :
    vector [0x12, 0x02, 0xFF, 0xFE] [(.r1, 0xA1B2)] []
      [(.ip, 0x0204)] [(0xFFFE, [0xA1, 0xB2])] = true := by
  decide

/-- V18: MOV_REG_MEM at 0xFFFF. -/
theorem test_v18_movRegMem :
    vector [0x12, 0x02, 0xFF, 0xFF] [(.r1, 0xA1B2)] []
      [(.ip, 0x0204)] [] (·.recordFault (.addressOverflow 0xFFFF) 0x0200) = true := by
  decide

/-- V19: MOV_MEM_REG. -/
theorem test_v19_movMemReg :
    vector [0x13, 0x40, 0x00, 0x03] [] [(0x4000, [0xCA, 0xFE])]
      [(.ip, 0x0204), (.r2, 0xCAFE)] [] = true := by
  decide

/-- V20: MOV_MEM_REG odd address. -/
theorem test_v20_movMemReg :
    vector [0x13, 0x40, 0x01, 0x03] [] [(0x4000, [0xCA, 0xFE, 0x77])]
      [(.ip, 0x0204), (.r2, 0xFE77)] [] = true := by
  decide

/-- V21: MOV_LIT_MEM odd address. -/
theorem test_v21_movLitMem :
    vector [0x1B, 0x12, 0x34, 0x40, 0x01] [] []
      [(.ip, 0x0205)] [(0x4001, [0x12, 0x34])] = true := by
  decide

/-- V23: MOV_REG_PTR_REG S = D. -/
theorem test_v23_movRegPtrReg :
    vector [0x1C, 0x02, 0x02] [(.r1, 0x4000)] [(0x4000, [0x12, 0x34])]
      [(.ip, 0x0203), (.r1, 0x1234)] [] = true := by
  decide

/-- V24: MOV_REG_PTR_REG through ip (reads following bytes). -/
theorem test_v24_movRegPtrReg :
    vector [0x1C, 0x00, 0x02] [] [(0x0203, [0xAB, 0xCD])]
      [(.ip, 0x0203), (.r1, 0xABCD)] [] = true := by
  decide

/-- V26: MOV_LIT_OFF_REG O = D. -/
theorem test_v26_movLitOffReg :
    vector [0x1D, 0x40, 0x00, 0x02, 0x02] [(.r1, 0x0010)] [(0x4010, [0x77, 0x77])]
      [(.ip, 0x0205), (.r1, 0x7777)] [] = true := by
  decide

/-- V28: MOV_LIT_OFF_REG sum = 0xFFFF. -/
theorem test_v28_movLitOffReg :
    vector [0x1D, 0xFF, 0xF0, 0x02, 0x03] [(.r1, 0x000F)] []
      [(.ip, 0x0205)] [] (·.recordFault (.addressOverflow 0xFFFF) 0x0200) = true := by
  decide

/-! ### Vectors: arithmetic, shifts and bitwise (41_alu.md) -/

/-- V33: ADD_REG_REG wraps. -/
theorem test_v33_addRegReg :
    vector [0x14, 0x02, 0x03] [(.r1, 0xFFFF), (.r2, 0x0001)] []
      [(.ip, 0x0203), (.acc, 0x0000)] [] = true := by
  decide

/-- V34: ADD_REG_REG same register. -/
theorem test_v34_addRegReg :
    vector [0x14, 0x02, 0x02] [(.r1, 0x8001)] []
      [(.ip, 0x0203), (.acc, 0x0002)] [] = true := by
  decide

/-- V35: ADD_LIT_REG. -/
theorem test_v35_addLitReg :
    vector [0x3F, 0x01, 0x00, 0x04] [(.r3, 0x0007)] []
      [(.ip, 0x0204), (.acc, 0x0107)] [] = true := by
  decide

/-- V36: ADD_LIT_REG with acc operand. -/
theorem test_v36_addLitReg :
    vector [0x3F, 0x00, 0x01, 0x01] [(.acc, 0xFFFF)] []
      [(.ip, 0x0204), (.acc, 0x0000)] [] = true := by
  decide

/-- V37: SUB_REG_REG. -/
theorem test_v37_subRegReg :
    vector [0x1F, 0x02, 0x03] [(.r1, 0x0005), (.r2, 0x0003)] []
      [(.ip, 0x0203), (.acc, 0x0002)] [] = true := by
  decide

/-- V38: SUB_REG_REG underflow. -/
theorem test_v38_subRegReg :
    vector [0x1F, 0x03, 0x02] [(.r1, 0x0005), (.r2, 0x0003)] []
      [(.ip, 0x0203), (.acc, 0xFFFE)] [] = true := by
  decide

/-- V40: SUB_LIT_REG (literal minus register). -/
theorem test_v40_subLitReg :
    vector [0x16, 0x00, 0x10, 0x02] [(.r1, 0x0003)] []
      [(.ip, 0x0204), (.acc, 0x000D)] [] = true := by
  decide

/-- V41: SUB_LIT_REG literal 0 negates. -/
theorem test_v41_subLitReg :
    vector [0x16, 0x00, 0x00, 0x02] [(.r1, 0x0001)] []
      [(.ip, 0x0204), (.acc, 0xFFFF)] [] = true := by
  decide

/-- V42: SUB_REG_LIT (register minus literal). -/
theorem test_v42_subRegLit :
    vector [0x1E, 0x02, 0x00, 0x03] [(.r1, 0x0010)] []
      [(.ip, 0x0204), (.acc, 0x000D)] [] = true := by
  decide

/-- V43: SUB_REG_LIT underflow. -/
theorem test_v43_subRegLit :
    vector [0x1E, 0x02, 0x00, 0x01] [(.r1, 0x0000)] []
      [(.ip, 0x0204), (.acc, 0xFFFF)] [] = true := by
  decide

/-- V44: MUL_REG_REG. -/
theorem test_v44_mulRegReg :
    vector [0x21, 0x02, 0x03] [(.r1, 0x0012), (.r2, 0x0034)] []
      [(.ip, 0x0203), (.acc, 0x03A8)] [] = true := by
  decide

/-- V45: MUL_REG_REG high half lost. -/
theorem test_v45_mulRegReg :
    vector [0x21, 0x02, 0x03] [(.r1, 0x0100), (.r2, 0x0100)] []
      [(.ip, 0x0203), (.acc, 0x0000)] [] = true := by
  decide

/-- V46: MUL_LIT_REG 0xFFFF*0xFFFF. -/
theorem test_v46_mulLitReg :
    vector [0x20, 0xFF, 0xFF, 0x02] [(.r1, 0xFFFF)] []
      [(.ip, 0x0204), (.acc, 0x0001)] [] = true := by
  decide

/-- V49: INC_REG wraps. -/
theorem test_v49_incReg : vector [0x35, 0x02] [(.r1, 0xFFFF)] [] [(.ip, 0x0202), (.r1, 0x0000)] [] = true := by decide

/-- V50: INC_REG ip (skips one byte). -/
theorem test_v50_incReg : vector [0x35, 0x00] [] [] [(.ip, 0x0203)] [] = true := by decide

/-- V51: DEC_REG wraps. -/
theorem test_v51_decReg : vector [0x36, 0x02] [(.r1, 0x0000)] [] [(.ip, 0x0202), (.r1, 0xFFFF)] [] = true := by decide

/-- V52: DEC_REG sp. -/
theorem test_v52_decReg : vector [0x36, 0x0A] [] [] [(.ip, 0x0202), (.sp, 0xFFFD)] [] = true := by decide

/-- V54: LSF_REG_REG by 16. -/
theorem test_v54_lsfRegReg :
    vector [0x27, 0x02, 0x03] [(.r1, 0xFFFF), (.r2, 0x0010)] []
      [(.ip, 0x0203), (.r1, 0x0000)] [] = true := by
  decide

/-- V55: LSF_REG_REG count and value same register. -/
theorem test_v55_lsfRegReg :
    vector [0x27, 0x02, 0x02] [(.r1, 0x0004)] []
      [(.ip, 0x0203), (.r1, 0x0040)] [] = true := by
  decide

/-- V57: LSF_REG_LIT by 32 (count mod 32 = 0). -/
theorem test_v57_lsfRegLit :
    vector [0x26, 0x02, 0x00, 0x20] [(.r1, 0x1234)] []
      [(.ip, 0x0204), (.r1, 0x1234)] [] = true := by
  decide

/-- V58: LSF_REG_LIT by 33. -/
theorem test_v58_lsfRegLit :
    vector [0x26, 0x02, 0x00, 0x21] [(.r1, 0x1234)] []
      [(.ip, 0x0204), (.r1, 0x2468)] [] = true := by
  decide

/-- V59: RSF_REG_REG. -/
theorem test_v59_rsfRegReg :
    vector [0x2B, 0x02, 0x03] [(.r1, 0x1234), (.r2, 0x0008)] []
      [(.ip, 0x0203), (.r1, 0x0012)] [] = true := by
  decide

/-- V60: RSF_REG_REG logical. -/
theorem test_v60_rsfRegReg :
    vector [0x2B, 0x02, 0x03] [(.r1, 0x8000), (.r2, 0x000F)] []
      [(.ip, 0x0203), (.r1, 0x0001)] [] = true := by
  decide

/-- V61: RSF_REG_LIT. -/
theorem test_v61_rsfRegLit :
    vector [0x2A, 0x02, 0x00, 0x04] [(.r1, 0xF000)] []
      [(.ip, 0x0204), (.r1, 0x0F00)] [] = true := by
  decide

/-- V62: RSF_REG_LIT by 0xFFFF (mod 32 = 31). -/
theorem test_v62_rsfRegLit :
    vector [0x2A, 0x02, 0xFF, 0xFF] [(.r1, 0xF000)] []
      [(.ip, 0x0204), (.r1, 0x0000)] [] = true := by
  decide

/-- V63: AND_REG_REG. -/
theorem test_v63_andRegReg :
    vector [0x2F, 0x02, 0x03] [(.r1, 0xFF00), (.r2, 0x0FF0)] []
      [(.ip, 0x0203), (.acc, 0x0F00)] [] = true := by
  decide

/-- V64: AND_LIT_REG. -/
theorem test_v64_andLitReg :
    vector [0x2E, 0x0F, 0x0F, 0x02] [(.r1, 0x0F00)] []
      [(.ip, 0x0204), (.acc, 0x0F00)] [] = true := by
  decide

/-- V66: OR_REG_REG. -/
theorem test_v66_orRegReg :
    vector [0x31, 0x02, 0x03] [(.r1, 0xFF00), (.r2, 0x0FF0)] []
      [(.ip, 0x0203), (.acc, 0xFFF0)] [] = true := by
  decide

/-- V67: OR_LIT_REG. -/
theorem test_v67_orLitReg :
    vector [0x30, 0x00, 0x0F, 0x02] [(.r1, 0x00F0)] []
      [(.ip, 0x0204), (.acc, 0x00FF)] [] = true := by
  decide

/-- V68: XOR_LIT_REG. -/
theorem test_v68_xorLitReg :
    vector [0x32, 0xFF, 0xFF, 0x02] [(.r1, 0x1234)] []
      [(.ip, 0x0204), (.acc, 0xEDCB)] [] = true := by
  decide

/-- V69: XOR_REG_REG. -/
theorem test_v69_xorRegReg :
    vector [0x33, 0x02, 0x03] [(.r1, 0xFF00), (.r2, 0x0FF0)] []
      [(.ip, 0x0203), (.acc, 0xF0F0)] [] = true := by
  decide

/-- V71: NOT. -/
theorem test_v71_not : vector [0x34, 0x02] [(.r1, 0x1234)] [] [(.ip, 0x0202), (.acc, 0xEDCB)] [] = true := by decide

/-- V72: NOT acc. -/
theorem test_v72_not : vector [0x34, 0x01] [(.acc, 0x0000)] [] [(.ip, 0x0202), (.acc, 0xFFFF)] [] = true := by decide

/-! ### Vectors: conditional jumps (42_branch.md) -/

/-- V74: JMP_NOT_EQ V=5, acc=5. -/
theorem test_v74_jmpNotEq :
    vector [0x15, 0x00, 0x05, 0x03, 0x00] [(.acc, 0x0005)] []
      [(.ip, 0x0205)] [] = true := by
  decide

/-- V75: JMP_NOT_EQ V=7, acc=5. -/
theorem test_v75_jmpNotEq :
    vector [0x15, 0x00, 0x07, 0x03, 0x00] [(.acc, 0x0005)] []
      [(.ip, 0x0300)] [] = true := by
  decide

/-- V77: JEQ_LIT V=5, acc=5. -/
theorem test_v77_jeqLit :
    vector [0x41, 0x00, 0x05, 0x03, 0x00] [(.acc, 0x0005)] []
      [(.ip, 0x0300)] [] = true := by
  decide

/-- V78: JEQ_LIT V=7, acc=5. -/
theorem test_v78_jeqLit :
    vector [0x41, 0x00, 0x07, 0x03, 0x00] [(.acc, 0x0005)] []
      [(.ip, 0x0205)] [] = true := by
  decide

/-- V80: JLT_LIT V=5, acc=5. -/
theorem test_v80_jltLit :
    vector [0x43, 0x00, 0x05, 0x03, 0x00] [(.acc, 0x0005)] []
      [(.ip, 0x0205)] [] = true := by
  decide

/-- V110: JLT_LIT unsigned: 0xFFFF < 1 false. -/
theorem test_v110_jltLit :
    vector [0x43, 0xFF, 0xFF, 0x03, 0x00] [(.acc, 0x0001)] []
      [(.ip, 0x0205)] [] = true := by
  decide

/-- V83: JGT_LIT V=5, acc=5. -/
theorem test_v83_jgtLit :
    vector [0x45, 0x00, 0x05, 0x03, 0x00] [(.acc, 0x0005)] []
      [(.ip, 0x0205)] [] = true := by
  decide

/-- V111: JGT_LIT unsigned: 0xFFFF > 1 true. -/
theorem test_v111_jgtLit :
    vector [0x45, 0xFF, 0xFF, 0x03, 0x00] [(.acc, 0x0001)] []
      [(.ip, 0x0300)] [] = true := by
  decide

/-- V86: JLE_LIT V=5, acc=5. -/
theorem test_v86_jleLit :
    vector [0x47, 0x00, 0x05, 0x03, 0x00] [(.acc, 0x0005)] []
      [(.ip, 0x0300)] [] = true := by
  decide

/-- V87: JLE_LIT V=7, acc=5. -/
theorem test_v87_jleLit :
    vector [0x47, 0x00, 0x07, 0x03, 0x00] [(.acc, 0x0005)] []
      [(.ip, 0x0205)] [] = true := by
  decide

/-- V88: JGE_LIT V=3, acc=5. -/
theorem test_v88_jgeLit :
    vector [0x49, 0x00, 0x03, 0x03, 0x00] [(.acc, 0x0005)] []
      [(.ip, 0x0205)] [] = true := by
  decide

/-- V89: JGE_LIT V=5, acc=5. -/
theorem test_v89_jgeLit :
    vector [0x49, 0x00, 0x05, 0x03, 0x00] [(.acc, 0x0005)] []
      [(.ip, 0x0300)] [] = true := by
  decide

/-- V91: JNE_REG r1=3, acc=5. -/
theorem test_v91_jneReg :
    vector [0x40, 0x02, 0x03, 0x00] [(.acc, 0x0005), (.r1, 0x0003)] []
      [(.ip, 0x0300)] [] = true := by
  decide

/-- V92: JNE_REG r1=5, acc=5. -/
theorem test_v92_jneReg :
    vector [0x40, 0x02, 0x03, 0x00] [(.acc, 0x0005), (.r1, 0x0005)] []
      [(.ip, 0x0204)] [] = true := by
  decide

/-- V95: JEQ_REG r1=5, acc=5. -/
theorem test_v95_jeqReg :
    vector [0x3E, 0x02, 0x03, 0x00] [(.acc, 0x0005), (.r1, 0x0005)] []
      [(.ip, 0x0300)] [] = true := by
  decide

/-- V96: JEQ_REG r1=7, acc=5. -/
theorem test_v96_jeqReg :
    vector [0x3E, 0x02, 0x03, 0x00] [(.acc, 0x0005), (.r1, 0x0007)] []
      [(.ip, 0x0204)] [] = true := by
  decide

/-- V97: JLT_REG r1=3, acc=5. -/
theorem test_v97_jltReg :
    vector [0x42, 0x02, 0x03, 0x00] [(.acc, 0x0005), (.r1, 0x0003)] []
      [(.ip, 0x0300)] [] = true := by
  decide

/-- V98: JLT_REG r1=5, acc=5. -/
theorem test_v98_jltReg :
    vector [0x42, 0x02, 0x03, 0x00] [(.acc, 0x0005), (.r1, 0x0005)] []
      [(.ip, 0x0204)] [] = true := by
  decide

/-- V101: JGT_REG r1=5, acc=5. -/
theorem test_v101_jgtReg :
    vector [0x44, 0x02, 0x03, 0x00] [(.acc, 0x0005), (.r1, 0x0005)] []
      [(.ip, 0x0204)] [] = true := by
  decide

/-- V102: JGT_REG r1=7, acc=5. -/
theorem test_v102_jgtReg :
    vector [0x44, 0x02, 0x03, 0x00] [(.acc, 0x0005), (.r1, 0x0007)] []
      [(.ip, 0x0300)] [] = true := by
  decide

/-- V104: JLE_REG r1=5, acc=5. -/
theorem test_v104_jleReg :
    vector [0x46, 0x02, 0x03, 0x00] [(.acc, 0x0005), (.r1, 0x0005)] []
      [(.ip, 0x0300)] [] = true := by
  decide

/-- V105: JLE_REG r1=7, acc=5. -/
theorem test_v105_jleReg :
    vector [0x46, 0x02, 0x03, 0x00] [(.acc, 0x0005), (.r1, 0x0007)] []
      [(.ip, 0x0204)] [] = true := by
  decide

/-- V106: JGE_REG r1=3, acc=5. -/
theorem test_v106_jgeReg :
    vector [0x48, 0x02, 0x03, 0x00] [(.acc, 0x0005), (.r1, 0x0003)] []
      [(.ip, 0x0204)] [] = true := by
  decide

/-- V107: JGE_REG r1=5, acc=5. -/
theorem test_v107_jgeReg :
    vector [0x48, 0x02, 0x03, 0x00] [(.acc, 0x0005), (.r1, 0x0005)] []
      [(.ip, 0x0300)] [] = true := by
  decide

/-! ### Vectors: stack and calls (43_stack_call.md) -/

/-- V113: PSH_LIT. -/
theorem test_v113_pshLit :
    vector [0x17, 0xAB, 0xCD] [] []
      [(.ip, 0x0203), (.sp, 0xFFFC)] [(0xFFFE, [0xAB, 0xCD])] (·.setSfs 0x0002) = true := by
  decide

/-- V115: PSH_LIT with sp = 0x0000 (wraps). -/
theorem test_v115_pshLit :
    vector [0x17, 0xAB, 0xCD] [(.sp, 0x0000)] []
      [(.ip, 0x0203), (.sp, 0xFFFE)] [(0x0000, [0xAB, 0xCD])] (·.setSfs 0x0002) = true := by
  decide

/-- V118: PSH_REG sp (value before decrement). -/
theorem test_v118_pshReg :
    vector [0x18, 0x0A] [] []
      [(.ip, 0x0202), (.sp, 0xFFFC)] [(0xFFFE, [0xFF, 0xFE])] (·.setSfs 0x0002) = true := by
  decide

/-- V119: PSH_REG ip (next instruction address). -/
theorem test_v119_pshReg :
    vector [0x18, 0x00] [] []
      [(.ip, 0x0202), (.sp, 0xFFFC)] [(0xFFFE, [0x02, 0x02])] (·.setSfs 0x0002) = true := by
  decide

/-- V125: POP with sp = 0xFFFD (reads at 0xFFFF). -/
theorem test_v125_pop :
    vector [0x1A, 0x02] [(.sp, 0xFFFD)] []
      [(.ip, 0x0202), (.sp, 0xFFFF)] [] (·.recordFault (.addressOverflow 0xFFFF) 0x0200) = true := by
  decide

/-- V127: CAL_LIT. -/
theorem test_v127_calLit :
    vector [0x5E, 0x03, 0x00] [(.r1, 0x1111), (.r8, 0x8888)] []
      [(.ip, 0x0300), (.sp, 0xFFEA), (.fp, 0xFFEA)]
      [(0xFFEC, [0x00, 0x14, 0x02, 0x03, 0x88, 0x88, 0x00, 0x00, 0x00, 0x00, 0x00, 0x00, 0x00, 0x00, 0x00, 0x00,
        0x00, 0x00, 0x11, 0x11])] = true := by
  decide

/-- V128: CAL_REG. -/
theorem test_v128_calReg :
    vector [0x5F, 0x03] [(.r2, 0x0400)] []
      [(.ip, 0x0400), (.sp, 0xFFEA), (.fp, 0xFFEA)]
      [(0xFFEC, [0x00, 0x14, 0x02, 0x02, 0x00, 0x00, 0x00, 0x00, 0x00, 0x00, 0x00, 0x00, 0x00, 0x00, 0x00, 0x00,
        0x04, 0x00, 0x00, 0x00])] = true := by
  decide

/-- V129: CAL_REG sp (target read before the pushes). -/
theorem test_v129_calReg :
    vector [0x5F, 0x0A] [] []
      [(.ip, 0xFFFE), (.sp, 0xFFEA), (.fp, 0xFFEA)] [(0xFFEC, [0x00, 0x14, 0x02, 0x02])] = true := by
  decide

/-- V136: RET with no frame (from reset, zero RAM). -/
theorem test_v136_ret :
    vector [0x60] [] []
      [(.ip, 0x0000), (.sp, 0x0014), (.fp, 0xFFFE)] [] (·.setSfs 0xFFEC) = true := by
  decide

/-! ### Vectors: interrupts and halt (44_system.md) -/

/-- V138: INT $0003. -/
theorem test_v138_int :
    vector [0xFD, 0x00, 0x03] [(.r1, 0x1111)] [(0x1006, [0x03, 0x00])]
      [(.ip, 0x0300), (.sp, 0xFFE8), (.fp, 0xFFE8)]
      [(0xFFEA, [0x00, 0x16, 0x02, 0x03, 0x00, 0x00, 0x00, 0x00, 0x00, 0x00, 0x00, 0x00, 0x00, 0x00, 0x00, 0x00,
        0x00, 0x00, 0x11, 0x11, 0x00, 0x00])] (·.setInHandler true) = true := by
  decide

/-- V145: RET_INT with no frame (from reset, zero RAM). -/
theorem test_v145_retInt :
    vector [0xFC] [] []
      [(.ip, 0x0000), (.sp, 0x0014), (.fp, 0xFFFE)] [] (·.setSfs 0xFFEC) = true := by
  decide

/-- V147: HLT. -/
theorem test_v147_hlt : vector [0xFF] [] [] [(.ip, 0x0201)] [] (·.halt) = true := by decide

/-! ### Vectors: operand and opcode bytes (30_encoding.md) -/

/-- V29: invalid register byte 0x0E (check). -/
theorem test_v29_invalidRegister :
    vector [0x10, 0x12, 0x34, 0x0E] [] []
      [(.ip, 0x0204)] [] (·.recordFault (.invalidRegister 0xE) 0x0200) = true := by
  decide

/-- V31: MOV_REG_REG first byte invalid. -/
theorem test_v31_invalidFirst :
    vector [0x11, 0x20, 0x02] [] []
      [(.ip, 0x0202)] [] (·.recordFault (.invalidRegister 0x20) 0x0200) = true := by
  decide

/-- V149: unknown opcode 0x00 (STRICT_OPCODES = false). -/
theorem test_v149_unknownOpcode : vector [0x00] [] [] [(.ip, 0x0201)] [] = true := by decide

/-! ### Vectors that need more than a row's registers and bytes -/

/-- V30: register byte `0x0F` with `REG_INDEX_MODE = modulo` is `15 mod 14 = 1`, `acc`. -/
theorem test_v30_modulo :
    let s := startIn { defaultConfig with regIndexMode := .modulo } [0x10, 0x12, 0x34, 0x0F] [] []
    leads (step s) (edit s [(.ip, 0x0204), (.acc, 0x1234)] []) = true := by decide

/-- V122: POP sp, with `sfs = 2` before. -/
theorem test_v122_pop :
    let s := (start [0x1A, 0x0A] [(.sp, 0xFFFC)] [(0xFFFE, [0x80, 0x00])]).setSfs 2
    leads (step s) ((edit s [(.ip, 0x0202), (.sp, 0x8000)] []).setSfs 0) = true := by decide

/-- V130: CAL_LIT with `sfs = 6`: the frame size word is `0x001A`. -/
theorem test_v130_calLit :
    let s := (start [0x5E, 0x03, 0x00] [(.sp, 0xFFF8)] []).setSfs 6
    leads (step s) ((edit s [(.ip, 0x0300), (.sp, 0xFFE4), (.fp, 0xFFE4)] [(0xFFE6, [0x00, 0x1A, 0x02, 0x03])]).setSfs 0) =
      true := by decide

/-- The `RET` of V131: the frame, its count word 0, and the residue `sfs = 2`. -/
theorem test_v131_ret :
    let s := start [0x60] [(.sp, 0xFFE8), (.fp, 0xFFE8)] [(0xFFEA, [0x00, 0x16, 0x02, 0x06])]
    leads (step s) ((edit s [(.ip, 0x0206), (.sp, 0xFFFE), (.fp, 0xFFFE)] []).setSfs 2) = true := by decide

/-- V142: INT while in_handler saves no frame. -/
theorem test_v142_int :
    let s := (start [0xFD, 0x00, 0x03] [] [(0x1006, [0x03, 0x00])]).setInHandler true
    leads (step s) (edit s [(.ip, 0x0300)] []) = true := by decide

/-- V146: RET_INT while in_handler, no frame. -/
theorem test_v146_retInt :
    let s := (start [0xFC] [] []).setInHandler true
    leads (step s) (((edit s [(.ip, 0x0000), (.sp, 0x0014), (.fp, 0xFFFE)] []).setSfs 0xFFEC).setInHandler false) = true := by
  decide

/-- V148: a step after HLT does nothing. -/
theorem test_v148_hlt :
    let s := (start [0xFF] [(.ip, 0x0201)] []).halt
    leads (step s) s = true := by decide

/-- V150: unknown opcode `0x00` with `STRICT_OPCODES`. -/
theorem test_v150_strict :
    let s := startIn { defaultConfig with strictOpcodes := true } [0x00] [] []
    leads (step s) ((edit s [(.ip, 0x0201)] []).recordFault (.illegalOpcode 0x00) 0x0200) = true := by decide

/-- V152: host request, line 3. -/
theorem test_v152_request :
    let s := start [] [(.r1, 0x1111)] [(0x1006, [0x03, 0x00])]
    leads (hostInterrupt 3 s) ((edit s [(.ip, 0x0300), (.sp, 0xFFE8), (.fp, 0xFFE8)]
      [(0xFFEA, [0x00, 0x16, 0x02, 0x00]), (0xFFFC, [0x11, 0x11])]).setInHandler true) = true := by decide

/-- V153, V154: host requests while masked and while halted change nothing. -/
theorem test_v153_v154_request :
    let s := start [] [(.im, 0x0000)] [(0x1006, [0x03, 0x00])]
    let h := (start [] [] [(0x1006, [0x03, 0x00])]).halt
    leads (hostInterrupt 3 s) s = true ∧ leads (hostInterrupt 3 h) h = true := by decide

/-- V155: the request value `0x0103` is line 3. -/
theorem test_v155_request :
    let s := start [] [] [(0x1006, [0x03, 0x00])]
    leads (hostInterrupt 0x0103 s) ((edit s [(.ip, 0x0300), (.sp, 0xFFE8), (.fp, 0xFFE8)]
      [(0xFFEA, [0x00, 0x16, 0x02, 0x00])]).setInHandler true) = true := by decide

/-- V158: unmapped vector table: the frame stays, with `in_handler` set and `ip` past the `INT`. -/
theorem test_v158_int :
    let s := startIn noVectors [0xFD, 0x00, 0x03] [] []
    leads (step s) (((edit s [(.ip, 0x0203), (.sp, 0xFFE8), (.fp, 0xFFE8)]
      [(0xFFEA, [0x00, 0x16, 0x02, 0x03])]).setInHandler true).recordFault (.unmappedAddress 0x1006) 0x0200) = true := by
  decide +kernel

/-- 60_exceptions.md R250: the six codes, and the report of V29, of V158 and of a machine without a fault. -/
theorem test_faultReport :
    ([.unmappedAddress 0, .invalidRegister 0, .deviceRange 0, .addressOverflow 0, .deviceError 0, .illegalOpcode 0].map
      Fault.code) = [1, 2, 3, 4, 5, 6] ∧
    (match step (start [0x10, 0x12, 0x34, 0x0E] [] []) with
      | .next t => decide (t.faultReport = some (2, 0x0200, 0x0E)) | .fault _ | .refused _ => false) = true ∧
    (match step (startIn noVectors [0xFD, 0x00, 0x03] [] []) with
      | .next t => decide (t.faultReport = some (1, 0x0200, 0x1006)) | .fault _ | .refused _ => false) = true ∧
    State.reset.faultReport = none := by decide +kernel

/-- V159: fetch from an unmapped address. -/
theorem test_v159_fetch :
    let s := startIn halfRam [] [(.ip, 0x8000)] []
    leads (step s) (s.recordFault (.unmappedAddress 0x8000) 0x8000) = true := by decide

/-- V160: operand word straddling the end of a RAM. -/
theorem test_v160_fetch :
    let s := startIn halfRam [] [(.ip, 0x7FFE)] [(0x7FFE, [0x10, 0x12])]
    leads (step s) ((edit s [(.ip, 0x7FFF)] []).recordFault (.deviceRange 0x7FFF) 0x7FFE) = true := by decide

/-- V161: load from an unmapped address. -/
theorem test_v161_movMemReg :
    let s := startIn halfRam [0x13, 0x90, 0x00, 0x02] [] []
    leads (step s) ((edit s [(.ip, 0x0204)] []).recordFault (.unmappedAddress 0x9000) 0x0200) = true := by decide

/-- V162: store straddling the end of a RAM: no partial store. -/
theorem test_v162_movLitMem :
    let s := startIn halfRam [0x1B, 0x12, 0x34, 0x7F, 0xFF] [] []
    leads (step s) ((edit s [(.ip, 0x0205)] []).recordFault (.deviceRange 0x7FFF) 0x0200) = true := by decide

/-- V163: push with `sp` unmapped. -/
theorem test_v163_pshLit :
    let s := startIn halfRam [0x17, 0x00, 0x01] [] []
    leads (step s) ((edit s [(.ip, 0x0203)] []).recordFault (.unmappedAddress 0xFFFE) 0x0200) = true := by decide

/-- V164: a ROM write is ignored, and a load of it reads what the host loaded. -/
theorem test_v164_rom :
    let s := startIn withRom [0x1B, 0x12, 0x34, 0x80, 0x00] [] [(0x8000, [0xAA, 0xBB])]
    let t := startIn withRom [0x13, 0x80, 0x00, 0x02] [] [(0x8000, [0xAA, 0xBB])]
    leads (step s) (edit s [(.ip, 0x0205)] []) = true ∧
      leads (step t) (edit t [(.ip, 0x0204), (.r1, 0xAABB)] []) = true := by decide +kernel

/-- V165: a push into a ROM moves `sp` and `sfs` and stores nothing. -/
theorem test_v165_rom :
    let s := startIn romStack [0x17, 0x55, 0x55] [] []
    leads (step s) ((edit s [(.ip, 0x0203), (.sp, 0xFFFC)] []).setSfs 2) = true := by decide +kernel

/-- V167, V168: `remap = false` presents the address itself to the device. -/
theorem test_v167_v168_remap :
    let c (size : Nat) := board [.ram 0x10000, .ram size] [region 0 0 0x10000, ⟨1, 0x4000, 0x100, false⟩]
    let s (size : Nat) := startIn (c size) [0x1B, 0x12, 0x34, 0x40, 0x10] [] []
    leads (step (s 0x10000)) ((edit (s 0x10000) [(.ip, 0x0205)] []).setMem
      (((s 0x10000).mem.write (cellKey 1 0 0x4010) 0x12).write (cellKey 1 0 0x4011) 0x34)) = true ∧
    leads (step (s 0x100)) ((edit (s 0x100) [(.ip, 0x0205)] []).recordFault (.deviceRange 0x4010) 0x0200) = true := by decide

/-- V170: bank index `mb mod N`: `mb = 3` selects bank 1 of 2, which `mb = 1` reads. -/
theorem test_v170_banks :
    let s := startIn withBanks [0x1B, 0x77, 0x77, 0x40, 0x10] [(.mb, 3)] []
    let t := s.setMem ((s.mem.write (cellKey 1 1 0x10) 0x77).write (cellKey 1 1 0x11) 0x77)
    leads (step s) (edit t [(.ip, 0x0205)] []) = true ∧ (t.setReg .mb 1).wordAt 0x4010 = 0x7777 ∧
      (t.setReg .mb 0).wordAt 0x4010 = 0x0000 := by decide

/-- V171: `fetch16` at `0xFFFF`. -/
theorem test_v171_fetch :
    let s := start [] [(.ip, 0xFFFE)] [(0xFFFE, [0x10])]
    leads (step s) ((edit s [(.ip, 0xFFFF)] []).recordFault (.addressOverflow 0xFFFF) 0xFFFE) = true := by decide

/-- V172, V173: `ip` wraps after an instruction that ends at `0xFFFF`. -/
theorem test_v172_v173_wrap :
    let s := start [] [(.ip, 0xFFFF)] []
    let t := start [] [(.ip, 0xFFFC)] [(0xFFFC, [0x10, 0x12, 0x34, 0x02])]
    leads (step s) (edit s [(.ip, 0x0000)] []) = true ∧
      leads (step t) (edit t [(.ip, 0x0000), (.r1, 0x1234)] []) = true := by decide

/-- 10_state.md R20, R22, R25: a register file without `mb` has no name and no index for it. -/
theorem test_withoutMb :
    let c := { defaultConfig with hasMb := false }
    (match hostGet "mb" (State.construct c) with | .ok _ => false | .error _ => true) = true ∧
      decodeReg c 0x0D = none ∧ decodeReg { c with regIndexMode := .modulo } 0x0D = some .ip := by decide

/-- 20_memory.md R70, 70_reset_and_hazards.md R283: a mapper load is discarded by a ROM, a device load is not, and a load
that faults refuses the boot. -/
theorem test_boot :
    (match boot withRom [.mapped 0x8000 [0xAA]] with | .ready s => decide (s.mem = []) | .refused _ => false) = true ∧
    (match boot withRom [.device 1 0 0 [0xAA]] with
      | .ready s => decide (s.mem = [(cellKey 1 0 0, 0xAA)]) | .refused _ => false) = true ∧
    (match boot halfRam [.mapped 0x7FFF [1, 2]] with
      | .ready _ => false | .refused e => decide (e = .loadFault (.unmappedAddress 0x8000))) = true := by decide

/-! ### States that meet the hypotheses of the statements -/

theorem of_leads {o : Host.Outcome State Fault Refusal} {t : State} (h : leads o t = true) : o = .next t := by
  cases o <;> simp_all [leads]

theorem witness_DecodeEncode :
    defaultConfig.opcodeMap = opcodeTable ∧ (Instr.pop .mb).wf defaultConfig = true ∧
      (Instr.pop .im).wf { defaultConfig with hasMb := false } = true := by decide

theorem witness_DecodedInstructionIsWellFormed : decode defaultConfig [0x60, 0xFF] = .ok .ret [0xFF] := by decide

/-- The highest register index, the lowest index beyond it, and that index in modulo mode. -/
theorem witness_RegisterByte :
    (let s := start [0x0D] [] []
     s.byteCell (s.getReg .ip).toNat = some 0x200 ∧ (s.mem.read 0x200).toNat < s.cfg.nreg) ∧
    (let s := start [0x0E] [] []
     s.byteCell (s.getReg .ip).toNat = some 0x200 ∧ s.cfg.nreg ≤ (s.mem.read 0x200).toNat ∧ s.cfg.regIndexMode = .check) ∧
    (let s := startIn { defaultConfig with regIndexMode := .modulo } [0x0E] [] []
     s.byteCell (s.getReg .ip).toNat = some 0x200 ∧ s.cfg.nreg ≤ (s.mem.read 0x200).toNat ∧ s.cfg.regIndexMode = .modulo) := by
  decide

/-- Five bytes that end at `0xFFFF`. -/
def lastCode : State := start [] [(.ip, 0xFFFB)] [(0xFFFB, [0x1B, 0x12, 0x34, 0x40, 0x01])]

theorem witness_StepRunsDecoded :
    lastCode.cfg.wf = true ∧ lastCode.stopped = false ∧
      lastCode.holdsCode (lastCode.getReg .ip).toNat [0x1B, 0x12, 0x34, 0x40, 0x01] ∧
      decode lastCode.cfg [0x1B, 0x12, 0x34, 0x40, 0x01] = .ok (.movLitMem 0x1234 0x4001) [] ∧
      fetchInstr lastCode = .ok (some (.movLitMem 0x1234 0x4001)) (lastCode.setReg .ip 0x0000) := by
  refine ⟨by decide, by decide, ⟨by decide, region 0 0 0x10000, fun j h => ?_⟩, by decide, by decide⟩
  match j, h with
  | 0, _ => exact ⟨by decide, 0xFFFB, by decide, (by decide : lastCode.mem.read 0xFFFB = 0x1B)⟩
  | 1, _ => exact ⟨by decide, 0xFFFC, by decide, (by decide : lastCode.mem.read 0xFFFC = 0x12)⟩
  | 2, _ => exact ⟨by decide, 0xFFFD, by decide, (by decide : lastCode.mem.read 0xFFFD = 0x34)⟩
  | 3, _ => exact ⟨by decide, 0xFFFE, by decide, (by decide : lastCode.mem.read 0xFFFE = 0x40)⟩
  | 4, _ => exact ⟨by decide, 0xFFFF, by decide, (by decide : lastCode.mem.read 0xFFFF = 0x01)⟩

theorem witness_StoppedCoreIdles :
    State.reset.halt.cfg.wf = true ∧ State.reset.halt.halted = true ∧
      (State.reset.recordFault (.deviceRange 0) 0).cfg.wf = true ∧ (State.reset.recordFault (.deviceRange 0) 0).fault ≠ none := by
  decide

theorem witness_TransitionsAnswer : State.reset.cfg.wf = true := by decide

/-- Each condition of 00_scope.md R6 broken alone. -/
theorem witness_IllFormedConfigRefused (c : Config)
    (hc : c = board [.ram 0x100] [region 0 0 0] ∨ c = board [.ram 0x100] [region 0 0xFF01 0x100] ∨
      c = board [.banked 0 0x100] [] ∨ c = { withBanks with hasMb := false } ∨ c = { defaultConfig with ivtBase := 0xFFE1 } ∨
      c = { defaultConfig with shiftCountMod := 0 }) :
    ¬ ((∀ g ∈ c.bootMap, 1 ≤ g.size ∧ g.start + g.size ≤ 0x10000) ∧
      (∀ count size, Device.banked count size ∈ c.devices → 1 ≤ count ∧ c.hasMb = true) ∧
      c.ivtBase.toNat + 31 ≤ 0xFFFF ∧ 1 ≤ c.shiftCountMod) := by
  rintro ⟨h1, h2, h3, h4⟩
  rcases hc with rfl | rfl | rfl | rfl | rfl | rfl
  · exact absurd (h1 (region 0 0 0) (by decide)) (by decide)
  · exact absurd (h1 (region 0 0xFF01 0x100) (by decide)) (by decide)
  · exact absurd (h2 0 0x100 (by decide)) (by decide)
  · exact absurd (h2 2 0x100 (by decide)) (by decide)
  · exact absurd h3 (by decide)
  · exact absurd h4 (by decide)

theorem witness_UnknownOpcode :
    (let s := start [0x19] [] []
     s.cfg.wf = true ∧ s.stopped = false ∧ s.byteCell (s.getReg .ip).toNat = some 0x200 ∧
       s.cfg.opOf (s.mem.read 0x200) = none ∧ s.cfg.strictOpcodes = false) ∧
    (let s := startIn { defaultConfig with strictOpcodes := true } [0x19] [] []
     s.cfg.wf = true ∧ s.stopped = false ∧ s.byteCell (s.getReg .ip).toNat = some 0x200 ∧
       s.cfg.opOf (s.mem.read 0x200) = none ∧ s.cfg.strictOpcodes = true) := by decide

/-- The opcode byte unmapped; the opcode byte the first beyond its buffer. -/
theorem witness_FetchFaults_opcode :
    (let s := startIn halfRam [] [(.ip, 0x8000)] []
     s.cfg.wf = true ∧ s.stopped = false ∧ s.byteFault (s.getReg .ip).toNat = some (.unmappedAddress 0x8000)) ∧
    (let s := startIn smallRam [] [(.ip, 0x0100)] []
     s.cfg.wf = true ∧ s.stopped = false ∧ s.byteFault (s.getReg .ip).toNat = some (.deviceRange 0x100)) := by decide

/-- The hypotheses of `FetchFaults` on an operand: the opcode byte is this one's, the operands before are fetched, this one
faults. -/
def operandFaults (s : State) (op : Op) (before : List OperandKind) (kind : OperandKind) (after : List OperandKind) (f : Fault)
    (n : Nat) : Bool :=
  let a := s.getReg .ip
  s.cfg.wf && !s.stopped &&
  (match s.byteCell a.toNat with | some k => decide (s.cfg.opOf (s.mem.read k) = some op) | none => false) &&
  decide (op.format.operands = before ++ kind :: after) && s.operandsRead (a + 1) before &&
  decide (s.operandFault (a + 1 + BitVec.ofNat 16 (operandsLength before)) kind = some (f, n))

/-- The first operand: a register byte unmapped, beyond its buffer, and the lowest index that is no register's. -/
theorem witness_FetchFaults_register :
    operandFaults (startIn halfRam [] [(.ip, 0x7FFF)] [(0x7FFF, [0x18])]) .pshReg [] .reg [] (.unmappedAddress 0x8000) 0 = true ∧
    operandFaults (startIn smallRam [] [(.ip, 0x00FF)] [(0x00FF, [0x18])]) .pshReg [] .reg [] (.deviceRange 0x100) 0 = true ∧
    operandFaults (start [0x18, 0x0E] [] []) .pshReg [] .reg [] (.invalidRegister 0x0E) 1 = true := by decide

/-- The first operand: a word unmapped, beyond its buffer, and at `0xFFFF`. -/
theorem witness_FetchFaults_word :
    operandFaults (startIn halfRam [] [(.ip, 0x7FFF)] [(0x7FFF, [0x17])]) .pshLit [] .lit [] (.unmappedAddress 0x8000) 0 = true ∧
    operandFaults (startIn halfRam [] [(.ip, 0x7FFE)] [(0x7FFE, [0x17])]) .pshLit [] .lit [] (.deviceRange 0x7FFF) 0 = true ∧
    operandFaults (start [] [(.ip, 0xFFFE)] [(0xFFFE, [0x17])]) .pshLit [] .lit [] (.addressOverflow 0xFFFF) 0 = true := by decide

/-- Later operands: the register after a literal (V29), after a register, after both; a literal after a register or a
literal, at `0xFFFF` and unmapped; a register byte beyond its buffer. -/
theorem witness_FetchFaults_later :
    operandFaults (start [0x10, 0x12, 0x34, 0x0E] [] []) .movLitReg [.lit] .reg [] (.invalidRegister 0x0E) 1 = true ∧
    operandFaults (start [0x1F, 0x02, 0x0E] [] []) .subRegReg [.reg] .reg [] (.invalidRegister 0x0E) 1 = true ∧
    operandFaults (start [0x1D, 0x40, 0x00, 0x02, 0x0E] [] []) .movLitOffReg [.lit, .reg] .reg [] (.invalidRegister 0x0E) 1 =
      true ∧
    operandFaults (start [] [(.ip, 0xFFFD)] [(0xFFFD, [0x1E, 0x02])]) .subRegLit [.reg] .lit [] (.addressOverflow 0xFFFF) 0 =
      true ∧
    operandFaults (startIn halfRam [] [(.ip, 0x7FFD)] [(0x7FFD, [0x1B, 0x12, 0x34])]) .movLitMem [.lit] .lit []
      (.unmappedAddress 0x8000) 0 = true ∧
    operandFaults (startIn smallRam [] [(.ip, 0x00FE)] [(0x00FE, [0x1F, 0x02])]) .subRegReg [.reg] .reg [] (.deviceRange 0x100) 0 =
      true := by decide

theorem witness_RegionShadowing :
    findRegion withRom 0x7FFF = some (region 0 0 0x10000) ∧ findRegion withRom 0x8000 = some (region 1 0x8000 0x1000) ∧
      findRegion withRom 0x8FFF = some (region 1 0x8000 0x1000) ∧ findRegion withRom 0x9000 = some (region 0 0 0x10000) := by
  decide

theorem witness_UnmappedAccess :
    findRegion (State.construct halfRam).cfg 0x8000 = none ∧ findRegion (State.construct halfRam).cfg 0xFFFF = none := by decide

theorem witness_BigEndianWord :
    let s := State.construct halfRam
    s.byteCell 0x7FFE = some 0x7FFE ∧ s.wordCell 0x7FFE = some 0x7FFE ∧ s.byteCell (0x7FFE + 1) = some (0x7FFE + 1) ∧
      s.romAt 0x7FFE = false := by decide

/-- A byte of the ROM, and an offset beyond it. -/
theorem witness_RomDiscardsWrites :
    (State.construct withRom).romAt 0x8000 = true ∧
      (State.construct (board [.rom 0x100] [region 0 0 0x200])).romAt 0x100 = true := by decide

/-- The last byte of a buffer, where only the word access is out of range, and the byte after it. -/
theorem witness_AccessesOutOfRange :
    let s := State.construct (board [.ram 0x100] [region 0 0 0x200])
    s.resolve 0xFF = some ⟨0, 0xFF, .buffer 0 0x100 true⟩ ∧ s.resolve 0x100 = some ⟨0, 0x100, .buffer 0 0x100 true⟩ := by
  decide

/-- The offsets `0xFE` (both bytes inside), `0xFF` (one) and `0x100` (none) of a bank. -/
theorem witness_BankSelection :
    let s := State.construct withBanks
    findRegion s.cfg 0x40FE = some (region 1 0x4000 0x200) ∧ findRegion s.cfg 0x40FF = some (region 1 0x4000 0x200) ∧
      findRegion s.cfg 0x4100 = some (region 1 0x4000 0x200) ∧ s.cfg.devices[1]? = some (.banked 2 0x100) ∧
      regionOffset (region 1 0x4000 0x200) 0x40FE = 0xFE ∧ regionOffset (region 1 0x4000 0x200) 0x40FF = 0xFF ∧
      regionOffset (region 1 0x4000 0x200) 0x4100 = 0x100 := by decide

theorem witness_ExternalAccess :
    (State.construct withExternal).resolve 0x9000 = some ⟨1, 0, .external⟩ ∧
      (State.construct withExternal).resolve 0x90FF = some ⟨1, 0xFF, .external⟩ := by decide

/-- A state with a store that meets the invariant, and what its step comes to. -/
def pushing : State := start [0x17, 0xAB, 0xCD] [] []

theorem pushing_storeInv : pushing.storeInv := by
  refine ⟨by decide, fun e he => ?_⟩
  have hm : pushing.mem = [(0x200, 0x17), (0x201, 0xAB), (0x202, 0xCD)] := by decide
  rw [hm] at he
  simp only [List.mem_cons, List.not_mem_nil, or_false] at he
  rcases he with rfl | rfl | rfl
  · exact ⟨0, 0, 0x200, 0x10000, by decide, by decide, by decide, by decide, by decide⟩
  · exact ⟨0, 0, 0x201, 0x10000, by decide, by decide, by decide, by decide, by decide⟩
  · exact ⟨0, 0, 0x202, 0x10000, by decide, by decide, by decide, by decide, by decide⟩

theorem witness_TransitionsKeepStore :
    pushing.storeInv ∧
      transition .step pushing =
        .next ((edit pushing [(.ip, 0x0203), (.sp, 0xFFFC)] [(0xFFFE, [0xAB, 0xCD])]).setSfs 2) :=
  ⟨pushing_storeInv, of_leads (by decide)⟩

/-- A sound state with a transition; a machine booted with `HLT` at `0x0000`; and that machine stepped, halted without a
fault. -/
theorem witness_ReachableStatesAreSound :
    (pushing.sound ∧ ∃ t, transition .step pushing = .next t) ∧
    boot defaultConfig [.mapped 0 [0xFF]] = .ready (edit State.reset [] [(0x0000, [0xFF])]) ∧
    Reachable (edit State.reset [(.ip, 0x0001)] [(0x0000, [0xFF])]).halt := by
  have hb : boot defaultConfig [.mapped 0 [0xFF]] = .ready (edit State.reset [] [(0x0000, [0xFF])]) := by decide
  exact ⟨⟨⟨by decide, pushing_storeInv, by decide⟩, _, witness_TransitionsKeepStore.2⟩, hb,
    .move (m := .step) (.boot hb) (of_leads (by decide))⟩

theorem witness_ConfigAndRomAreFixed :
    (let s := startIn withRom [0x1B, 0x12, 0x34, 0x80, 0x00] [] []
     transition .step s = .next (edit s [(.ip, 0x0205)] []) ∧ cellInRom s.cfg (cellKey 1 0 0)) := by
  exact ⟨of_leads (by decide +kernel), 1, 0x1000, 0, by decide, by decide, rfl⟩

/-- A fault of a fetch, of an interrupt's vector read and of an instruction. -/
theorem witness_FaultRecord :
    (let s := startIn halfRam [] [(.ip, 0x8000)] []
     s.cfg.wf = true ∧ s.stopped = false ∧ fetchInstr s = .raised (.unmappedAddress 0x8000) s ∧ s.fault = none ∧
       transition .step s = .next (s.recordFault (.unmappedAddress 0x8000) 0x8000) ∧
       (s.recordFault (.unmappedAddress 0x8000) 0x8000).fault ≠ none) ∧
    (let s := (startIn noVectors [] [] []).setInHandler true
     s.cfg.wf = true ∧ s.stopped = false ∧ handleInterrupt 3 s = .raised (.unmappedAddress 0x1006) s) ∧
    (let s := start [] [] []
     memWrite16 0xFFFF 0 (s.advance Format.litMem.length) = .raised (.addressOverflow 0xFFFF) (s.advance 5)) := by
  exact ⟨⟨by decide, by decide, by decide, by decide, of_leads (by decide), by decide⟩, by decide, by decide⟩

theorem witness_InHandlerRule :
    (let s := start [] [] []
     interruptEnabled 3 s = true ∧ s.inHandler = false ∧
       handleInterrupt 3 s = .ok () ((edit s [(.ip, 0x0000), (.sp, 0xFFE8), (.fp, 0xFFE8)]
         [(0xFFEA, [0x00, 0x16, 0x02, 0x00])]).setInHandler true)) ∧
    (let s := (start [] [] []).setInHandler true
     interruptEnabled 3 s = true ∧ s.inHandler = true ∧ handleInterrupt 3 s = .ok () (s.setReg .ip 0x0000)) ∧
    (let s := (start [0xFC] [] []).setInHandler true
     s.inHandler = true ∧
       transition .step s =
         .next (((edit s [(.ip, 0x0000), (.sp, 0x0014), (.fp, 0xFFFE)] []).setSfs 0xFFEC).setInHandler false) ∧
       exec .retInt s =
         .next (((edit s [(.ip, 0x0000), (.sp, 0x0014), (.fp, 0xFFFE)] []).setSfs 0xFFEC).setInHandler false)) ∧
    (let s := start [0x60] [] []
     exec .ret s = .next ((edit s [(.ip, 0x0000), (.sp, 0x0014), (.fp, 0xFFFE)] []).setSfs 0xFFEC)) := by
  exact ⟨by decide, by decide, ⟨by decide, of_leads (by decide), of_leads (by decide)⟩, of_leads (by decide)⟩

theorem witness_OnlyHltHalts :
    let s := start [0xFF] [] []
    s.halted = false ∧ exec .hlt s = .next (s.setReg .ip 0x0201).halt ∧ (s.setReg .ip 0x0201).halt.halted = true ∧
      transition .step s = .next (s.setReg .ip 0x0201).halt := by
  exact ⟨by decide, of_leads (by decide), by decide, of_leads (by decide)⟩

theorem witness_ExternalCallsOnlyGrow :
    transition (.interrupt 3) (start [] [(.im, 0x0000)] []) = .next (start [] [(.im, 0x0000)] []) := of_leads (by decide)

theorem witness_RegistersWritten :
    let s := start [] [(.sp, 0xFFFC)] [(0xFFFE, [0x13, 0x57])]
    exec (.pop .r1) s = .next ((edit s [(.ip, 0x0202), (.r1, 0x1357), (.sp, 0xFFFE)] []).setSfs 0xFFFE) ∧
      Reg.acc ∉ writesOf (.pop .r1) := by
  exact ⟨of_leads (by decide), by decide⟩

/-- One instruction without a store, one without a push or pop, one that is neither `INT` nor `RET_INT`. -/
theorem witness_MemoryAndHiddenFrame :
    (let s := start [] [] []
     exec .ret s = .next ((edit s [(.ip, 0x0000), (.sp, 0x0014), (.fp, 0xFFFE)] []).setSfs 0xFFEC) ∧ mayStore .ret = false ∧
       (∀ v, Instr.ret ≠ .int v) ∧ Instr.ret ≠ .retInt) ∧
    (let s := start [] [] []
     exec (.movLitMem 0x1234 0x4001) s = .next (edit s [(.ip, 0x0205)] [(0x4001, [0x12, 0x34])]) ∧
       usesStack (.movLitMem 0x1234 0x4001) = false) := by
  exact ⟨⟨of_leads (by decide), by decide, nofun, nofun⟩, of_leads (by decide), by decide⟩

theorem witness_FrameRelation :
    let s := start [] [] []
    let t := (edit s [(.sp, 0xFFFC)] [(0xFFFE, [0x12, 0x34])]).setSfs 2
    push 0x1234 s = .ok () t ∧ s.frameInv ∧ pop t = .ok 0x1234 ((t.setReg .sp 0xFFFE).setSfs 0) ∧ t.frameInv ∧
      pushState s = .ok () (edit s [(.sp, 0xFFEA), (.fp, 0xFFEA)] [(0xFFEC, [0x00, 0x14, 0x02, 0x00])]) := by
  refine ⟨by decide, ?_, by decide, ?_, by decide⟩ <;> unfold State.frameInv <;> decide

/-- The last word of the address space, and a ROM. -/
theorem witness_StoreWord :
    (State.reset.romAt 0xFFFE = false ∧ State.reset.wordCell 0xFFFE = some 0xFFFE) ∧
      (State.construct withRom).romAt 0x8000 = true := by decide

theorem witness_LoadWord :
    let s := start [] [(.r1, 0xFFFE)] []
    s.wordCell 0xFFFE = some 0xFFFE ∧ s.wordCell (operand 3 s .r1).toNat = some 0xFFFE ∧
      s.wordCell (operand 3 s .ip).toNat = some 0x0203 := by decide

/-- The sums `0xFFFE`, `0xFFFF` and `0x10000`. -/
theorem witness_LoadWithOffset :
    (let s := start [] [(.r1, 0x000E)] []
     (0xFFF0 : Word).toNat + (operand 5 s .r1).toNat ≤ 0xFFFF ∧
       s.wordCell ((0xFFF0 : Word).toNat + (operand 5 s .r1).toNat) = some 0xFFFE) ∧
    (let s := start [] [(.r1, 0x000F)] []
     (0xFFF0 : Word).toNat + (operand 5 s .r1).toNat ≤ 0xFFFF ∧
       s.wordFault false ((0xFFF0 : Word).toNat + (operand 5 s .r1).toNat) = some (.addressOverflow 0xFFFF)) ∧
    (let s := start [] [(.r1, 0x0010)] []
     0xFFFF < (0xFFF0 : Word).toNat + (operand 5 s .r1).toNat) := by decide

theorem witness_DataAccessTraps :
    let s := startIn halfRam [] [(.r1, 0x8000)] []
    s.wordFault true 0xFFFF = some (.addressOverflow 0xFFFF) ∧ s.wordFault false 0x7FFF = some (.deviceRange 0x7FFF) ∧
      s.wordFault true 0x7FFF = some (.deviceRange 0x7FFF) ∧
      s.wordFault false (operand 3 s .r1).toNat = some (.unmappedAddress 0x8000) := by decide

/-- The device's second byte from the top as the address of a load, a store, a push and a pop. -/
theorem witness_ExternalLoadAndStore :
    let s := startIn withExternal [] [(.r1, 0x90FE), (.r2, 0x00FE), (.sp, 0x90FE)] []
    let t := startIn withExternal [] [(.sp, 0x90FC)] []
    (0x90FE : Word) ≠ 0xFFFF ∧ s.resolve (0x90FE : Word).toNat = some ⟨1, 0xFE, .external⟩ ∧ operand 3 s .r1 = 0x90FE ∧
      (0x9000 : Word).toNat + (operand 5 s .r2).toNat = (0x90FE : Word).toNat ∧ s.getReg .sp = 0x90FE ∧
      t.resolve (0x90FE : Word).toNat = some ⟨1, 0xFE, .external⟩ ∧ t.getReg .sp + 2 = 0x90FE := by decide

theorem witness_StoreThenLoad :
    let s := start [] [(.r1, 0xA1B2)] []
    let t := edit s [(.ip, 0x0204)] [(0xFFFE, [0xA1, 0xB2])]
    s.romAt 0xFFFE = false ∧ s.wordCell 0xFFFE = some 0xFFFE ∧ exec (.movRegMem .r1 0xFFFE) s = .next t ∧
      t.wordCell 0xFFFE = some 0xFFFE := by
  exact ⟨by decide, by decide, of_leads (by decide), by decide⟩

/-- RAM, the last word of the address space, and a ROM. -/
theorem witness_PushWord :
    State.reset.storable (State.reset.getReg .sp).toNat = true ∧
      (State.construct romStack).storable ((State.construct romStack).getReg .sp).toNat = true := by decide +kernel

/-- `sp` on the last word, whose pop wraps to `0x0000`. -/
theorem witness_PopWord : State.reset.wordCell (State.reset.getReg .sp + 2).toNat = some 0 := by decide

/-- A caller one pushed count word below the top of memory. -/
def calling : State := (start [0x5E, 0x03, 0x00] [(.sp, 0xFFFC), (.r1, 0x1111)] []).setSfs 2

/-- The same after the call. -/
def called : State :=
  (edit calling [(.ip, 0x0300), (.sp, 0xFFE8), (.fp, 0xFFE8)]
    [(0xFFEA, [0x00, 0x16, 0x02, 0x03]), (0xFFFC, [0x11, 0x11])]).setSfs 0

theorem witness_Call :
    calling.pushable (calling.getReg .sp) 10 = true ∧ (calling.pushedCells (calling.getReg .sp) 10).length = 20 ∧
      (calling.pushedCells (calling.getReg .sp) 10).Nodup ∧ exec (.calLit 0x0300) calling = .next called ∧
      (State.construct romStack).pushable ((State.construct romStack).getReg .sp) 10 = true := by
  exact ⟨by decide, by decide, by decide, of_leads (by decide), by decide +kernel⟩

/-- A frame with a count word of 1. -/
theorem witness_Return :
    let s := start [0x60] [(.fp, 0xFFE6)] [(0xFFE8, [0x00, 0x18, 0x02, 0x06]), (0xFFFC, [0x00, 0x01])]
    s.popped (s.getReg .fp) 10 = 1 ∧ s.poppable (s.getReg .fp) (11 + (s.popped (s.getReg .fp) 10).toNat) = true := by decide

theorem witness_CallThenReturn :
    (calling.pushedCells (calling.getReg .sp) 10).length = 20 ∧ (calling.pushedCells (calling.getReg .sp) 10).Nodup ∧
      exec (.calLit 0x0300) calling = .next called ∧ (called.popped (calling.getReg .sp) 0).toNat = 0 ∧
      called.poppable (called.getReg .fp) (11 + (called.popped (calling.getReg .sp) 0).toNat) = true ∧ calling.frameInv := by
  refine ⟨by decide, by decide, of_leads (by decide), by decide, by decide, ?_⟩
  unfold State.frameInv
  decide

theorem witness_PushThenPop :
    State.reset.romAt (State.reset.getReg .sp).toNat = false ∧
      (State.reset.wordCell (State.reset.getReg .sp).toNat).isSome = true ∧
      push 0x1234 State.reset = .ok () ((edit State.reset [(.sp, 0xFFFC)] [(0xFFFE, [0x12, 0x34])]).setSfs 2) := by decide

theorem witness_StackAccessTraps :
    let s := startIn halfRam [] [(.sp, 0xFFFF), (.fp, 0xFFFD)] []
    let t := startIn halfRam [] [(.sp, 0x7FFD)] []
    s.wordFault true (s.getReg .sp).toNat = some (.addressOverflow 0xFFFF) ∧
      s.wordFault false (s.getReg .fp + 2).toNat = some (.addressOverflow 0xFFFF) ∧
      t.wordFault false (t.getReg .sp + 2).toNat = some (.deviceRange 0x7FFF) := by decide

/-- Push number `n` from this `sp` is the first to fault, at the unmapped address below `0xF000`, and the pushes before it
write different bytes. -/
def brokenPushes (sp : Word) (n : Nat) : Bool :=
  let s := startIn noVectors [] [(.sp, sp)] []
  s.pushable (s.getReg .sp) n &&
  decide (s.wordFault true (s.getReg .sp - BitVec.ofNat 16 (2 * n)).toNat = some (.unmappedAddress 0xEFFE)) &&
  decide ((s.pushedCells (s.getReg .sp) n).length = 2 * n) && decide (s.pushedCells (s.getReg .sp) n).Nodup

/-- The first, the second and the last push of a call's frame faults. -/
theorem witness_StackAccessTraps_laterPush :
    (brokenPushes 0xEFFE 0 && brokenPushes 0xF000 1 && brokenPushes 0xF010 9) = true := by decide +kernel

/-- Pop number `n` from a frame at this `fp` is the first to fault, at the unmapped address `0x8000`; `args` is the count
word. -/
def brokenPops (fp : Word) (n args : Nat) (mem : List (Word × List Byte)) : Bool :=
  let s := startIn halfRam [] [(.fp, fp)] mem
  decide ((s.popped (s.getReg .fp) 10).toNat = args) && decide (n < 11 + (s.popped (s.getReg .fp) 10).toNat) &&
  s.poppable (s.getReg .fp) n &&
  decide (s.wordFault false (s.getReg .fp + BitVec.ofNat 16 (2 * n + 2)).toNat = some (.unmappedAddress 0x8000))

/-- The pop of the frame size, of `ip`, of `r1`, of the count word and of the one argument word faults. -/
theorem witness_StackAccessTraps_laterPop :
    (brokenPops 0x7FFE 0 0 [] && brokenPops 0x7FFC 1 0 [] && brokenPops 0x7FEC 9 0 [] && brokenPops 0x7FEA 10 0 [] &&
      brokenPops 0x7FE8 11 1 [(0x7FFE, [0x00, 0x01])]) = true := by decide +kernel

/-- The start of V138 and its end. -/
def interrupted : State := start [0xFD, 0x00, 0x03] [(.r1, 0x1111)] [(0x1006, [0x03, 0x00])]

/-- The handler's first state. -/
def handling : State :=
  (edit interrupted [(.ip, 0x0300), (.sp, 0xFFE8), (.fp, 0xFFE8)]
    [(0xFFEA, [0x00, 0x16, 0x02, 0x03]), (0xFFFC, [0x11, 0x11])]).setInHandler true

theorem witness_InterruptEntry :
    interruptEnabled 3 interrupted = true ∧ interrupted.inHandler = false ∧
      interrupted.pushable (interrupted.getReg .sp) 11 = true ∧ vectorReadable 3 interrupted = true ∧
      interrupted.cfg.wf = true ∧ interrupted.stopped = false ∧
      (interrupted.pushedCells (interrupted.getReg .sp) 11).length = 22 ∧
      (interrupted.pushedCells (interrupted.getReg .sp) 11).Nodup ∧ exec (.int 3) interrupted = .next handling := by
  exact ⟨by decide, by decide, by decide, by decide, by decide, by decide, by decide, by decide, of_leads (by decide)⟩

/-- The highest line, inside a handler. -/
theorem witness_NestedInterrupt :
    let s := (start [] [(.im, 0x8000)] []).setInHandler true
    interruptEnabled 0x000F s = true ∧ s.inHandler = true ∧ vectorReadable 0x000F s = true ∧ s.cfg.wf = true ∧
      s.stopped = false := by decide

theorem witness_MaskedInterrupt :
    let s := start [] [(.im, 0xFFF7)] []
    (s.getReg .im).getLsbD ((0x0013 : Word).toNat % 16) = false ∧ s.cfg.wf = true ∧ s.stopped = false := by decide

/-- The first push faults; the vector read faults inside a handler, and outside one after a frame of different bytes. -/
theorem witness_InterruptEntryTraps :
    (let s := start [] [(.sp, 0xFFFF)] []
     interruptEnabled 3 s = true ∧ s.inHandler = false ∧ s.cfg.wf = true ∧ s.stopped = false ∧
       s.wordFault true (s.getReg .sp).toNat = some (.addressOverflow 0xFFFF)) ∧
    (let s := (startIn noVectors [] [] []).setInHandler true
     interruptEnabled 3 s = true ∧ s.inHandler = true ∧ s.cfg.wf = true ∧ s.stopped = false ∧
       s.wordFault false (s.cfg.ivtBase.toNat + 2 * ((3 : Word).toNat % 16)) = some (.unmappedAddress 0x1006)) ∧
    (let s := startIn noVectors [] [] []
     interruptEnabled 3 s = true ∧ s.inHandler = false ∧ s.cfg.wf = true ∧ s.stopped = false ∧
       s.pushable (s.getReg .sp) 11 = true ∧
       s.wordFault false (s.cfg.ivtBase.toNat + 2 * ((3 : Word).toNat % 16)) = some (.unmappedAddress 0x1006) ∧
       (s.pushedCells (s.getReg .sp) 11).length = 22 ∧ (s.pushedCells (s.getReg .sp) 11).Nodup) := by
  decide +kernel

/-- The second and the last push of an interrupt's frame faults, with line 3 enabled outside a handler. -/
theorem witness_InterruptEntryTraps_laterPush :
    (brokenPushes 0xF000 1 && brokenPushes 0xF012 10) = true ∧
    (let s := startIn noVectors [] [(.sp, 0xF000)] []
     interruptEnabled 3 s = true ∧ s.inHandler = false ∧ s.cfg.wf = true ∧ s.stopped = false) ∧
    (let s := startIn noVectors [] [(.sp, 0xF012)] []
     interruptEnabled 3 s = true ∧ s.inHandler = false ∧ s.cfg.wf = true ∧ s.stopped = false) := by decide +kernel

theorem witness_InterruptThenReturn :
    interruptEnabled 3 interrupted = true ∧ interrupted.inHandler = false ∧ vectorReadable 3 interrupted = true ∧
      (interrupted.pushedCells (interrupted.getReg .sp) 11).length = 22 ∧
      (interrupted.pushedCells (interrupted.getReg .sp) 11).Nodup ∧ exec (.int 3) interrupted = .next handling ∧
      interrupted.frameInv := by
  refine ⟨by decide, by decide, by decide, by decide, by decide, of_leads (by decide), ?_⟩
  unfold State.frameInv
  decide

theorem witness_Halt : State.reset.cfg.wf = true := by decide

theorem witness_LaunchPremises :
    defaultConfig.wf = true ∧ boot defaultConfig [.mapped 0 [0xFF]] = .ready (edit State.reset [] [(0x0000, [0xFF])]) ∧
      defaultConfig.resetSp = defaultConfig.resetFp := by decide

/-- A known name, `mb` where the register file has it, an unknown name, and `mb` where it has not. -/
theorem witness_HostRegisterAccess :
    "acu" ∈ ["ip", "acc", "acu", "r1", "r2", "r3", "r4", "r5", "r6", "r7", "r8", "sp", "fp", "im"] ∧
      State.reset.cfg.hasMb = true ∧
      "r9" ∉ ["ip", "acc", "acu", "r1", "r2", "r3", "r4", "r5", "r6", "r7", "r8", "sp", "fp", "im"] ∧
      (State.construct { defaultConfig with hasMb := false }).cfg.hasMb = false := by decide

end Sys2Proof.Tests
end

section
/-!
PROOFS. The statements of 00_scope.md's family: what a transition can do to a state, read off `transition_cases`; sound states
and the runs through them (70_reset_and_hazards.md R288, R289); the conditions of R6 and what refuses where one is broken; what
a fault records (60_exceptions.md R251) and what a boot leaves (70_reset_and_hazards.md R281, R284).
-/

namespace Sys2Proof.Machine

/-! ### One transition, read backwards -/

theorem State.stopped_eq_false {s : State} : s.stopped = false ↔ s.halted = false ∧ s.fault = none := by
  simp [State.stopped]

/-- A stopped core stays as it is (10_state.md R37). -/
theorem transition_of_stopped (m : HostMove) {s : State} (hc : s.cfg.wf = true) (hs : s.stopped = true) :
    transition m s = .next s := by
  cases m <;> simp [transition, step, hostInterrupt, hc, hs]

/-- A transition changes nothing, or the core was running and reached a state that evolved: as it is, halted, or with a fault
recorded at the address `ip` had. -/
theorem eq_or_evolves_of_transition {m : HostMove} {s t : State} (h : transition m s = .next t) :
    t = s ∨ s.stopped = false ∧
      ∃ u, Evolves s u ∧ (t = u ∨ t = u.halt ∨ ∃ x, t = u.recordFault x (s.getReg .ip)) := by
  obtain ⟨t', ht', hcase⟩ := transition_cases m (wf_of_transition h)
  obtain rfl : t = t' := by simpa [h] using ht'
  obtain ⟨-, rfl⟩ | ⟨hs, hlt | hev | hraise⟩ := hcase
  · exact .inl rfl
  · obtain ⟨u, -, -, hu, rfl⟩ := hlt
    exact .inr ⟨hs, _, (hu.trans (Evolves.setReg _ _ _)).trans (Evolves.advance _ 1), .inr (.inl rfl)⟩
  · exact .inr ⟨hs, t, hev, .inl rfl⟩
  · obtain ⟨u, x, hu, rfl⟩ := hraise
    exact .inr ⟨hs, u, hu, .inr (.inr ⟨x, rfl⟩)⟩

/-! ### Sound states -/

theorem State.sound.of_evolves {s t : State} (hs : s.sound) (h : Evolves s t) : t.sound := by
  obtain ⟨hc, hstore, hhalt⟩ := hs
  exact ⟨by rw [h.cfg]; exact hc, h.store hc hstore, by rw [h.halted, h.fault]; exact hhalt⟩

theorem State.sound.halt {s : State} (hs : s.sound) (hf : s.fault = none) : s.halt.sound := by
  obtain ⟨hc, hstore, -⟩ := hs
  exact ⟨hc, hstore, fun _ => hf⟩

theorem State.sound.recordFault {s : State} (hs : s.sound) (hh : s.halted = false) (f : Fault) (w : Word) :
    (s.recordFault f w).sound := by
  obtain ⟨hc, hstore, -⟩ := hs
  exact ⟨hc, hstore, by simp [hh]⟩

/-- The step lemma: only a core that runs, neither halted nor faulted, is halted or gets a fault record. -/
theorem State.sound.of_transition {m : HostMove} {s t : State} (hs : s.sound) (h : transition m s = .next t) :
    t.sound := by
  obtain rfl | ⟨hrun, u, hev, hcase⟩ := eq_or_evolves_of_transition h
  · exact hs
  obtain ⟨hh, hf⟩ := State.stopped_eq_false.mp hrun
  have hu : u.sound := hs.of_evolves hev
  obtain rfl | rfl | ⟨x, rfl⟩ := hcase
  · exact hu
  · exact hu.halt (hev.fault.trans hf)
  · exact hu.recordFault (hev.halted.trans hh) x _

/-- The base case: a booted core is not halted, and its images lie in buffers that exist. -/
theorem sound_of_boot {c : Config} {images : List Image} {s : State} (h : boot c images = .ready s) : s.sound := by
  obtain ⟨hc, hl⟩ := boot_eq_ready h
  have hh : s.halted = false := hl.halted
  exact ⟨by rw [hl.cfg]; exact hc, hl.store hc (storeInv_construct c), by simp [hh]⟩

theorem Reachable.sound {s : State} (h : Reachable s) : s.sound := by
  induction h with
  | boot hb => exact sound_of_boot hb
  | move _ ht ih => exact ih.of_transition ht

/-- Settles O21: the step lemma, the base case, and by induction on the run every reachable state. -/
theorem reachableStatesAreSound : Obligations.ReachableStatesAreSound :=
  ⟨fun _ _ _ hs h => hs.of_transition h, fun _ _ _ h => sound_of_boot h, fun _ h => h.sound⟩

/-! ### Answers and refusals (00_scope.md R6) -/

/-- Settles O8, by the cases of a transition. -/
theorem transitionsAnswer : Obligations.TransitionsAnswer := by
  intro m s hc
  obtain ⟨t, ht, -⟩ := transition_cases m hc
  exact ⟨t, ht⟩

theorem Config.nreg_eq_14 (c : Config) : c.nreg = 14 ↔ c.hasMb = true := by
  cases h : c.hasMb <;> simp [Config.nreg, h]

/-- A well-formed configuration meets every condition of R6. -/
theorem Config.conditions_of_wf {c : Config} (hc : c.wf = true) :
    (∀ g ∈ c.bootMap, 1 ≤ g.size ∧ g.start + g.size ≤ 0x10000) ∧
      (∀ count size, Device.banked count size ∈ c.devices → 1 ≤ count ∧ c.hasMb = true) ∧
      c.ivtBase.toNat + 31 ≤ 0xFFFF ∧ 1 ≤ c.shiftCountMod := by
  simp only [Config.wf, Bool.and_eq_true, List.all_eq_true, decide_eq_true_eq] at hc
  obtain ⟨⟨⟨hregions, hdevices⟩, hivt⟩, hshift⟩ := hc
  refine ⟨fun g hg => ?_, fun count size hd => ?_, hivt, hshift⟩
  · have hg := hregions g hg
    simp only [Region.wf, Bool.and_eq_true, decide_eq_true_eq] at hg
    exact hg.1
  · simpa [Device.wf] using hdevices _ hd

theorem step_of_not_wf {s : State} (hc : ¬ s.cfg.wf = true) : step s = .refused .illFormedConfig := by
  simp [step, hc]

theorem hostInterrupt_of_not_wf (v : Word) {s : State} (hc : ¬ s.cfg.wf = true) :
    hostInterrupt v s = .refused .illFormedConfig := by
  simp [hostInterrupt, hc]

theorem boot_of_not_wf {c : Config} (images : List Image) (hc : ¬ c.wf = true) :
    boot c images = .refused .illFormedConfig := by
  simp [boot, hc]

/-- Settles O9: a configuration that breaks a condition of R6 is not well formed, and the three host operations look. -/
theorem illFormedConfigRefused : Obligations.IllFormedConfigRefused := by
  refine fun c => ⟨Config.nreg_eq_14 c, fun hbroken => ?_⟩
  have hc : ¬ c.wf = true := mt Config.conditions_of_wf hbroken
  refine ⟨?_, fun images => boot_of_not_wf images hc⟩
  rintro s rfl
  exact ⟨step_of_not_wf hc, fun v => hostInterrupt_of_not_wf v hc⟩

/-! ### Faults (60_exceptions.md R251, R252, R262) -/

/-- A fault of the fetch. -/
theorem step_of_fetchInstr_raised {s u : State} {f : Fault} (hc : s.cfg.wf = true) (hs : s.stopped = false)
    (h : fetchInstr s = .raised f u) : step s = .next (u.recordFault f (s.getReg .ip)) := by
  simp [step, stepRunning, hc, hs, h]

/-- A fault of a host's interrupt request. -/
theorem hostInterrupt_of_raised {v : Word} {s u : State} {f : Fault} (hc : s.cfg.wf = true) (hs : s.stopped = false)
    (h : handleInterrupt v s = .raised f u) : hostInterrupt v s = .next (u.recordFault f (s.getReg .ip)) := by
  simp [hostInterrupt, finish, hc, hs, h]

/-- A transition leaves the fault record as it is, or records a fault at the address `ip` had. -/
theorem fault_of_transition {m : HostMove} {s t : State} (h : transition m s = .next t) :
    t.fault = s.fault ∨ ∃ x, t.fault = some ⟨x, s.getReg .ip⟩ := by
  obtain rfl | ⟨-, u, hev, rfl | rfl | ⟨x, rfl⟩⟩ := eq_or_evolves_of_transition h
  · exact .inl rfl
  · exact .inl hev.fault
  · exact .inl hev.fault
  · exact .inr ⟨x, rfl⟩

/-- Settles O23: a fetch, a request and an instruction each record the fault they raise; a faulted core is stopped. -/
theorem faultRecord : Obligations.FaultRecord := by
  intro s hc
  refine ⟨fun hs => ⟨fun _ _ h => step_of_fetchInstr_raised hc hs h, fun _ _ _ h => hostInterrupt_of_raised hc hs h⟩,
    fun _ _ _ _ h => run_of_raised h, fun m t r hnone ht hr => ?_, fun m hf => transition_of_stopped m hc ?_⟩
  · obtain h | ⟨x, h⟩ := fault_of_transition ht
    · simp [h, hnone] at hr
    · obtain rfl : ⟨x, s.getReg .ip⟩ = r := by simpa [h] using hr
      rfl
  · simp [State.stopped, Option.isSome_iff_ne_none, hf]

/-! ### Boot (70_reset_and_hazards.md R281, R284) -/

/-- Settles O59: loading images leaves the registers and the hidden state that `State.construct` gives. -/
theorem launchPremises : Obligations.LaunchPremises := by
  refine ⟨fun c hc => by simp [boot, hc, installImages], fun c images s h => ?_⟩
  obtain ⟨hc, hl⟩ := boot_eq_ready h
  refine ⟨hl.cfg, hc, hl.regs, hl.sfs, hl.inHandler, hl.halted, hl.fault, fun hsp => ?_⟩
  rw [State.getReg, State.getReg, hl.regs]
  exact hsp

end Sys2Proof.Machine
end

section
/-!
PROOFS. The statements of 10_state.md's family: what an instruction leaves as it is (R24, R35, R36, R127), what changes
`in_handler` and `halted` (R36, R37), what no transition changes (R38, R39), the register bytes of R94, the host's access by
name (R25) and the values of reset (R40).
-/

namespace Sys2Proof.Machine

/-! ### The frame of every instruction -/

/-- The instructions that change `in_handler` (10_state.md R36). -/
def usesHandler : Instr → Bool
  | .int _ | .retInt => true
  | _ => false

theorem ip_mem_writesOf (i : Instr) : .ip ∈ writesOf i := by cases i <;> exact List.mem_cons_self

section

variable {w : List Reg} {store stack hand : Bool} {s t : State}

/-- A run that writes one register. -/
theorem Frames.run_setReg {f : Format} {r : Reg} {v : State → Word} (hi : .ip ∈ w) (hr : r ∈ w)
    (h : Machine.run f (fun s => .ok () (s.setReg r (v s))) s = .next t) : Frames w store stack hand s t :=
  Frames.run hi (fun _ => Frames.setReg hr _) h

/-- A run that may jump. -/
theorem Frames.run_jumpIf {f : Format} {c : Cond} {v : State → Word} {target : Word} (hi : .ip ∈ w)
    (h : Machine.run f (fun s => .ok () (jumpIf c (v s) target s)) s = .next t) : Frames w store stack hand s t := by
  refine Frames.run hi (fun u => ?_) h
  simp only [Res.state_ok, jumpIf]
  split
  · exact Frames.setReg hi _
  · exact Frames.refl u

theorem Frames.offsetAddress (b : Word) (o : Reg) (s : State) :
    Frames w store stack hand s (offsetAddress b o s).state := by
  simp only [Machine.offsetAddress]
  split <;> exact Frames.refl s

end

/-- Whatever the outcome, an instruction changes only what `writesOf`, `mayStore`, `usesStack` and `usesHandler` allow it. The
cases are grouped by the effect that the instruction runs. -/
theorem Frames.exec {i : Instr} {s t : State} (h : exec i s = .next t) :
    Frames (writesOf i) (mayStore i) (usesStack i) (usesHandler i) s t := by
  have hip := ip_mem_writesOf i
  cases i with
  | movLitReg | movRegReg | addRegReg | addLitReg | subRegReg | subLitReg | subRegLit | mulRegReg | mulLitReg | incReg | decReg
  | lsfRegReg | lsfRegLit | rsfRegReg | rsfRegLit | andRegReg | andLitReg | orRegReg | orLitReg | xorRegReg | xorLitReg | not =>
    simp only [exec_movLitReg, exec_movRegReg, exec_addRegReg, exec_addLitReg, exec_subRegReg, exec_subLitReg, exec_subRegLit,
      exec_mulRegReg, exec_mulLitReg, exec_incReg, exec_decReg, exec_lsfRegReg, exec_lsfRegLit, exec_rsfRegReg, exec_rsfRegLit,
      exec_andRegReg, exec_andLitReg, exec_orRegReg, exec_orLitReg, exec_xorRegReg, exec_xorLitReg, exec_not] at h
    exact Frames.run_setReg hip (by simp [writesOf]) h
  | jmpNotEq v | jeqLit v | jltLit v | jgtLit v | jleLit v | jgeLit v => exact Frames.run_jumpIf (v := fun _ => v) hip h
  | jneReg r | jeqReg r | jltReg r | jgtReg r | jleReg r | jgeReg r => exact Frames.run_jumpIf (v := (State.getReg · r)) hip h
  | movRegMem | movLitMem => exact Frames.run hip (fun u => Frames.memWrite16 _ _ u) h
  | movMemReg | movRegPtrReg => exact Frames.run hip (fun u => Frames.loadWord (by simp [writesOf]) _ u) h
  | movLitOffReg b o d =>
    exact Frames.run hip
      (fun u => (Frames.offsetAddress b o u).bind fun ea u _ => Frames.loadWord (by simp [writesOf]) ea u) h
  | pshLit | pshReg => exact Frames.run hip (fun u => Frames.push (by simp [writesOf]) _ u) h
  | pop r =>
    exact Frames.run hip
      (fun u => (Frames.pop (by simp [writesOf]) u).bind fun _ _ _ => Frames.setReg (by simp [writesOf]) _) h
  | calLit | calReg => exact Frames.run hip (fun u => Frames.callTo hip (by simp [writesOf]) (by simp [writesOf]) _ u) h
  | ret => exact Frames.run hip (Frames.popState (by decide) (by decide) (by decide)) h
  | int v => exact Frames.run hip (Frames.handleInterrupt hip (by simp [writesOf]) (by simp [writesOf]) v) h
  | retInt => exact Frames.run hip (Frames.returnInterrupt (by decide) (by decide) (by decide)) h
  | hlt =>
    exact Frames.run hip (fun _ => Frames.of_access rfl rfl rfl fun _ => rfl) ((exec_hlt s).symm.trans h)

/-- Settles O27, by the frame of each instruction. -/
theorem registersWritten : Obligations.RegistersWritten := fun _ _ _ h => (Frames.exec h).regs

theorem usesHandler_eq_false {i : Instr} (hint : ∀ v, i ≠ .int v) (hret : i ≠ .retInt) : usesHandler i = false := by
  cases i with
  | int v => exact absurd rfl (hint v)
  | retInt => exact absurd rfl hret
  | _ => rfl

/-- Settles O28, by the frame of each instruction. -/
theorem memoryAndHiddenFrame : Obligations.MemoryAndHiddenFrame := by
  intro i s t h
  obtain ⟨-, hmem, hsfs, hhand⟩ := Frames.exec h
  exact ⟨hmem, hsfs, fun hint hret => hhand (usesHandler_eq_false hint hret)⟩

/-! ### `in_handler` (10_state.md R36) -/

/-- The vector read and the jump to the handler. -/
theorem loadWord_ip_frames (a : Nat) (s : State) : Frames [.ip] false false false s (loadWord a .ip s).state :=
  Frames.loadWord List.mem_cons_self a s

/-- An accepted interrupt saves its frame, sets `in_handler` and then only moves `ip`. -/
theorem handleInterrupt_eq_ok {v : Word} {s t : State} (he : interruptEnabled v s = true)
    (h : handleInterrupt v s = .ok () t) :
    ∃ u, saveInterruptFrame s = .ok () u ∧ Frames [.ip] false false false (u.setInHandler true) t := by
  rw [handleInterrupt, if_pos (im_of_interruptEnabled he)] at h
  obtain ⟨⟨⟩, u, hu, hread⟩ := Res.bind_eq_ok.mp h
  refine ⟨u, hu, ?_⟩
  have hf := loadWord_ip_frames (vectorAddress u.cfg (interruptLine v)) (u.setInHandler true)
  rwa [loadWord, hread] at hf

/-- Inside a handler, an interrupt that is taken or raises leaves `in_handler` set. -/
theorem inHandler_of_handleInterrupt {s : State} (hh : s.inHandler = true) (v : Word) :
    (handleInterrupt v s).state.inHandler = true := by
  cases he : interruptEnabled v s with
  | true =>
    rw [handleInterrupt_nested he hh]
    exact ((loadWord_ip_frames _ s).hand rfl).trans hh
  | false => rwa [handleInterrupt_masked he]

/-- The end of an instruction or of a request leaves `in_handler` as the effect left it. -/
theorem inHandler_of_finish {w : Word} {r : Res Unit} {t : State} (h : finish w r = .next t) :
    t.inHandler = r.state.inHandler := by
  cases r <;> cases h <;> rfl

/-- Only `RET_INT` clears `in_handler`. -/
theorem eq_retInt_of_exec {i : Instr} {s t : State} (h : exec i s = .next t) (hs : s.inHandler = true)
    (ht : t.inHandler = false) : i = .retInt := by
  by_contra hret
  by_cases hint : ∃ v, i = .int v
  · obtain ⟨v, rfl⟩ := hint
    rw [exec_int, run] at h
    have hset := inHandler_of_handleInterrupt (s := s.advance Format.singleLit.length) hs v
    simp [inHandler_of_finish h, hset] at ht
  · have hsame := (Frames.exec h).hand (usesHandler_eq_false (fun v hv => hint ⟨v, hv⟩) hret)
    simp [hsame, hs] at ht

/-- What a step can do: nothing in a stopped core, otherwise the fetch alone or the instruction fetched. -/
theorem step_eq_next {s t : State} (h : step s = .next t) :
    t = s ∨ t = (fetchInstr s).state ∨ (∃ f, t = (fetchInstr s).state.recordFault f (s.getReg .ip)) ∨
      ∃ i u, fetchInstr s = .ok (some i) u ∧ exec i (u.rewind (s.getReg .ip)) = .next t := by
  unfold step at h
  split at h
  case isFalse => cases h
  split at h
  · exact .inl (by cases h; rfl)
  unfold stepRunning at h
  split at h
  next i u hf => exact .inr (.inr (.inr ⟨i, u, hf, h⟩))
  next u hf => exact .inr (.inl (by cases h; rw [hf, Res.state_ok]))
  next f u hf => exact .inr (.inr (.inl ⟨f, by cases h; rw [hf, Res.state_raised]⟩))

/-- What a request can do: nothing to a stopped core, otherwise the interrupt entry. -/
theorem hostInterrupt_eq_next {v : Word} {s t : State} (h : hostInterrupt v s = .next t) :
    t = s ∨ finish (s.getReg .ip) (handleInterrupt v s) = .next t := by
  unfold hostInterrupt at h
  split at h
  case isFalse => cases h
  split at h
  · exact .inl (by cases h; rfl)
  · exact .inr h

/-- Only a step that fetches `RET_INT` clears `in_handler`. -/
theorem fetches_retInt_of_transition {m : HostMove} {s t : State} (h : transition m s = .next t) (hs : s.inHandler = true)
    (ht : t.inHandler = false) : m = .step ∧ ∃ u, fetchInstr s = .ok (some .retInt) u := by
  have hne : t ≠ s := by rintro rfl; simp [hs] at ht
  cases m with
  | step =>
    have hfetch : (fetchInstr s).state.inHandler = true := ((Frames.fetchInstr s).hand rfl).trans hs
    obtain rfl | rfl | ⟨f, rfl⟩ | ⟨i, u, hf, he⟩ := step_eq_next h
    · exact absurd rfl hne
    · simp [hfetch] at ht
    · simp [hfetch] at ht
    · rw [hf] at hfetch
      obtain rfl := eq_retInt_of_exec he hfetch ht
      exact ⟨rfl, u, hf⟩
  | interrupt v =>
    obtain rfl | h := hostInterrupt_eq_next h
    · exact absurd rfl hne
    · simp [inHandler_of_finish h, inHandler_of_handleInterrupt hs] at ht

/-- `RET_INT` clears `in_handler` before it pops its frame, whatever the pops do. -/
theorem inHandler_of_exec_retInt {s t : State} (h : exec .retInt s = .next t) : t.inHandler = false := by
  rw [exec_retInt, run] at h
  rw [inHandler_of_finish h, returnInterrupt]
  exact (Frames.popState (w := writesOf .retInt) (store := false) (by decide) (by decide) (by decide) _).hand rfl

/-- An accepted interrupt sets `in_handler`, and the flag as it was decides whether a frame is saved. -/
theorem frame_of_handleInterrupt {v : Word} {s t : State} (he : interruptEnabled v s = true)
    (h : handleInterrupt v s = .ok () t) :
    t.inHandler = true ∧ ∃ u, saveInterruptFrame s = .ok () u ∧
      t.mem = u.mem ∧ t.getReg .sp = u.getReg .sp ∧ t.getReg .fp = u.getReg .fp ∧ t.sfs = u.sfs := by
  obtain ⟨u, hu, hregs, hmem, hsfs, hhand⟩ := handleInterrupt_eq_ok he h
  exact ⟨hhand rfl, u, hu, hmem rfl, hregs .sp (by decide), hregs .fp (by decide), hsfs rfl⟩

/-- Settles O24: the interrupt entry, the frames of the instructions and the cases of a step. -/
theorem inHandlerRule : Obligations.InHandlerRule := by
  refine ⟨fun _ _ _ he h => (frame_of_handleInterrupt he h).1,
    fun _ _ _ h hs ht => fetches_retInt_of_transition h hs ht,
    fun _ _ _ h hs ht => eq_retInt_of_exec h hs ht, fun _ _ h => inHandler_of_exec_retInt h, fun v s t he h => ?_,
    fun _ _ h => (Frames.exec h).hand rfl⟩
  obtain ⟨-, u, hu, hsame⟩ := frame_of_handleInterrupt he h
  unfold saveInterruptFrame at hu
  refine ⟨fun hs => ?_, fun hs => ?_⟩
  · rw [if_pos hs] at hu
    cases hu
    exact hsame
  · rw [if_neg (by simp [hs])] at hu
    exact ⟨u, hu, hsame⟩

/-! ### `halted` (10_state.md R37, 44_system.md R232) -/

/-- Settles O25: of the cases of an instruction and of a transition only the executed `HLT` changes `halted`. -/
theorem onlyHltHalts : Obligations.OnlyHltHalts := by
  refine ⟨fun i s t h hs ht => ?_, fun m s t h hs ht => ?_⟩
  · obtain ⟨t', ht', hcase⟩ := exec_cases i s
    obtain rfl : t = t' := by simpa [h] using ht'
    obtain ⟨hi, -⟩ | hev | ⟨u, x, hev, rfl⟩ := hcase
    · exact hi
    · simp [hev.halted, hs] at ht
    · simp [hev.halted, hs] at ht
  · obtain ⟨t', ht', hcase⟩ := transition_cases m (wf_of_transition h)
    obtain rfl : t = t' := by simpa [h] using ht'
    obtain ⟨-, rfl⟩ | ⟨-, ⟨u, hm, hf, -⟩ | hev | ⟨u, x, hev, rfl⟩⟩ := hcase
    · simp [hs] at ht
    · exact ⟨hm, u, hf⟩
    · simp [hev.halted, hs] at ht
    · simp [hev.halted, hs] at ht

/-- A core that is halted or faulted is stopped. -/
theorem State.stopped_eq_true {s : State} : s.stopped = true ↔ s.halted = true ∨ s.fault ≠ none := by
  simp [State.stopped, Option.isSome_iff_ne_none]

/-- Settles O7: a halted or faulted core is stopped, and a stopped one stays as it is. -/
theorem stoppedCoreIdles : Obligations.StoppedCoreIdles :=
  fun m _ hc h => transition_of_stopped m hc (State.stopped_eq_true.mpr h)

/-- Settles O57: the next state is the one with `ip` past the byte and `halted` set, which is stopped. -/
theorem halt : Obligations.Halt := by
  intro s
  exact ⟨(s.advance 1).halt, (exec_hlt s).trans (run_of_ok rfl), rfl, by simp, fun r hr => by simp [hr], rfl, ⟨rfl, rfl⟩,
    rfl, rfl, rfl, rfl, fun hc m => transition_of_stopped m hc (State.stopped_eq_true.mpr (.inl rfl))⟩

/-! ### What no transition changes (10_state.md R38, R39) -/

/-- Settles O22: a transition's state evolves, and halting or recording a fault changes neither configuration nor store. -/
theorem configAndRomAreFixed : Obligations.ConfigAndRomAreFixed := by
  intro m s t h
  have hc := wf_of_transition h
  obtain rfl | ⟨-, u, hev, rfl | rfl | ⟨x, rfl⟩⟩ := eq_or_evolves_of_transition h
  · exact ⟨rfl, fun _ _ => rfl⟩
  all_goals exact ⟨hev.cfg, hev.rom hc⟩

/-! ### A masked interrupt (60_exceptions.md R260, R262) -/

/-- Settles O54, by the masked case of the interrupt entry. -/
theorem maskedInterrupt : Obligations.MaskedInterrupt := by
  intro s v hmask
  have hint : exec (.int v) s = .next (s.advance 3) := run_of_ok (handleInterrupt_masked (by simpa using hmask))
  refine ⟨⟨s.advance 3, hint, by simp, ⟨rfl, rfl⟩, ⟨fun r hr => ?_, fun _ _ => rfl, rfl, rfl, rfl, rfl, rfl⟩⟩,
    fun hc hs => ?_⟩
  · simp [List.mem_singleton.not.mp hr]
  · simp [hostInterrupt, hc, hs, handleInterrupt_masked hmask, finish]

/-! ### Register bytes (30_encoding.md R94) -/

theorem exists_regOfIndex {n : Nat} (h : n < 14) : ∃ r, r.index = n ∧ regOfIndex n = some r := by
  interval_cases n <;> exact ⟨_, rfl, rfl⟩

theorem nreg_bounds (c : Config) : 0 < c.nreg ∧ c.nreg ≤ 14 := by
  unfold Config.nreg
  split <;> omega

theorem fetchReg_of_decodeReg_some {s : State} {k : Nat} {r : Reg} (hk : s.byteCell (s.getReg .ip).toNat = some k)
    (hd : decodeReg s.cfg (s.mem.read k) = some r) : fetchReg s = .ok r (s.advance 1) := by
  simp [fetchReg, fetch8_of_byteCell hk, hd]

theorem fetchReg_of_decodeReg_none {s : State} {k : Nat} (hk : s.byteCell (s.getReg .ip).toNat = some k)
    (hd : decodeReg s.cfg (s.mem.read k) = none) :
    fetchReg s = .raised (.invalidRegister (s.mem.read k)) (s.advance 1) := by
  simp [fetchReg, fetch8_of_byteCell hk, hd]

/-- Settles O5: the byte is fetched, and `decodeReg` reads it in its three cases. -/
theorem registerByte : Obligations.RegisterByte := by
  intro s k hk b
  obtain ⟨hpos, hle⟩ := nreg_bounds s.cfg
  refine ⟨fun hlt => ?_, fun hge hmode => ?_, fun hge hmode => ?_⟩
  · obtain ⟨r, hr, hd⟩ := exists_regOfIndex (hlt.trans_le hle)
    exact ⟨r, hr, fetchReg_of_decodeReg_some hk (by simpa [decodeReg, hlt, b] using hd)⟩
  · exact fetchReg_of_decodeReg_none hk (by simp [decodeReg, hge.not_gt, hmode, b])
  · obtain ⟨r, hr, hd⟩ := exists_regOfIndex ((Nat.mod_lt b.toNat hpos).trans_le hle)
    exact ⟨r, hr, fetchReg_of_decodeReg_some hk (by simpa [decodeReg, hge.not_gt, hmode, b] using hd)⟩

/-! ### Registers by name (10_state.md R25) -/

/-- The names of the closed register set that stand for a register under every configuration. -/
def alwaysNamed : List String :=
  ["ip", "acc", "acu", "r1", "r2", "r3", "r4", "r5", "r6", "r7", "r8", "sp", "fp", "im"]

theorem regOfName_of_mem (c : Config) {name : String} (h : name ∈ alwaysNamed) : ∃ r, regOfName c name = some r := by
  fin_cases h <;> exact ⟨_, rfl⟩

theorem regOfName_mb (c : Config) : regOfName c "mb" = if c.hasMb then some .mb else none := rfl

theorem regOfName_of_not_mem (c : Config) {name : String} (h : name ∉ alwaysNamed) (hmb : name ≠ "mb") :
    regOfName c name = none := by
  have hlookup : registerNames.lookup name = none := by
    simp_all [List.lookup_eq_none_iff, registerNames, alwaysNamed]
  rw [regOfName, hlookup, Option.filter_none]

theorem hostGet_of_regOfName {s : State} {name : String} {r : Reg} (h : regOfName s.cfg name = some r) :
    hostGet name s = .ok (s.getReg r) := by
  rw [hostGet, h]

theorem hostSet_of_regOfName {s : State} {name : String} {r : Reg} (v : Word) (h : regOfName s.cfg name = some r) :
    hostSet name v s = .ok (s.setReg r v) := by
  rw [hostSet, h]

/-- Settles O60: inside the closed set the name stands for a register, outside it for none. -/
theorem hostRegisterAccess : Obligations.HostRegisterAccess := by
  intro s name known
  refine ⟨fun hout => ?_, fun hin => ?_⟩
  · have hnone : regOfName s.cfg name = none := by
      obtain ⟨hmem, hmb⟩ := not_or.mp hout
      by_cases hname : name = "mb"
      · subst hname
        rw [regOfName_mb, if_neg fun h => hmb ⟨rfl, h⟩]
      · exact regOfName_of_not_mem s.cfg hmem hname
    exact ⟨by rw [hostGet, hnone], fun v => by rw [hostSet, hnone]⟩
  · obtain ⟨r, hr⟩ : ∃ r, regOfName s.cfg name = some r := by
      obtain h | ⟨rfl, hmb⟩ := hin
      · exact regOfName_of_mem _ h
      · exact ⟨.mb, by rw [regOfName_mb, if_pos hmb]⟩
    refine ⟨r, hostGet_of_regOfName hr, fun v => ⟨s.setReg r v, hostSet_of_regOfName v hr, ?_, ⟨rfl, rfl⟩, ?_⟩⟩
    · simp [hostGet_of_regOfName (s := s.setReg r v) hr]
    · exact ⟨fun q hq => by simp [List.mem_singleton.not.mp hq], fun _ _ => rfl, rfl, rfl, rfl, rfl, rfl⟩

/-! ### Reset (10_state.md R40) -/

/-- Settles O20: the store of a constructed machine is empty. -/
theorem resetStore : Obligations.ResetStore := storeInv_construct defaultConfig

/-- Settles O58, by evaluation of the reset state. -/
theorem resetValues : Obligations.ResetValues :=
  ⟨rfl, rfl, rfl, rfl, by decide, rfl, rfl, rfl, rfl, fun _ => rfl⟩

end Sys2Proof.Machine
end

section
/-!
PROOFS. The statements of 20_memory.md's family: which region and which buffer serve an access (R51 to R59), its order of bytes
and its faults (R60 to R64), the store's invariant and the record of external calls (R56, R67), and the loads, stores and pushes
that make the accesses (40_data_movement.md R122 to R127, 43_stack_call.md R204 to R206).
-/

namespace Sys2Proof.Machine

/-! ### What a transition keeps of the store and of the external calls -/

/-- Settles O19: a transition's state evolves, and halting or recording a fault leaves the store alone. -/
theorem transitionsKeepStore : Obligations.TransitionsKeepStore := by
  intro m s t hs h
  obtain rfl | ⟨-, u, hev, hcase⟩ := eq_or_evolves_of_transition h
  · exact hs
  have hu : u.storeInv := hev.store (wf_of_transition h) hs
  obtain rfl | rfl | ⟨x, rfl⟩ := hcase <;> exact hu

/-- Settles O26: a transition's state evolves, and halting or recording a fault calls no device. -/
theorem externalCallsOnlyGrow : Obligations.ExternalCallsOnlyGrow := by
  intro m s t h
  obtain rfl | ⟨-, u, hev, hcase⟩ := eq_or_evolves_of_transition h
  · exact ⟨[], by simp⟩
  obtain rfl | rfl | ⟨x, rfl⟩ := hcase <;> exact hev.calls

/-! ### The mapper (20_memory.md R51 to R53) -/

theorem findRegion_of_no_map (c : Config) (a : Nat) : findRegion { c with bootMap := [] } a = none := rfl

/-- The region mapped last is asked first. -/
theorem findRegion_append_singleton (c : Config) (earlier : List Region) (g : Region) (a : Nat) :
    findRegion { c with bootMap := earlier ++ [g] } a =
      if regionHas g a then some g else findRegion { c with bootMap := earlier } a := by
  cases h : regionHas g a <;> simp [findRegion, regionList, h]

/-- Settles O12, by the first look of the search. -/
theorem regionShadowing : Obligations.RegionShadowing := by
  refine fun c earlier g a => ⟨findRegion_of_no_map c a, ?_⟩
  simp only [findRegion_append_singleton, regionHas, Bool.and_eq_true, decide_eq_true_eq]

theorem resolve_of_findRegion_none {s : State} {a : Nat} (h : findRegion s.cfg a = none) : s.resolve a = none := by
  simp only [State.resolve, h]

/-- Settles O13: the address is not resolved. -/
theorem unmappedAccess : Obligations.UnmappedAccess := by
  intro s a h
  have hr := resolve_of_findRegion_none h
  refine ⟨?_, fun v => ?_, fun ha => ⟨?_, fun v => ?_⟩⟩
  · simp only [memRead8, hr]
  · simp only [memWrite8, hr]
  · simp only [memRead16, ha, if_false, hr]
  · simp only [memWrite16, ha, if_false, hr]

/-! ### Accesses that a byte buffer serves (20_memory.md R56, R57) -/

section

variable {s : State} {a d off base size : Nat} {w : Bool}

theorem memRead8_of_buffer (h : s.resolve a = some ⟨d, off, .buffer base size w⟩) :
    memRead8 a s = bufGet8 base size off s := by
  simp only [memRead8, h]

theorem memRead16_of_buffer (ha : a ≠ 0xFFFF) (h : s.resolve a = some ⟨d, off, .buffer base size w⟩) :
    memRead16 a s = bufGet16 base size off s := by
  simp only [memRead16, ha, if_false, h]

theorem memWrite8_of_buffer (v : Byte) (h : s.resolve a = some ⟨d, off, .buffer base size w⟩) :
    memWrite8 a v s = bufSet8 base size w off v s := by
  simp only [memWrite8, h]

theorem memWrite16_of_buffer (v : Word) (ha : a ≠ 0xFFFF) (h : s.resolve a = some ⟨d, off, .buffer base size w⟩) :
    memWrite16 a v s = bufSet16 base size w off v s := by
  simp only [memWrite16, ha, if_false, h]

end

theorem memWrite8_of_romAt {s : State} {a : Nat} (v : Byte) (h : s.romAt a = true) : memWrite8 a v s = .ok () s := by
  obtain ⟨d, off, base, size, hr⟩ := State.romAt_eq_true.mp h
  rw [memWrite8_of_buffer v hr]
  rfl

/-- Settles O15: a buffer that is not writable discards both kinds of write. -/
theorem romDiscardsWrites : Obligations.RomDiscardsWrites :=
  fun _ _ h => ⟨fun v => memWrite8_of_romAt v h, fun ha v => memWrite16_of_romAt v ha h⟩

/-- Settles O16: the check of `0xFFFF` comes first, then the buffer's own check of the offset. -/
theorem accessesOutOfRange : Obligations.AccessesOutOfRange := by
  refine ⟨fun s => ⟨rfl, fun v => rfl⟩, fun s a d off base size w hr => ⟨fun hoff => ?_, fun hoff ha => ?_⟩⟩
  · refine ⟨?_, fun hw v => ?_⟩
    · rw [memRead8_of_buffer hr, bufGet8, if_pos hoff]
    · rw [memWrite8_of_buffer v hr, bufSet8, if_pos hw, if_pos hoff]
  · refine ⟨?_, fun hw v => ?_⟩
    · rw [memRead16_of_buffer ha hr, bufGet16, if_pos hoff]
    · rw [memWrite16_of_buffer v ha hr, bufSet16, if_pos hw, if_pos hoff]

/-! ### The order of bytes (20_memory.md R62, R63) -/

theorem toNat_joinBytes (hi lo : Byte) : (joinBytes hi lo).toNat = hi.toNat * 256 + lo.toNat := by
  rw [joinBytes, BitVec.toNat_append, ← Nat.shiftLeft_add_eq_or_of_lt lo.isLt, Nat.shiftLeft_eq]

/-- A word written to two cells: each of them holds its byte. -/
theorem Memory.read_writeWord (m : Memory) (k : Nat) (v : Word) :
    let m' := (m.write k (wordHi v)).write (k + 1) (wordLo v)
    m'.read k = wordHi v ∧ m'.read (k + 1) = wordLo v ∧ ∀ j, j ∉ [k, k + 1] → m'.read j = m.read j := by
  refine ⟨?_, Memory.read_write_same _ _ _, fun j hj => ?_⟩
  · rw [Memory.read_write_other _ _ (by omega), Memory.read_write_same]
  · simp only [List.mem_cons, List.not_mem_nil, or_false, not_or] at hj
    rw [Memory.read_write_other _ _ hj.2, Memory.read_write_other _ _ hj.1]

/-- Which byte an access reaches does not depend on the store. -/
theorem byteCell_setMem (s : State) (m : Memory) (a : Nat) : (s.setMem m).byteCell a = s.byteCell a := rfl

/-- Settles O14: the word and its two bytes are the same cells, before the store and after it. -/
theorem bigEndianWord : Obligations.BigEndianWord := by
  refine ⟨by decide, by decide, fun hi lo => ⟨toNat_joinBytes hi lo, wordHi_join hi lo, wordLo_join hi lo⟩,
    fun s a k _ hhi hword hlo => ⟨?_, fun hrom v => ?_⟩⟩
  · exact ⟨_, _, memRead8_of_byteCell hhi, memRead8_of_byteCell hlo, memRead16_of_wordCell hword⟩
  · obtain ⟨hreadHi, hreadLo, -⟩ := Memory.read_writeWord s.mem k v
    refine ⟨_, memWrite16_of_wordCell v hrom hword, ?_, ?_⟩
    · rw [memRead8_of_byteCell ((byteCell_setMem s _ a).trans hhi), State.setMem_mem, hreadHi]
    · rw [memRead8_of_byteCell ((byteCell_setMem s _ (a + 1)).trans hlo), State.setMem_mem, hreadLo]

/-! ### Bank-switched devices (20_memory.md R58) -/

theorem resolve_of_banked {s : State} {a n size : Nat} {g : Region} (hg : findRegion s.cfg a = some g)
    (hd : s.cfg.devices[g.device]? = some (.banked n size)) :
    s.resolve a = some ⟨g.device, regionOffset g a,
      .buffer (cellKey g.device ((s.getReg .mb).toNat % n) 0) size true⟩ := by
  simp only [State.resolve, State.backing, hg, hd]

theorem cellKey_zero_add (d b o : Nat) : cellKey d b 0 + o = cellKey d b o := by
  rw [cellKey_add, Nat.zero_add]

/-- Two banks of a device have no cell in common, whatever their number. -/
theorem cellKey_ne_of_bank_ne {d b₁ b₂ o₁ o₂ : Nat} (hb : b₁ ≠ b₂) (h₁ : o₁ < 0x10000) (h₂ : o₂ < 0x10000) :
    cellKey d b₁ o₁ ≠ cellKey d b₂ o₂ := by
  unfold cellKey
  omega

/-- Settles O17: the address resolves to the mutable buffer `mb mod N`, which serves the four operations as RAM. -/
theorem bankSelection : Obligations.BankSelection := by
  refine ⟨fun s a g n size hg hd => ?_, fun d k₁ k₂ o₁ o₂ hk h₁ h₂ => cellKey_ne_of_bank_ne hk h₁ h₂,
    fun _ _ => rfl, fun m j k b => Memory.read_write m k j b⟩
  have hr := resolve_of_banked hg hd
  obtain ⟨hbyte, hword⟩ := accessesOutOfRange.2 _ _ _ _ _ _ _ hr
  refine ⟨fun hlt => ⟨?_, fun v => ?_⟩, fun hge => (hbyte hge).imp_right (· rfl),
    fun ha hlt => ⟨?_, fun v => ?_⟩, fun ha hge => (hword hge ha).imp_right (· rfl)⟩
  · rw [memRead8_of_buffer hr, bufGet8, if_neg hlt.not_ge, cellKey_zero_add]
  · rw [memWrite8_of_buffer v hr, bufSet8, if_pos rfl, if_neg hlt.not_ge, cellKey_zero_add]
  · rw [memRead16_of_buffer ha hr, bufGet16, if_neg hlt.not_ge, cellKey_zero_add]
  · rw [memWrite16_of_buffer v ha hr, bufSet16, if_pos rfl, if_neg hlt.not_ge, cellKey_zero_add]

/-! ### External devices (20_memory.md R59) -/

section

variable {s : State} {a d off : Nat}

theorem memRead8_of_external (h : s.resolve a = some ⟨d, off, .external⟩) :
    memRead8 a s = if Config.extFails s.draws then .raised (.deviceError a) s
      else .ok (Config.extByte s.draws) (s.called ⟨d, off, .get8⟩) := by
  simp only [memRead8, h, extCall]

theorem memWrite8_of_external (v : Byte) (h : s.resolve a = some ⟨d, off, .external⟩) :
    memWrite8 a v s = if Config.extFails s.draws then .raised (.deviceError a) s
      else .ok () (s.called ⟨d, off, .set8 v⟩) := by
  simp only [memWrite8, h, extCall]

theorem memRead16_of_external (ha : a ≠ 0xFFFF) (h : s.resolve a = some ⟨d, off, .external⟩) :
    memRead16 a s = if Config.extFails s.draws then .raised (.deviceError a) s
      else .ok (Config.extWord s.draws) (s.called ⟨d, off, .get16⟩) := by
  simp only [memRead16, ha, if_false, h, extCall]

theorem memWrite16_of_external (v : Word) (ha : a ≠ 0xFFFF) (h : s.resolve a = some ⟨d, off, .external⟩) :
    memWrite16 a v s = if Config.extFails s.draws then .raised (.deviceError a) s
      else .ok () (s.called ⟨d, off, .set16 v⟩) := by
  simp only [memWrite16, ha, if_false, h, extCall]

theorem loadWord_of_external (r : Reg) (ha : a ≠ 0xFFFF) (h : s.resolve a = some ⟨d, off, .external⟩) :
    loadWord a r s = if Config.extFails s.draws then .raised (.deviceError a) s
      else .ok () ((s.called ⟨d, off, .get16⟩).setReg r (Config.extWord s.draws)) := by
  rw [loadWord, memRead16_of_external ha h]
  split <;> rfl

end

/-- Settles O18, by the case of an external device in each access. -/
theorem externalAccess : Obligations.ExternalAccess :=
  fun _ _ _ _ h => ⟨memRead8_of_external h, fun v => memWrite8_of_external v h,
    fun ha => ⟨memRead16_of_external ha h, fun v => memWrite16_of_external v ha h⟩⟩

/-! ### Stores (40_data_movement.md R122, R124) -/

theorem toNat_ne_top {a : Word} (ha : a ≠ 0xFFFF) : a.toNat ≠ 0xFFFF := by bv_omega

/-- What is unchanged where only `ip` and some bytes of the store differ. -/
theorem unchanged_advance_setMem {s : State} {n : Nat} {m : Memory} {cells : List Nat}
    (h : ∀ k, k ∉ cells → m.read k = s.mem.read k) : Unchanged [.ip] cells s ((s.advance n).setMem m) :=
  ⟨fun r hr => by simp [List.mem_singleton.not.mp hr], h, rfl, rfl, rfl, rfl, rfl⟩

theorem storesWord_of_run {i : Instr} {f : Format} {n a k : Nat} {v : State → Word} {x : Word} {s : State}
    (h : exec i s = run f (fun s => memWrite16 a (v s) s) s) (hn : f.length = n) (hv : v (s.advance n) = x)
    (hrom : s.romAt a = false) (hk : s.wordCell a = some k) : StoresWord i n k x s := by
  subst hn hv
  obtain ⟨hhi, hlo, hother⟩ := Memory.read_writeWord s.mem k (v (s.advance f.length))
  exact ⟨_, h.trans (run_of_ok (memWrite16_of_wordCell _ ((romAt_advance s _ a).trans hrom)
    ((wordCell_advance s _ a).trans hk))), hhi, hlo, by simp, ⟨rfl, rfl⟩, unchanged_advance_setMem hother⟩

theorem onlyAdvances_of_run {i : Instr} {f : Format} {n : Nat} {e : State → Res Unit} {s : State}
    (h : exec i s = run f e s) (hn : f.length = n) (he : e (s.advance n) = .ok () (s.advance n)) :
    OnlyAdvances i n s := by
  subst hn
  exact ⟨_, h.trans (run_of_ok he), by simp, ⟨rfl, rfl⟩, unchanged_advance_setMem fun _ _ => rfl⟩

/-- Settles O31: the store is one word access at the literal address, after `ip` has moved. -/
theorem storeWord : Obligations.StoreWord := by
  refine fun s a => ⟨fun hrom k hk => ⟨fun r => ?_, fun l => ?_⟩, fun hrom ha => ⟨fun r => ?_, fun l => ?_⟩⟩
  · exact storesWord_of_run (exec_movRegMem s r a) rfl (getReg_advance_operand s 4 r) hrom hk
  · exact storesWord_of_run (v := fun _ => l) (exec_movLitMem s l a) rfl rfl hrom hk
  · exact onlyAdvances_of_run (exec_movRegMem s r a) rfl
      (memWrite16_of_romAt _ (toNat_ne_top ha) ((romAt_advance s 4 _).trans hrom))
  · exact onlyAdvances_of_run (exec_movLitMem s l a) rfl
      (memWrite16_of_romAt _ (toNat_ne_top ha) ((romAt_advance s 5 _).trans hrom))

/-! ### Loads (40_data_movement.md R123, R125, R126) -/

/-- Settles O32: a load is one word access, at the literal address or at the one in the pointer register. -/
theorem loadWord_writesReg : Obligations.LoadWord := by
  refine fun s => ⟨fun a d k hk => ?_, fun p d k hk => ?_⟩
  · exact writesReg_of_load (a := fun _ => a.toNat) (exec_movMemReg s a d) rfl hk
  · exact writesReg_of_load (exec_movRegPtrReg s p d) rfl (by rwa [← getReg_advance_operand] at hk)

/-- Within the address space the offset load is a load at the exact sum. -/
theorem exec_movLitOffReg_of_le {s : State} {b : Word} {o : Reg} (d : Reg)
    (h : b.toNat + (operand 5 s o).toNat ≤ 0xFFFF) :
    exec (.movLitOffReg b o d) s = run .litOffReg (loadWord (b.toNat + (operand 5 s o).toNat) d) s := by
  rw [← getReg_advance_operand] at h ⊢
  rw [exec_movLitOffReg, run, run, offsetAddress, Format.length, if_neg h.not_gt, Res.bind_ok]

theorem offsetAddress_of_gt {s : State} {b : Word} {o : Reg} (h : 0xFFFF < b.toNat + (s.getReg o).toNat) :
    offsetAddress b o s = .raised (.addressOverflow (b.toNat + (s.getReg o).toNat)) s := if_pos h

theorem loadWord_of_wordFault {s : State} {a : Nat} {f : Fault} (d : Reg) (h : s.wordFault false a = some f) :
    loadWord a d s = .raised f s := by
  rw [loadWord, memRead16_of_wordFault h, Res.bind_raised]

theorem traps_of_run {i : Instr} {f : Format} {n : Nat} {e : State → Res Unit} {x : Fault} {s : State}
    (h : exec i s = run f e s) (hn : f.length = n) (he : e (s.advance n) = .raised x (s.advance n)) :
    Traps i x s (s.advance n) := by
  subst hn
  exact h.trans (run_of_raised he)

/-- Settles O33: the sum is compared before the access, which is then that of a load. -/
theorem loadWithOffset : Obligations.LoadWithOffset := by
  refine fun s b o d => ⟨fun k hle hk => ?_, fun hgt => ?_, fun f hle hf => ?_⟩
  · exact writesReg_of_load (a := fun _ => b.toNat + (operand 5 s o).toNat) (exec_movLitOffReg_of_le d hle) rfl hk
  · rw [← getReg_advance_operand] at hgt ⊢
    exact traps_of_run (exec_movLitOffReg s b o d) rfl (by rw [offsetAddress_of_gt hgt, Res.bind_raised])
  · exact traps_of_run (exec_movLitOffReg_of_le d hle) rfl
      (loadWord_of_wordFault d ((wordFault_advance s 5 false _).trans hf))

/-- Settles O34: the access is the whole effect of the instruction, and it raises its fault. -/
theorem dataAccessTraps : Obligations.DataAccessTraps := by
  refine fun s f => ⟨fun a hf => ⟨fun r => ?_, fun l => ?_⟩, fun a d hf => ?_, fun p d hf => ?_⟩
  · exact traps_of_run (exec_movRegMem s r a) rfl (memWrite16_of_wordFault _ ((wordFault_advance s 4 true _).trans hf))
  · exact traps_of_run (exec_movLitMem s l a) rfl (memWrite16_of_wordFault _ ((wordFault_advance s 5 true _).trans hf))
  · exact traps_of_run (exec_movMemReg s a d) rfl (loadWord_of_wordFault d ((wordFault_advance s 4 false _).trans hf))
  · rw [← getReg_advance_operand] at hf
    exact traps_of_run (exec_movRegPtrReg s p d) rfl (loadWord_of_wordFault d ((wordFault_advance s 3 false _).trans hf))

/-- Settles O36: the store leaves the word's two bytes, and the load joins them again. -/
theorem storeThenLoad : Obligations.StoreThenLoad := by
  intro s a r d k hrom hk
  obtain ⟨t, ht, hhi, hlo, -⟩ := storesWord_of_run (exec_movRegMem s r a) rfl (getReg_advance_operand s 4 r) hrom hk
  refine ⟨t, ht, fun u huk hu₀ hu₁ => ?_⟩
  have hload := writesReg_of_load (a := fun _ => a.toNat) (exec_movMemReg u a d) rfl huk
  rwa [hu₀, hu₁, hhi, hlo, join_hi_lo] at hload

/-! ### Pushes (43_stack_call.md R204, R205) -/

theorem storedCells_advance (s : State) (n a : Nat) : (s.advance n).storedCells a = s.storedCells a :=
  State.storedCells_congr rfl (by simp) a

theorem pushesWord_of_run {i : Instr} {f : Format} {n : Nat} {v : State → Word} {x : Word} {s : State}
    (h : exec i s = run f (fun s => push (v s) s) s) (hn : f.length = n) (hv : v (s.advance n) = x)
    (hs : s.storable (s.getReg .sp).toNat = true) : PushesWord i n x s := by
  subst hn hv
  obtain ⟨m, hpush, hother, hword⟩ := push_of_storable (s := s.advance f.length) (v (s.advance f.length))
    (by rwa [sp_advance, storable_advance])
  simp only [sp_advance, storedCells_advance, romAt_advance, wordCell_advance] at hother hword
  refine ⟨_, h.trans (run_of_ok hpush), hword, by simp, rfl, rfl, by simp, ⟨fun r hr => ?_, hother, rfl, rfl, rfl, rfl, rfl⟩⟩
  simp only [List.mem_cons, List.not_mem_nil, or_false, not_or] at hr
  simp [hr.1, hr.2]

/-- Settles O45: the push is the whole effect of the instruction. -/
theorem pushWord : Obligations.PushWord := by
  refine fun s hs => ⟨fun l => ?_, fun r => ?_⟩
  · exact pushesWord_of_run (v := fun _ => l) (exec_pshLit s l) rfl rfl hs
  · exact pushesWord_of_run (exec_pshReg s r) rfl (getReg_advance_operand s 2 r) hs

/-! ### Loads, stores, pushes and pops at an external device -/

theorem push_of_external {s : State} {d off : Nat} (v : Word) (ha : (s.getReg .sp).toNat ≠ 0xFFFF)
    (h : s.resolve (s.getReg .sp).toNat = some ⟨d, off, .external⟩) :
    push v s = if Config.extFails s.draws then .raised (.deviceError (s.getReg .sp).toNat) s
      else .ok () (((s.called ⟨d, off, .set16 v⟩).setReg .sp (s.getReg .sp - 2)).setSfs (s.sfs + 2)) := by
  rw [push, memWrite16_of_external v ha h]
  split <;> rfl

theorem pop_of_external {s : State} {a : Word} {d off : Nat} (hsp : s.getReg .sp + 2 = a) (ha : a ≠ 0xFFFF)
    (h : s.resolve a.toNat = some ⟨d, off, .external⟩) :
    pop s = if Config.extFails s.draws then .raised (.deviceError a.toNat) (s.setReg .sp a)
      else .ok (Config.extWord s.draws) (((s.setReg .sp a).called ⟨d, off, .get16⟩).setSfs (s.sfs - 2)) := by
  subst hsp
  have hsp : (popMove s).getReg .sp = s.getReg .sp + 2 := by simp [popMove]
  have hr := (State.resolve_congr (s := s) (t := popMove s) rfl (by simp [popMove]) _).trans h
  rw [pop, hsp, memRead16_of_external (toNat_ne_top ha) hr]
  simp only [show (popMove s).draws = s.draws from rfl]
  split <;> rfl

theorem callsDevice_of_run {i : Instr} {f : Format} {e : State → Res Unit} {a : Word} {s before after : State}
    (h : exec i s = run f e s) (he : e (s.advance f.length) =
      if Config.extFails s.draws then .raised (.deviceError a.toNat) before else .ok () after) :
    CallsDevice i a s before after := by
  rw [CallsDevice, h, run, he]
  split <;> rfl

/-- Settles O35: each form is one access of the device, after `ip` and, of a pop, `sp` have moved. -/
theorem externalLoadAndStore : Obligations.ExternalLoadAndStore := by
  intro s a d off ha hr
  have hr' (n : Nat) : (s.advance n).resolve a.toNat = some ⟨d, off, .external⟩ := (resolve_advance s n _).trans hr
  have ha' := toNat_ne_top ha
  refine ⟨fun r => ?_, fun l => ?_, fun r => ?_, fun p r hp => ?_, fun b o r hsum => ?_, fun hsp => ⟨fun l => ?_, fun r => ?_⟩,
    fun hsp r => ?_⟩
  · rw [← getReg_advance_operand]
    exact callsDevice_of_run (exec_movRegMem s r a) (memWrite16_of_external _ ha' (hr' 4))
  · exact callsDevice_of_run (exec_movLitMem s l a) (memWrite16_of_external l ha' (hr' 5))
  · exact callsDevice_of_run (exec_movMemReg s a r) (loadWord_of_external r ha' (hr' 4))
  · rw [← getReg_advance_operand] at hp
    subst hp
    exact callsDevice_of_run (exec_movRegPtrReg s p r) (loadWord_of_external r ha' (hr' 3))
  · have hle : b.toNat + (operand 5 s o).toNat ≤ 0xFFFF := by omega
    have hexec := exec_movLitOffReg_of_le r hle
    rw [hsum] at hexec
    exact callsDevice_of_run hexec (loadWord_of_external r ha' (hr' 5))
  · rw [← sp_advance s 3] at hsp
    subst hsp
    exact callsDevice_of_run (exec_pshLit s l) (push_of_external l ha' (hr' 3))
  · rw [← getReg_advance_operand]
    rw [← sp_advance s 2] at hsp
    subst hsp
    exact callsDevice_of_run (exec_pshReg s r) (push_of_external _ ha' (hr' 2))
  · rw [← sp_advance s 2] at hsp
    refine callsDevice_of_run (exec_pop s r) ?_
    rw [Format.length, pop_of_external hsp ha (hr' 2), State.advance_draws]
    split <;> rfl

end Sys2Proof.Machine
end

section
/-!
PROOFS. The statements of 30_encoding.md's family: the encoding read back and what a decoded instruction is (R94 to R100); a
step's fetch, its unknown opcodes and its faults (R92 to R106); and the instructions that write one register, jump or call, whose
operands are read with `ip` past the instruction (R104).
-/

namespace Sys2Proof.Machine

/-! ### Encode, then decode (30_encoding.md R95, R100) -/

section
variable {c : Config} {b : Byte} {op : Op} {x y : Reg} {v w : Word}
  (hm : c.opcodeMap = opcodeTable) (hb : opcodeTable.lookup b = some op) (rest : List Byte)
include hm hb

theorem decode_noArgs {i : Instr} (hs : op.shape = .noArgs i) : decode c (b :: rest) = .ok i rest := by
  rw [decode_cons hm hb, hs, decodeShape]

theorem decode_reg {k : Reg → Instr} (hs : op.shape = .reg k) (h : [x].all (Reg.present c) = true) :
    decode c (b :: encodeReg x :: rest) = .ok (k x) rest := by
  have hx : x.present c = true := by simpa using h
  rw [decode_cons hm hb, hs, decodeShape, takeReg_encodeReg c hx, Parsed.bind]

theorem decode_lit {k : Word → Instr} (hs : op.shape = .lit k) :
    decode c (b :: (litBytes v ++ rest)) = .ok (k v) rest := by
  rw [decode_cons hm hb, hs, decodeShape, takeWord_litBytes, Parsed.bind]

theorem decode_regReg {k : Reg → Reg → Instr} (hs : op.shape = .regReg k) (h : [x, y].all (Reg.present c) = true) :
    decode c (b :: encodeReg x :: encodeReg y :: rest) = .ok (k x y) rest := by
  obtain ⟨hx, hy⟩ : x.present c = true ∧ y.present c = true := by simpa using h
  simp only [decode_cons hm hb, hs, decodeShape, takeReg_encodeReg c hx, takeReg_encodeReg c hy, Parsed.bind]

theorem decode_regLit {k : Reg → Word → Instr} (hs : op.shape = .regLit k) (h : [x].all (Reg.present c) = true) :
    decode c (b :: encodeReg x :: (litBytes v ++ rest)) = .ok (k x v) rest := by
  have hx : x.present c = true := by simpa using h
  simp only [decode_cons hm hb, hs, decodeShape, takeReg_encodeReg c hx, takeWord_litBytes, Parsed.bind]

theorem decode_litReg {k : Word → Reg → Instr} (hs : op.shape = .litReg k) (h : [x].all (Reg.present c) = true) :
    decode c (b :: (litBytes v ++ encodeReg x :: rest)) = .ok (k v x) rest := by
  have hx : x.present c = true := by simpa using h
  simp only [decode_cons hm hb, hs, decodeShape, takeReg_encodeReg c hx, takeWord_litBytes, Parsed.bind]

theorem decode_litLit {k : Word → Word → Instr} (hs : op.shape = .litLit k) :
    decode c (b :: (litBytes v ++ (litBytes w ++ rest))) = .ok (k v w) rest := by
  simp only [decode_cons hm hb, hs, decodeShape, takeWord_litBytes, Parsed.bind]

theorem decode_litRegReg {k : Word → Reg → Reg → Instr} (hs : op.shape = .litRegReg k)
    (h : [x, y].all (Reg.present c) = true) :
    decode c (b :: (litBytes v ++ encodeReg x :: encodeReg y :: rest)) = .ok (k v x y) rest := by
  obtain ⟨hx, hy⟩ : x.present c = true ∧ y.present c = true := by simpa using h
  simp only [decode_cons hm hb, hs, decodeShape, takeReg_encodeReg c hx, takeReg_encodeReg c hy, takeWord_litBytes,
    Parsed.bind]

end

/-- Settles O1: by the shape of its operands, each instruction is read back from its bytes. -/
theorem decodeEncode : Obligations.DecodeEncode := by
  intro c i rest hm h
  cases i
  case ret | retInt | hlt => exact decode_noArgs hm rfl rest rfl
  case incReg | decReg | not | pshReg | pop | calReg => exact decode_reg hm rfl rest rfl h
  case pshLit | calLit | int => exact decode_lit hm rfl rest rfl
  case movRegReg | movRegPtrReg | addRegReg | subRegReg | mulRegReg | lsfRegReg | rsfRegReg | andRegReg | orRegReg
      | xorRegReg => exact decode_regReg hm rfl rest rfl h
  case movRegMem | subRegLit | lsfRegLit | rsfRegLit | jneReg | jeqReg | jltReg | jgtReg | jleReg | jgeReg =>
    exact decode_regLit hm rfl rest rfl h
  case movLitReg | movMemReg | addLitReg | subLitReg | mulLitReg | andLitReg | orLitReg | xorLitReg =>
    exact decode_litReg hm rfl rest rfl h
  case movLitMem | jmpNotEq | jeqLit | jltLit | jgtLit | jleLit | jgeLit => exact decode_litLit hm rfl rest rfl
  case movLitOffReg => exact decode_litRegReg hm rfl rest rfl h

/-! ### What is decoded (30_encoding.md R94, R99, R102) -/

/-- The registers an instruction names are the register operands its shape reads, in their order. -/
def namesOperands : Shape → Prop
  | .noArgs i => i.regs = []
  | .reg k => ∀ r, (k r).regs = [r]
  | .lit k => ∀ l, (k l).regs = []
  | .regReg k => ∀ a b, (k a b).regs = [a, b]
  | .regLit k => ∀ r l, (k r l).regs = [r]
  | .litReg k => ∀ l r, (k l r).regs = [r]
  | .litLit k => ∀ l a, (k l a).regs = []
  | .litRegReg k => ∀ l a b, (k l a b).regs = [a, b]

theorem namesOperands_shape (op : Op) : namesOperands op.shape := by
  cases op <;> simp [Op.shape, namesOperands, Instr.regs]

/-- Every register the decoder reads exists, so what it makes of them is well formed. -/
theorem wf_of_decodeShape {c : Config} {sh : Shape} {bs rest : List Byte} {i : Instr} (hn : namesOperands sh)
    (h : decodeShape c sh bs = .ok i rest) : i.wf c = true := by
  have hread := (decodeShape_eq_ok h).2
  cases sh with
  | noArgs k =>
    obtain rfl : i = k := hread
    simp [Instr.wf, show i.regs = [] from hn]
  | reg k =>
    obtain ⟨r, rfl, hr⟩ := hread
    simp [Instr.wf, hn r, hr]
  | lit k =>
    obtain ⟨l, rfl⟩ := hread
    simp [Instr.wf, hn l]
  | regReg k =>
    obtain ⟨a, b, rfl, ha, hb⟩ := hread
    simp [Instr.wf, hn a b, ha, hb]
  | regLit k =>
    obtain ⟨r, l, rfl, hr⟩ := hread
    simp [Instr.wf, hn r l, hr]
  | litReg k =>
    obtain ⟨l, r, rfl, hr⟩ := hread
    simp [Instr.wf, hn l r, hr]
  | litLit k =>
    obtain ⟨l, a, rfl⟩ := hread
    simp [Instr.wf, hn l a]
  | litRegReg k =>
    obtain ⟨l, a, b, rfl, ha, hb⟩ := hread
    simp [Instr.wf, hn l a b, ha, hb]

/-- The operand bytes a shape reads are those of the format beside it (R99). -/
theorem shapeOperands_shape (op : Op) : shapeOperands op.shape + 1 = op.format.length := by cases op <;> rfl

/-- Settles O2: the decoder read an opcode byte and the operands of its shape. -/
theorem decodedInstructionIsWellFormed : Obligations.DecodedInstructionIsWellFormed := by
  intro c bs rest i h
  obtain ⟨b, op, tl, rfl, hop, hshape⟩ := decode_eq_ok h
  obtain ⟨⟨operands, rfl, hlen⟩, -⟩ := decodeShape_eq_ok hshape
  exact ⟨wf_of_decodeShape (namesOperands_shape op) hshape, b, operands, op, rfl, hop,
    by rw [List.length_cons, hlen, shapeOperands_shape]⟩

/-- Settles O3, by evaluation of the decoder. -/
theorem sampleWordsDecode : Obligations.SampleWordsDecode := ⟨rfl, rfl, rfl, rfl, rfl, rfl, rfl, rfl⟩

/-- Settles O4, by evaluation of the table, once for each instruction. -/
theorem opcodesAssigned : Obligations.OpcodesAssigned :=
  ⟨rfl, by decide, fun op => by cases op <;> rfl⟩

/-! ### The fetch of a step (30_encoding.md R101, R103, R106) -/

section
variable {s : State} {k : Nat}

/-- The opcode byte in a buffer, assigned: the operands follow. -/
theorem fetchInstr_of_opOf_some {op : Op} (hk : s.byteCell (s.getReg .ip).toNat = some k)
    (hop : s.cfg.opOf (s.mem.read k) = some op) :
    fetchInstr s = (fetchShape op.shape (s.advance 1)).bind fun i u => .ok (some i) u := by
  simp [fetchInstr, fetch8_of_byteCell hk, hop]

/-- The opcode byte in a buffer, unknown. -/
theorem fetchInstr_of_opOf_none (hk : s.byteCell (s.getReg .ip).toNat = some k)
    (hop : s.cfg.opOf (s.mem.read k) = none) :
    fetchInstr s = if s.cfg.strictOpcodes then .raised (.illegalOpcode (s.mem.read k)) (s.advance 1)
      else .ok none (s.advance 1) := by
  cases hstrict : s.cfg.strictOpcodes <;> simp [fetchInstr, fetch8_of_byteCell hk, hop, hstrict]

theorem fetchInstr_of_byteFault {f : Fault} (hf : s.byteFault (s.getReg .ip).toNat = some f) :
    fetchInstr s = .raised f s := by
  simp [fetchInstr, fetch8, memRead8_of_byteFault hf]

end

/-- A step whose fetch gives an instruction. -/
theorem step_of_fetchInstr_some {s u : State} {i : Instr} (hc : s.cfg.wf = true) (hs : s.stopped = false)
    (h : fetchInstr s = .ok (some i) u) : step s = exec i (u.rewind (s.getReg .ip)) := by
  simp [step, stepRunning, hc, hs, h]

/-- A step whose fetch gives a no-op. -/
theorem step_of_fetchInstr_none {s u : State} (hc : s.cfg.wf = true) (hs : s.stopped = false)
    (h : fetchInstr s = .ok none u) : step s = .next u := by
  simp [step, stepRunning, hc, hs, h]

/-- Settles O10, by the two answers of the fetch of an unknown opcode byte. -/
theorem unknownOpcode : Obligations.UnknownOpcode := by
  intro s k hc hs hk hop
  have hfetch := fetchInstr_of_opOf_none hk hop
  refine ⟨fun hlax => ?_, fun hstrict => ?_⟩
  · rw [hlax, if_neg Bool.false_ne_true] at hfetch
    exact ⟨_, step_of_fetchInstr_none hc hs hfetch, by simp, ⟨rfl, rfl⟩, unchanged_advance_setMem fun _ _ => rfl⟩
  · rw [hstrict, if_pos rfl] at hfetch
    exact step_of_fetchInstr_raised hc hs hfetch

/-- Operands of which one faults after those before it were fetched: `ip` has passed these. -/
theorem fetchOperands_of_operandFault {before after : List OperandKind} {kind : OperandKind} {s : State} {f : Fault}
    {n : Nat} (hbefore : s.operandsRead (s.getReg .ip) before = true)
    (hf : s.operandFault (s.getReg .ip + BitVec.ofNat 16 (operandsLength before)) kind = some (f, n)) :
    fetchOperands (before ++ kind :: after) s = .raised f (s.advance (operandsLength before + n)) := by
  have hkind : fetchOperand kind (s.advance (operandsLength before)) =
      .raised f (s.advance (operandsLength before + n)) := by
    rw [← advance_advance]
    exact fetchOperand_of_operandFault (by rw [operandFault_advance]; simpa using hf)
  rw [fetchOperands_append, fetchOperands_of_operandsRead hbefore, Res.bind_ok, fetchOperands, hkind, Res.bind_raised]

/-- Settles O11: the fetch of the opcode byte, or of the operands after it, raises the fault of the step. -/
theorem fetchFaults : Obligations.FetchFaults := by
  intro s hc hs a
  refine ⟨fun f hf => step_of_fetchInstr_raised hc hs (fetchInstr_of_byteFault hf), ?_⟩
  intro k op hk hop before kind after hformat hbefore f n hf
  have hip : (s.advance 1).getReg .ip = a + 1 := by simp [a]
  have hshape : fetchShape op.shape (s.advance 1) = .raised f (s.advance (1 + operandsLength before + n)) := by
    rw [Nat.add_assoc, ← advance_advance]
    refine fetchShape_raised ?_
    rw [shapeKinds_eq_operands, hformat]
    exact fetchOperands_of_operandFault (by rwa [hip, operandsRead_advance]) (by rwa [hip, operandFault_advance])
  exact step_of_fetchInstr_raised hc hs (by rw [fetchInstr_of_opOf_some hk hop, hshape, Res.bind_raised])

/-- Fetching the instruction whose bytes stand at `ip` reads what the decoder reads, and moves `ip` past it. -/
theorem Code.fetchInstr {g : Region} {s : State} {bs rest : List Byte} {i : Instr} (h : Code g s bs)
    (hd : decode s.cfg bs = .ok i rest) : ∃ n, Machine.fetchInstr s = .ok (some i) (s.advance n) := by
  obtain ⟨b, op, tl, rfl, hop, hshape⟩ := decode_eq_ok hd
  obtain ⟨hb, htl⟩ := h.fetch8
  refine ⟨1 + shapeOperands op.shape, ?_⟩
  simp [Machine.fetchInstr, hb, hop, htl.shape hshape, advance_advance]

/-- Settles O6: the fetch of code in memory leaves a state that `ip` alone tells from the one before. -/
theorem stepRunsDecoded : Obligations.StepRunsDecoded := by
  refine ⟨fun s i bs hc hs hcode hd => ?_, fun s u i hc hs h => step_of_fetchInstr_some hc hs h⟩
  obtain ⟨hlen, g, hbytes⟩ := hcode
  obtain ⟨n, hn⟩ := Code.fetchInstr (g := g) ⟨hlen, hbytes⟩ hd
  rw [step_of_fetchInstr_some hc hs hn, State.rewind_advance]

/-! ### Moves to a register (40_data_movement.md R120, R121) -/

/-- Settles O30: the effect writes one register, after `ip` has moved. -/
theorem moveToRegister : Obligations.MoveToRegister := fun s =>
  ⟨fun l r => writesReg_of_run (v := fun _ => l) (exec_movLitReg s l r) rfl rfl,
    fun src d => writesReg_of_run (exec_movRegReg s src d) rfl (getReg_advance_operand s 3 src)⟩

/-! ### Conditional jumps (42_branch.md R180) -/

/-- A jump whose condition on the value and `acc` is `p`. -/
theorem jumpsWhen_of_run {i : Instr} {f : Format} {n : Nat} {c : Cond} {v : State → Word} {x t : Word} {p : Prop}
    {s : State} (h : exec i s = run f (fun s => .ok () (jumpIf c (v s) t s)) s) (hn : f.length = n) (hv : v (s.advance n) = x)
    (hp : condHolds c x (s.getReg .acc) = true ↔ p) : JumpsWhen i n p t s := by
  subst hn hv
  have hacc : (s.advance f.length).getReg .acc = s.getReg .acc := by simp
  have hnext := h.trans (run_of_ok rfl)
  rw [jumpIf, hacc] at hnext
  by_cases hcond : p
  · rw [if_pos (hp.mpr hcond)] at hnext
    refine ⟨_, hnext, fun _ => by simp, fun hnot => absurd hcond hnot, ⟨rfl, rfl⟩,
      ⟨fun r hr => ?_, fun _ _ => rfl, rfl, rfl, rfl, rfl, rfl⟩⟩
    simp [List.mem_singleton.not.mp hr]
  · rw [if_neg (mt hp.mp hcond)] at hnext
    exact ⟨_, hnext, fun hyes => absurd hyes hcond, fun _ => by simp, ⟨rfl, rfl⟩, unchanged_advance_setMem fun _ _ => rfl⟩

theorem jumpsWhen_lit {i : Instr} {c : Cond} {v t : Word} {p : Prop} {s : State}
    (h : exec i s = run .litMem (fun s => .ok () (jumpIf c v t s)) s) (hp : condHolds c v (s.getReg .acc) = true ↔ p) :
    JumpsWhen i 5 p t s :=
  jumpsWhen_of_run (v := fun _ => v) h rfl rfl hp

theorem jumpsWhen_reg {i : Instr} {c : Cond} {r : Reg} {t : Word} {p : Prop} {s : State}
    (h : exec i s = run .regMem (fun s => .ok () (jumpIf c (s.getReg r) t s)) s)
    (hp : condHolds c (operand 4 s r) (s.getReg .acc) = true ↔ p) : JumpsWhen i 4 p t s :=
  jumpsWhen_of_run h rfl (getReg_advance_operand s 4 r) hp

/-- Settles O43: each form is one jump, its value the literal or the register after `ip` has moved. -/
theorem jumpsOnEquality : Obligations.JumpsOnEquality := fun s t =>
  ⟨fun v => ⟨jumpsWhen_lit (exec_jmpNotEq s v t) decide_eq_true_iff, jumpsWhen_lit (exec_jeqLit s v t) decide_eq_true_iff⟩,
    fun r => ⟨jumpsWhen_reg (exec_jneReg s r t) decide_eq_true_iff, jumpsWhen_reg (exec_jeqReg s r t) decide_eq_true_iff⟩⟩

/-- Settles O44: the same of the four orders, compared as natural numbers. -/
theorem jumpsOnOrder : Obligations.JumpsOnOrder := fun s t =>
  ⟨fun v => ⟨jumpsWhen_lit (exec_jltLit s v t) decide_eq_true_iff, jumpsWhen_lit (exec_jgtLit s v t) decide_eq_true_iff,
      jumpsWhen_lit (exec_jleLit s v t) decide_eq_true_iff, jumpsWhen_lit (exec_jgeLit s v t) decide_eq_true_iff⟩,
    fun r => ⟨jumpsWhen_reg (exec_jltReg s r t) decide_eq_true_iff, jumpsWhen_reg (exec_jgtReg s r t) decide_eq_true_iff,
      jumpsWhen_reg (exec_jleReg s r t) decide_eq_true_iff, jumpsWhen_reg (exec_jgeReg s r t) decide_eq_true_iff⟩⟩

/-! ### Calls (43_stack_call.md R202, R207, R208) -/

/-- The state after a call of `n` bytes whose pushes left the store `m`. -/
def afterCall (s : State) (n : Nat) (target : Word) (m : Memory) : State :=
  (((afterPushes (s.advance n) 10 m).setReg .fp (s.getReg .sp - 20)).setSfs 0).setReg .ip target

/-- A call pushes the frame of the state with `ip` past the instruction. -/
theorem exec_of_call {s : State} {i : Instr} {n : Nat} {target : Word}
    (hi : (i = .calLit target ∧ n = 3) ∨ (∃ r, i = .calReg r ∧ n = 2 ∧ target = operand 2 s r))
    (hp : s.pushable (s.getReg .sp) 10 = true) :
    ∃ m, exec i s = .next (afterCall s n target m) ∧
      PushedOnto (s.advance n) (s.getReg .sp) (frameWords (s.advance n)) m := by
  obtain ⟨m, hpush, hwords⟩ := pushState_of_pushable (s := s.advance n) (by rwa [sp_advance, pushable_advance])
  rw [sp_advance] at hpush hwords
  refine ⟨m, ?_, hwords⟩
  have hcall : callTo target (s.advance n) = .ok () (afterCall s n target m) := by
    rw [callTo, hpush, Res.bind_ok, afterCall]
  obtain ⟨rfl, rfl⟩ | ⟨r, rfl, rfl, rfl⟩ := hi
  · exact (exec_calLit s target).trans (run_of_ok hcall)
  · rw [← getReg_advance_operand] at hcall ⊢
    exact (exec_calReg s r).trans (run_of_ok hcall)

theorem callsTarget_of_exec {s : State} {i : Instr} {n : Nat} {target : Word} {m : Memory}
    (h : exec i s = .next (afterCall s n target m))
    (hm : PushedOnto (s.advance n) (s.getReg .sp) (frameWords (s.advance n)) m) : CallsTarget i target s := by
  refine ⟨_, h, by simp [afterCall], ?_, by simp [afterCall], rfl, rfl,
    ⟨fun r hr => ?_, fun k hk => ?_, rfl, rfl, rfl, rfl, rfl⟩⟩
  · simp [afterCall, afterPushes]
  · simp only [List.mem_cons, List.not_mem_nil, or_false, not_or] at hr
    simp [afterCall, afterPushes, hr]
  · exact hm.same k (by rw [pushedCells_advance]; exact hk)

/-- The ten words pushed to different cells, read back as the frame at the new `fp`. -/
theorem frameHolds_afterCall {s : State} {n : Nat} {target : Word} {m : Memory}
    (hlen : (s.pushedCells (s.getReg .sp) 10).length = 20) (hnd : (s.pushedCells (s.getReg .sp) 10).Nodup)
    (hm : PushedOnto (s.advance n) (s.getReg .sp) (frameWords (s.advance n)) m) :
    let t := afterCall s n target m
    FrameHolds (s.getReg .ip + BitVec.ofNat 16 n) s t ∧ t.popped (t.getReg .fp) 0 = s.sfs + 20 := by
  intro t
  have hfp : t.getReg .fp = s.getReg .sp - BitVec.ofNat 16 (2 * 10) := by simp [t, afterCall]
  have hmb : t.getReg .mb = s.getReg .mb := by simp [t, afterCall, afterPushes]
  have hword := popped_of_pushedOnto (t := t) (n := 10) hm rfl (by simp) hlen hnd rfl rfl hmb fun _ _ => rfl
  simp [FrameHolds, hfp, hword, frameWords]

/-- Settles O47: the frame is pushed from the state with `ip` past the instruction, and read back word by word. -/
theorem call : Obligations.Call := by
  intro s i n target hi hp
  obtain ⟨m, hexec, hm⟩ := exec_of_call hi hp
  refine ⟨callsTarget_of_exec hexec hm, fun hlen hnd t ht => ?_⟩
  obtain rfl : t = afterCall s n target m := by simpa [hexec] using ht.symm
  exact frameHolds_afterCall hlen hnd hm

end Sys2Proof.Machine
end

section
/-!
PROOFS. The statements of 41_alu.md's family: each ALU function of the model as exact arithmetic reduced modulo 2^16 (R147),
what an instruction of each form writes, its operands read with `ip` past the instruction (R104), and from these the
instructions.
-/

namespace Sys2Proof.Machine

/-! ### The results, exact and then truncated (41_alu.md R147, R154) -/

theorem trunc16_natCast (n : Nat) : trunc16 n = BitVec.ofNat 16 n := BitVec.ofInt_natCast 16 n

theorem ofInt_toNat (a : Word) : BitVec.ofInt 16 a.toNat = a := by
  rw [BitVec.ofInt_natCast, BitVec.ofNat_toNat, BitVec.setWidth_eq]

theorem aluAdd_eq_trunc16 (a b : Word) : aluAdd a b = trunc16 (a.toNat + b.toNat) := by
  rw [trunc16, BitVec.ofInt_add, ofInt_toNat, ofInt_toNat, aluAdd]

theorem aluSub_eq_trunc16 (a b : Word) : aluSub a b = trunc16 (a.toNat - b.toNat) := by
  rw [trunc16, Int.sub_eq_add_neg, BitVec.ofInt_add, BitVec.ofInt_neg, ofInt_toNat, ofInt_toNat, ← BitVec.sub_eq_add_neg, aluSub]

theorem aluMul_eq_trunc16 (a b : Word) : aluMul a b = trunc16 (a.toNat * b.toNat) := by
  rw [trunc16, BitVec.ofInt_mul, ofInt_toNat, ofInt_toNat, aluMul]

/-- The complement is what is left to `0xFFFF` (R167). -/
theorem aluNot_eq_trunc16 (a : Word) : aluNot a = trunc16 (0xFFFF - a.toNat) := by
  have hones : BitVec.allOnes 16 - a = trunc16 (0xFFFF - a.toNat) := aluSub_eq_trunc16 (BitVec.allOnes 16) a
  rw [← hones, BitVec.allOnes_sub_eq_not, aluNot]

/-- A left shift multiplies by a power of two (R154). -/
theorem shiftLeft_eq_trunc16 (v : Word) (k : Nat) : shiftLeft v k = trunc16 (v.toNat * 2 ^ k : Nat) := by
  rw [trunc16_natCast, shiftLeft, ← BitVec.toNat_inj, BitVec.toNat_shiftLeft, BitVec.toNat_ofNat, Nat.shiftLeft_eq]

/-- A logical right shift divides by a power of two (R154). -/
theorem shiftRight_eq_trunc16 (v : Word) (k : Nat) : shiftRight v k = trunc16 (v.toNat / 2 ^ k : Nat) := by
  have hlt : v.toNat / 2 ^ k < 2 ^ 16 := (Nat.div_le_self _ _).trans_lt v.isLt
  rw [trunc16_natCast, shiftRight, ← BitVec.toNat_inj, BitVec.toNat_ushiftRight, BitVec.toNat_ofNat,
    Nat.shiftRight_eq_div_pow, Nat.mod_eq_of_lt hlt]

/-! ### The forms (41_alu.md R148, R150, R154) -/

section

variable {i : Instr} {s : State} {w : Word}

theorem writesReg_aluRegReg {op : Word → Word → Word} {a b : Reg} (h : exec i s = aluRegReg op a b s)
    (hw : op (operand 3 s a) (operand 3 s b) = w) : WritesReg i 3 .acc w s :=
  writesReg_of_run (v := fun s => op (s.getReg a) (s.getReg b)) h rfl (by simpa only [getReg_advance_operand] using hw)

theorem writesReg_aluLitReg {op : Word → Word → Word} {l : Word} {r : Reg} (h : exec i s = aluLitReg op l r s)
    (hw : op l (operand 4 s r) = w) : WritesReg i 4 .acc w s :=
  writesReg_of_run (v := fun s => op l (s.getReg r)) h rfl (by simpa only [getReg_advance_operand] using hw)

theorem writesReg_shiftRegReg {op : Word → Nat → Word} {r n : Reg} (h : exec i s = shiftRegReg op r n s)
    (hw : op (operand 3 s r) (shiftAmount s.cfg (operand 3 s n)) = w) : WritesReg i 3 r w s :=
  writesReg_of_run (v := fun s => op (s.getReg r) (shiftAmount s.cfg (s.getReg n))) h rfl
    (by simpa only [getReg_advance_operand, State.advance_cfg] using hw)

theorem writesReg_shiftRegLit {op : Word → Nat → Word} {r : Reg} {n : Word} (h : exec i s = shiftRegLit op r n s)
    (hw : op (operand 4 s r) (shiftAmount s.cfg n) = w) : WritesReg i 4 r w s :=
  writesReg_of_run (v := fun s => op (s.getReg r) (shiftAmount s.cfg n)) h rfl
    (by simpa only [getReg_advance_operand, State.advance_cfg] using hw)

/-- Format `single_reg`; the result goes to the operand itself or to `acc`. -/
theorem writesReg_singleReg (op : Word → Word) {r d : Reg}
    (h : exec i s = run .singleReg (fun s => .ok () (s.setReg d (op (s.getReg r)))) s) (hw : op (operand 2 s r) = w) :
    WritesReg i 2 d w s :=
  writesReg_of_run h rfl (by simpa only [getReg_advance_operand] using hw)

end

/-! ### The instructions -/

/-- Settles O37, by the form of each instruction and its function as exact arithmetic. -/
theorem addAndSubtract : Obligations.AddAndSubtract := fun s =>
  ⟨fun a b => writesReg_aluRegReg (exec_addRegReg s a b) (aluAdd_eq_trunc16 _ _),
    fun l r => writesReg_aluLitReg (exec_addLitReg s l r) (aluAdd_eq_trunc16 _ _),
    fun a b => writesReg_aluRegReg (exec_subRegReg s a b) (aluSub_eq_trunc16 _ _)⟩

/-- `SUB_REG_LIT` alone has the register as its first operand (R144). -/
theorem writesReg_subRegLit (s : State) (r : Reg) (l : Word) :
    WritesReg (.subRegLit r l) 4 .acc (aluSub (operand 4 s r) l) s := by
  rw [← getReg_advance_operand]
  exact writesReg_of_run (exec_subRegLit s r l) rfl rfl

/-- Settles O38: the same of the other order of subtraction and of the product. -/
theorem subtractLiteralAndMultiply : Obligations.SubtractLiteralAndMultiply := fun s =>
  ⟨fun l r => ⟨writesReg_aluLitReg (exec_subLitReg s l r) (aluSub_eq_trunc16 _ _),
      aluSub_eq_trunc16 _ l ▸ writesReg_subRegLit s r l⟩,
    fun a b => writesReg_aluRegReg (exec_mulRegReg s a b) (aluMul_eq_trunc16 _ _),
    fun l r => writesReg_aluLitReg (exec_mulLitReg s l r) (aluMul_eq_trunc16 _ _)⟩

/-- Settles O39: the operand is also the destination. -/
theorem incrementAndDecrement : Obligations.IncrementAndDecrement := fun s r =>
  ⟨writesReg_singleReg (aluAdd · 1) (exec_incReg s r) (aluAdd_eq_trunc16 _ 1),
    writesReg_singleReg (aluSub · 1) (exec_decReg s r) (aluSub_eq_trunc16 _ 1)⟩

/-- Settles O40: a shift is a product or a quotient by a power of two, whatever the amount. -/
theorem shifts : Obligations.Shifts := fun s r =>
  ⟨fun n => ⟨writesReg_shiftRegReg (exec_lsfRegReg s r n) (shiftLeft_eq_trunc16 _ _),
      writesReg_shiftRegReg (exec_rsfRegReg s r n) (shiftRight_eq_trunc16 _ _)⟩,
    fun n => ⟨writesReg_shiftRegLit (exec_lsfRegLit s r n) (shiftLeft_eq_trunc16 _ _),
      writesReg_shiftRegLit (exec_rsfRegLit s r n) (shiftRight_eq_trunc16 _ _)⟩⟩

/-- Settles O41: the words' bits are the library's, and the complement is a difference. -/
theorem bitwiseOfRegisters : Obligations.BitwiseOfRegisters := fun s a b =>
  ⟨⟨_, fun _ => BitVec.getLsbD_and, writesReg_aluRegReg (exec_andRegReg s a b) rfl⟩,
    ⟨_, fun _ => BitVec.getLsbD_or, writesReg_aluRegReg (exec_orRegReg s a b) rfl⟩,
    ⟨_, fun _ => BitVec.getLsbD_xor, writesReg_aluRegReg (exec_xorRegReg s a b) rfl⟩,
    writesReg_singleReg aluNot (exec_not s a) (aluNot_eq_trunc16 _)⟩

/-- Settles O42: the literal is the first operand. -/
theorem bitwiseOfLiteral : Obligations.BitwiseOfLiteral := fun s l r =>
  ⟨⟨_, fun _ => BitVec.getLsbD_and, writesReg_aluLitReg (exec_andLitReg s l r) rfl⟩,
    ⟨_, fun _ => BitVec.getLsbD_or, writesReg_aluLitReg (exec_orLitReg s l r) rfl⟩,
    ⟨_, fun _ => BitVec.getLsbD_xor, writesReg_aluLitReg (exec_xorLitReg s l r) rfl⟩⟩

end Sys2Proof.Machine
end

section
/-!
PROOFS. The statements of 43_stack_call.md's family: the frame relation (R213), one word pushed and popped (R206, R212), a frame
taken back by `RET` and `RET_INT` (R203, R209, 44_system.md R231) and, after a call or an interrupt, read back as it was pushed
(R214, 60_exceptions.md R266), and the stack instructions that a fault breaks off (60_exceptions.md R252).
-/

namespace Sys2Proof.Machine

/-! ### The frame relation (43_stack_call.md R213) -/

/-- What a pop that answers leaves, from whatever device. -/
theorem pop_ok_frame {v : Word} {s t : State} (h : pop s = .ok v t) :
    t.getReg .sp = s.getReg .sp + 2 ∧ t.sfs = s.sfs - 2 ∧ t.getReg .fp = s.getReg .fp := by
  obtain ⟨x, u, hread, hu⟩ := Res.bind_eq_ok.mp h
  have hf : Frames [] false false false (popMove s) u := by
    have := Frames.memRead16 (w := []) (store := false) (stack := false) (hand := false)
      ((popMove s).getReg .sp).toNat (popMove s)
    rwa [hread] at this
  cases hu
  have hsfs : u.sfs = s.sfs := hf.sfs rfl
  simp [hf.regs, hsfs, popMove]

/-- Settles O29: `sp` and `sfs` move by the same amount in opposite directions, and `push_state` ends with `fp = sp` and
`sfs = 0`. -/
theorem frameRelation : Obligations.FrameRelation := by
  refine ⟨fun v s t h hs => ?_, fun v s t h hs => ?_, fun s t h => ?_⟩
  · obtain ⟨hregs, hsfs, hsp, -⟩ := push_ok_frame h
    rw [State.frameInv] at hs ⊢
    rw [hregs .fp (by decide), hsp, hsfs, ← hs]
    bv_omega
  · obtain ⟨hsp, hsfs, hfp⟩ := pop_ok_frame h
    rw [State.frameInv] at hs ⊢
    rw [hfp, hsp, hsfs, ← hs]
    bv_omega
  · rw [pushState_eq] at h
    obtain ⟨⟨⟩, u, -, hu⟩ := Res.bind_eq_ok.mp h
    cases hu
    simp [State.frameInv]

/-! ### One word (43_stack_call.md R206, R212) -/

/-- Settles O46: the pop is made with `ip` past the instruction, and the register is written last. -/
theorem popWord : Obligations.PopWord := by
  intro s r k hk
  have hpop := pop_of_wordCell (s := s.advance 2) (by rw [sp_advance, wordCell_advance, hk]; rfl)
  have hword : (s.advance 2).wordAt ((s.advance 2).getReg .sp + 2).toNat =
      joinBytes (s.mem.read k) (s.mem.read (k + 1)) := by
    rw [State.wordAt, sp_advance, wordCell_advance, hk]
    rfl
  rw [hword] at hpop
  have hexec := (exec_pop s r).trans (run_of_ok (by rw [Format.length, hpop, Res.bind_ok]))
  refine ⟨_, hexec, by simp, fun hr => ?_, fun hr => ?_, rfl, rfl,
    ⟨fun q hq => ?_, fun _ _ => rfl, rfl, rfl, rfl, rfl, rfl⟩⟩
  · simp [hr.symm]
  · simp [hr.symm]
  · simp only [List.mem_cons, List.not_mem_nil, or_false, not_or] at hq
    simp [hq]

/-- Settles O50: the push leaves its word where the pop then reads it, at the old `sp`. -/
theorem pushThenPop : Obligations.PushThenPop := by
  intro s t v hrom hcell hpush
  obtain ⟨k, hk⟩ := Option.isSome_iff_exists.mp hcell
  rw [push, memWrite16_of_wordCell v hrom hk, Res.bind_ok] at hpush
  cases hpush
  generalize ht : State.setSfs _ _ = t
  obtain ⟨hhi, hlo, -⟩ := Memory.read_writeWord s.mem k v
  have hsp : t.getReg .sp + 2 = s.getReg .sp := by simp [← ht]
  have hcell' : t.wordCell (s.getReg .sp).toNat = some k := by
    rw [State.wordCell_congr (s := s) (by rw [← ht]; rfl) (by simp [← ht]), hk]
  have hword : t.wordAt (s.getReg .sp).toNat = v := by
    rw [State.wordAt, hcell']
    simp [← ht, hhi, hlo, join_hi_lo]
  have hpop := pop_of_wordCell (s := t) (by rw [hsp, hcell']; rfl)
  rw [hsp, hword] at hpop
  refine ⟨_, hpop, by simp [← ht], fun r => ?_, rfl⟩
  by_cases hr : r = .sp <;> simp [hr, ← ht]

/-! ### A frame taken back (43_stack_call.md R203, R209; 44_system.md R231) -/

theorem Unchanged.trans {rs qs : List Reg} {cells : List Nat} {s t u : State} (h₁ : Unchanged rs cells s t)
    (h₂ : Unchanged qs cells t u) (hsub : rs ⊆ qs) : Unchanged qs cells s u where
  regs r hr := (h₂.regs r hr).trans (h₁.regs r fun h => hr (hsub h))
  mem k hk := (h₂.mem k hk).trans (h₁.mem k hk)
  cfg := h₂.cfg.trans h₁.cfg
  halted := h₂.halted.trans h₁.halted
  fault := h₂.fault.trans h₁.fault
  calls := h₂.calls.trans h₁.calls
  draws := h₂.draws.trans h₁.draws

theorem Unchanged.popped {rs : List Reg} {s t : State} (h : Unchanged rs [] s t) (hmb : .mb ∉ rs) (p : Word) (j : Nat) :
    t.popped p j = s.popped p j :=
  State.wordAt_congr h.cfg (h.regs .mb hmb) (fun k => h.mem k List.not_mem_nil) _

theorem Unchanged.poppable {rs : List Reg} {s t : State} (h : Unchanged rs [] s t) (hmb : .mb ∉ rs) (p : Word) (n : Nat) :
    t.poppable p n = s.poppable p n :=
  State.poppable_congr h.cfg (h.regs .mb hmb) p n

/-- The frame taken back does not depend on where `ip` stood. -/
theorem FrameRestored.of_unchanged_ip {s u t : State} (h : Unchanged [.ip] [] s u) (ht : FrameRestored u t) :
    FrameRestored s t := by
  have hfp : u.getReg .fp = s.getReg .fp := h.regs .fp (by decide)
  simp only [FrameRestored, hfp, h.popped (by decide)] at ht ⊢
  obtain ⟨hip, h8, h7, h6, h5, h4, h3, h2, h1, hsp, hfp', hsfs, hsame⟩ := ht
  exact ⟨hip, h8, h7, h6, h5, h4, h3, h2, h1, hsp, hfp', hsfs, h.trans hsame (by decide)⟩

/-- `pop_state` from a state that differs in `ip` and hidden state alone. -/
theorem popState_of_unchanged_ip {s u : State} (h : Unchanged [.ip] [] s u)
    (hp : s.poppable (s.getReg .fp) (11 + (s.popped (s.getReg .fp) 10).toNat) = true) :
    ∃ t, popState u = .ok () t ∧ FrameRestored s t ∧ t.inHandler = u.inHandler := by
  have hfp : u.getReg .fp = s.getReg .fp := h.regs .fp (by decide)
  obtain ⟨t, ht, hr, hh⟩ := popState_of_poppable (s := u) (by
    rwa [hfp, h.popped (by decide), h.poppable (by decide)])
  exact ⟨t, ht, hr.of_unchanged_ip h, hh⟩

theorem unchanged_advance (s : State) (n : Nat) : Unchanged [.ip] [] s (s.advance n) :=
  unchanged_advance_setMem (m := s.mem) fun _ _ => rfl

theorem unchanged_setInHandler (rs : List Reg) (s : State) (b : Bool) : Unchanged rs [] s (s.setInHandler b) :=
  ⟨fun _ _ => rfl, fun _ _ => rfl, rfl, rfl, rfl, rfl, rfl⟩

/-- The state in which `RET_INT` begins its `pop_state`. -/
theorem unchanged_advance_setInHandler (s : State) (n : Nat) (b : Bool) :
    Unchanged [.ip] [] s ((s.advance n).setInHandler b) :=
  (unchanged_advance s n).trans (unchanged_setInHandler _ _ b) (List.Subset.refl _)

/-- Settles O48: both are `pop_state` with `ip` past the instruction, `RET_INT` with `in_handler` cleared before. -/
theorem returnRestoresFrame : Obligations.Return := by
  intro s hp
  constructor
  · obtain ⟨t, ht, hr, hh⟩ := popState_of_unchanged_ip (unchanged_advance s 1) hp
    exact ⟨t, (exec_ret s).trans (run_of_ok ht), hr, hh⟩
  · obtain ⟨t, ht, hr, hh⟩ := popState_of_unchanged_ip (unchanged_advance_setInHandler s 1 false) hp
    exact ⟨t, (exec_retInt s).trans (run_of_ok ht), hr, hh⟩

/-! ### A frame pushed and taken back (43_stack_call.md R213, R214; 60_exceptions.md R266, R267) -/

section
variable {s u w : State} {resume : Word}

/-- From a frame that holds the registers of `s`, `pop_state` restores them and resumes at the saved address. -/
theorem FrameRestored.of_frameHolds (hw : FrameRestored u w) (hf : FrameHolds resume s u) :
    w.getReg .ip = resume ∧ ∀ r ∈ [.r1, .r2, .r3, .r4, .r5, .r6, .r7, .r8], w.getReg r = s.getReg r := by
  obtain ⟨hip, h8, h7, h6, h5, h4, h3, h2, h1, -⟩ := hw
  obtain ⟨gip, g8, g7, g6, g5, g4, g3, g2, g1⟩ := hf
  simp [hip, h1, h2, h3, h4, h5, h6, h7, h8, gip, g1, g2, g3, g4, g5, g6, g7, g8]

theorem FrameRestored.sp (hw : FrameRestored u w) :
    w.getReg .sp = u.getReg .fp + BitVec.ofNat 16 (2 * (11 + (u.popped (u.getReg .fp) 10).toNat)) := by
  obtain ⟨-, -, -, -, -, -, -, -, -, hsp, -⟩ := hw
  exact hsp

theorem FrameRestored.sfs (hw : FrameRestored u w) :
    w.sfs = u.popped (u.getReg .fp) 0 - BitVec.ofNat 16 (20 + 2 * (u.popped (u.getReg .fp) 10).toNat) := by
  obtain ⟨-, -, -, -, -, -, -, -, -, -, -, hsfs, -⟩ := hw
  exact hsfs

theorem FrameRestored.unchanged (hw : FrameRestored u w) :
    Unchanged [.ip, .r1, .r2, .r3, .r4, .r5, .r6, .r7, .r8, .sp, .fp] [] u w := by
  obtain ⟨-, -, -, -, -, -, -, -, -, -, -, -, hsame⟩ := hw
  exact hsame

/-- The saved frame size leads from the frame of `d` bytes back to the `fp` of before, where the frame relation held. -/
theorem FrameRestored.fp_of_frameInv {d : Word} (hw : FrameRestored u w) (hfp : u.getReg .fp = s.getReg .sp - d)
    (hsize : u.popped (u.getReg .fp) 0 = s.sfs + d) (hs : s.frameInv) : w.getReg .fp = s.getReg .fp := by
  obtain ⟨-, -, -, -, -, -, -, -, -, -, hwfp, -⟩ := hw
  rw [State.frameInv] at hs
  rw [hwfp, hsize, hfp, ← hs]
  bv_omega

variable {n : Nat} {m : Memory} (hc : u.cfg = s.cfg) (hmb : u.getReg .mb = s.getReg .mb)
include hc hmb

/-- The frame of a call of `n` bytes, in any later state that has the new `fp` and the cells pushed to. -/
theorem frameHolds_of_frameWords (hm : PushedOnto (s.advance n) (s.getReg .sp) (frameWords (s.advance n)) m)
    (hlen : (s.pushedCells (s.getReg .sp) 10).length = 20) (hnd : (s.pushedCells (s.getReg .sp) 10).Nodup)
    (hfp : u.getReg .fp = s.getReg .sp - 20) (hmem : ∀ k ∈ s.pushedCells (s.getReg .sp) 10, u.mem.read k = m.read k) :
    FrameHolds (s.getReg .ip + BitVec.ofNat 16 n) s u ∧ u.popped (u.getReg .fp) 0 = s.sfs + 20 := by
  have hword := popped_of_pushedOnto (s := s) (t := u) (n := 10) hm rfl (by simp) hlen hnd rfl hc hmb hmem
  replace hfp : u.getReg .fp = s.getReg .sp - BitVec.ofNat 16 (2 * 10) := hfp
  simp [FrameHolds, hfp, hword, frameWords]

/-- The frame of an interrupt taken `n` bytes after `s`, above its zero count word. -/
theorem frameHolds_of_interruptWords (hm : PushedOnto (s.advance n) (s.getReg .sp) (interruptWords (s.advance n)) m)
    (hlen : (s.pushedCells (s.getReg .sp) 11).length = 22) (hnd : (s.pushedCells (s.getReg .sp) 11).Nodup)
    (hfp : u.getReg .fp = s.getReg .sp - 22) (hmem : ∀ k ∈ s.pushedCells (s.getReg .sp) 11, u.mem.read k = m.read k) :
    FrameHolds (s.getReg .ip + BitVec.ofNat 16 n) s u ∧ u.popped (u.getReg .fp) 0 = s.sfs + 22 ∧
      u.popped (u.getReg .fp) 10 = 0 := by
  have hword := popped_of_pushedOnto (s := s) (t := u) (n := 11) hm rfl (by simp) hlen hnd rfl hc hmb hmem
  replace hfp : u.getReg .fp = s.getReg .sp - BitVec.ofNat 16 (2 * 11) := hfp
  simp [FrameHolds, hfp, hword, interruptWords, frameWords]

/-- What `n` pushes wrote to byte buffers, `n` pops from below can read. -/
theorem poppable_of_pushedCells (hlen : (s.pushedCells (s.getReg .sp) n).length = 2 * n) :
    u.poppable (s.getReg .sp - BitVec.ofNat 16 (2 * n)) n = true := by
  refine poppable_of_cells fun j hj => ?_
  obtain ⟨i, rfl⟩ : ∃ i, n = i + 1 + j := ⟨n - 1 - j, by omega⟩
  have hslot : s.getReg .sp - BitVec.ofNat 16 (2 * (i + 1 + j)) + BitVec.ofNat 16 (2 * j + 2) =
      s.getReg .sp - BitVec.ofNat 16 (2 * i) := by
    rw [show 2 * (i + 1 + j) = 2 * i + (2 * j + 2) by omega, BitVec.ofNat_add]
    bv_omega
  rw [State.wordCell_congr hc hmb, hslot]
  exact wordCell_of_pushedCells hlen i (by omega)

end

/-- Settles O49: the later state has the call's frame at its `fp`, and the word above it is the argument count. -/
theorem callThenReturn : Obligations.CallThenReturn := by
  intro s t u i n hi hlen hnd hexec hcfg hmb hfp hmem args hpop
  obtain ⟨target, hcall⟩ : ∃ target,
      (i = .calLit target ∧ n = 3) ∨ ∃ r, i = .calReg r ∧ n = 2 ∧ target = operand 2 s r := by
    obtain ⟨⟨target, rfl⟩, rfl⟩ | ⟨⟨r, rfl⟩, rfl⟩ := hi
    · exact ⟨target, .inl ⟨rfl, rfl⟩⟩
    · exact ⟨operand 2 s r, .inr ⟨r, rfl, rfl, rfl⟩⟩
  obtain ⟨m, hm, hwords⟩ := exec_of_call hcall (pushable_of_length hlen)
  obtain rfl : afterCall s n target m = t := by simpa [hm] using hexec
  replace hcfg : u.cfg = s.cfg := hcfg
  replace hmb : u.getReg .mb = s.getReg .mb := hmb.trans (by simp [afterCall, afterPushes])
  replace hfp : u.getReg .fp = s.getReg .sp - 20 := hfp.trans (by simp [afterCall])
  obtain ⟨hframe, hsize⟩ := frameHolds_of_frameWords hcfg hmb hwords hlen hnd hfp hmem
  have hcount : u.popped (u.getReg .fp) 10 = u.popped (s.getReg .sp) 0 := by
    rw [hfp, State.popped, State.popped]
    congr 2
    bv_omega
  obtain ⟨w, hw, hr, -⟩ := (returnRestoresFrame u (by rwa [hcount])).1
  obtain ⟨hip, hregs⟩ := hr.of_frameHolds hframe
  have hwsp : w.getReg .sp = s.getReg .sp + BitVec.ofNat 16 (2 + 2 * args) := by
    rw [hr.sp, hcount, hfp, show 2 * (11 + args) = 2 + 2 * args + 20 by omega, BitVec.ofNat_add]
    exact sub_add_add_cancel _ _ _
  refine ⟨w, hw, hregs, hip, hwsp, fun hs => ?_⟩
  have hwfp := hr.fp_of_frameInv hfp hsize hs
  refine ⟨hwfp, ?_⟩
  rw [State.frameInv] at hs
  rw [hr.sfs, hsize, hcount, hwfp, hwsp, ← hs, BitVec.ofNat_add 20, BitVec.ofNat_add 2]
  change _ - (20 + BitVec.ofNat 16 (2 * args)) = _ - (_ + (2 + BitVec.ofNat 16 (2 * args))) + 2
  ring

/-- An enabled `INT` outside a handler pushes the frame of the state with `ip` past it. -/
theorem exec_int_of_pushable {s : State} {v : Word} (he : interruptEnabled v s = true) (hh : s.inHandler = false)
    (hp : s.pushable (s.getReg .sp) 11 = true) (hv : vectorReadable v s = true) :
    ∃ m h, exec (.int v) s = .next ((interruptState (s.advance 3) m).setReg .ip h) ∧
      PushedOnto (s.advance 3) (s.getReg .sp) (interruptWords (s.advance 3)) m := by
  obtain ⟨m, hm, hwords⟩ := handleInterrupt_of_vectorReadable (s := s.advance 3) (v := v)
    (by simpa [interruptEnabled] using he) hh (by rwa [sp_advance, pushable_advance])
    (by simpa [vectorReadable, wordCell_advance] using hv)
  rw [sp_advance] at hwords
  exact ⟨m, _, (exec_int s v).trans (run_of_ok hm), hwords⟩

/-- Settles O56: the later state has the interrupt's frame at its `fp`, whose count word is zero. -/
theorem interruptThenReturn : Obligations.InterruptThenReturn := by
  intro s t u v he hh hv hlen hnd hexec hcfg hmb hfp hmem
  obtain ⟨m, h, hm, hwords⟩ := exec_int_of_pushable he hh (pushable_of_length hlen) hv
  obtain rfl : (interruptState (s.advance 3) m).setReg .ip h = t := by simpa [hm] using hexec
  replace hcfg : u.cfg = s.cfg := hcfg
  replace hmb : u.getReg .mb = s.getReg .mb := hmb.trans (by simp [interruptState, afterPushes])
  replace hfp : u.getReg .fp = s.getReg .sp - 22 := hfp.trans (by simp [interruptState])
  obtain ⟨hframe, hsize, hcount⟩ := frameHolds_of_interruptWords hcfg hmb hwords hlen hnd hfp hmem
  have hpop : u.poppable (u.getReg .fp) 11 = true := hfp ▸ poppable_of_pushedCells hcfg hmb hlen
  obtain ⟨w, hw, hr, hwh⟩ := (returnRestoresFrame u (by rwa [hcount])).2
  obtain ⟨hip, hregs⟩ := hr.of_frameHolds hframe
  refine ⟨w, hw, hwh, fun r hr' => ?_, hip, ?_, fun hs => ⟨hr.fp_of_frameInv hfp hsize hs, ?_⟩⟩
  · obtain hr' | rfl : r ∈ [.r1, .r2, .r3, .r4, .r5, .r6, .r7, .r8] ∨ r = .sp := by
      simpa [or_assoc] using hr'
    · exact hregs r hr'
    · rw [hr.sp, hcount, hfp]
      bv_omega
  · exact fun r hr' => hr.unchanged.regs r (by fin_cases hr' <;> decide)
  · rw [hr.sfs, hsize, hcount]
    bv_omega

/-! ### Stack instructions that a fault breaks off (60_exceptions.md R252) -/

theorem State.setReg_setReg (s : State) (r : Reg) (v x : Word) : (s.setReg r v).setReg r x = s.setReg r x := by
  simp only [State.setReg, RegFile.set_set]

/-- An instruction whose effect raises, with `ip` past it. -/
theorem traps_of_raised {i : Instr} {f : Format} {e : State → Res Unit} {x : Fault} {s u : State}
    (h : exec i s = run f e s) (he : e (s.advance f.length) = .raised x u) : Traps i x s u :=
  h.trans (run_of_raised he)

/-- A frame whose first push faults changes nothing. -/
theorem pushState_of_wordFault {s : State} {f : Fault} (h : s.wordFault true (s.getReg .sp).toNat = some f) :
    pushState s = .raised f s := by
  rw [pushState_eq, frameWords, pushList, push_of_wordFault _ h, Res.bind_raised, Res.bind_raised]

theorem callTo_of_raised {s u : State} {f : Fault} (target : Word) (h : pushState s = .raised f u) :
    callTo target s = .raised f u := by
  rw [callTo, h, Res.bind_raised]

/-- A frame whose first pop faults: `sp` has moved from `fp`. -/
theorem popState_of_wordFault {s : State} {f : Fault} (h : s.wordFault false (s.getReg .fp + 2).toNat = some f) :
    popState s = .raised f (s.setReg .sp (s.getReg .fp + 2)) := by
  have hsp : (s.setReg .sp (s.getReg .fp)).getReg .sp = s.getReg .fp := by simp
  have hf : (s.setReg .sp (s.getReg .fp)).wordFault false
      ((s.setReg .sp (s.getReg .fp)).getReg .sp + 2).toNat = some f := by
    rwa [hsp, State.wordFault_congr (s := s) (t := s.setReg .sp (s.getReg .fp)) rfl (by simp) rfl]
  rw [popState, pop_of_wordFault hf, hsp, State.setReg_setReg, Res.bind_raised]

theorem PopsDone.of_setInHandler {n : Nat} {s t : State} {b : Bool} (h : PopsDone n (s.setInHandler b) t) :
    PopsDone n s t := by
  obtain ⟨hsp, hsfs, hregs, hsame⟩ := h
  exact ⟨hsp, hsfs, hregs, (unchanged_setInHandler [] s b).trans hsame (List.nil_subset _)⟩

section
variable {s : State} {f : Fault}

/-- The pushing instructions, the first access faulting. -/
theorem traps_of_first_push (h : s.wordFault true (s.getReg .sp).toNat = some f) :
    (∀ l, Traps (.pshLit l) f s (s.advance 3)) ∧ (∀ r, Traps (.pshReg r) f s (s.advance 2)) ∧
      (∀ l, Traps (.calLit l) f s (s.advance 3)) ∧ ∀ r, Traps (.calReg r) f s (s.advance 2) := by
  have hf (n : Nat) : (s.advance n).wordFault true ((s.advance n).getReg .sp).toNat = some f := by
    rwa [sp_advance, wordFault_advance]
  exact ⟨fun l => traps_of_raised (exec_pshLit s l) (push_of_wordFault _ (hf 3)),
    fun r => traps_of_raised (exec_pshReg s r) (push_of_wordFault _ (hf 2)),
    fun l => traps_of_raised (exec_calLit s l) (callTo_of_raised l (pushState_of_wordFault (hf 3))),
    fun r => traps_of_raised (exec_calReg s r) (callTo_of_raised _ (pushState_of_wordFault (hf 2)))⟩

theorem traps_pop (h : s.wordFault false (s.getReg .sp + 2).toNat = some f) (r : Reg) :
    Traps (.pop r) f s ((s.advance 2).setReg .sp (s.getReg .sp + 2)) := by
  have hpop := pop_of_wordFault (s := s.advance 2) (f := f) (by rwa [sp_advance, wordFault_advance])
  rw [sp_advance] at hpop
  exact traps_of_raised (exec_pop s r) (by rw [Format.length, hpop, Res.bind_raised])

/-- The returns, the first access faulting. -/
theorem traps_of_first_pop (h : s.wordFault false (s.getReg .fp + 2).toNat = some f) :
    Traps .ret f s ((s.advance 1).setReg .sp (s.getReg .fp + 2)) ∧
      Traps .retInt f s (((s.advance 1).setReg .sp (s.getReg .fp + 2)).setInHandler false) := by
  have hf : (s.advance 1).wordFault false ((s.advance 1).getReg .fp + 2).toNat = some f := by
    rwa [show (s.advance 1).getReg .fp = s.getReg .fp by simp, wordFault_advance]
  exact ⟨traps_of_raised (exec_ret s) (popState_of_wordFault hf),
    traps_of_raised (exec_retInt s) (popState_of_wordFault (s := (s.advance 1).setInHandler false) hf)⟩

/-- A call broken off at push number `n`: the pushes before it stand. -/
theorem callTo_broken {n : Nat} (k : Nat) (hn : n < 10) (hp : s.pushable (s.getReg .sp) n = true)
    (hf : s.wordFault true (s.getReg .sp - BitVec.ofNat 16 (2 * n)).toNat = some f) (target : Word) :
    ∃ u, callTo target (s.advance k) = .raised f u ∧ PushesDone ((frameWords (s.advance k)).take n) (s.advance k) u := by
  obtain ⟨u, hu, hdone⟩ := pushState_broken (s := s.advance k) hn (by rwa [sp_advance, pushable_advance])
    (by rwa [sp_advance, wordFault_advance])
  exact ⟨u, callTo_of_raised target hu, hdone⟩

/-- A return broken off at pop number `n`, from a state that differs in `ip` and hidden state alone. -/
theorem popState_broken_of_unchanged_ip {b : State} {n : Nat} (h : Unchanged [.ip] [] s b)
    (hn : n < 11 + (s.popped (s.getReg .fp) 10).toNat) (hp : s.poppable (s.getReg .fp) n = true)
    (hf : s.wordFault false (s.getReg .fp + BitVec.ofNat 16 (2 * n + 2)).toNat = some f) :
    ∃ u, popState b = .raised f u ∧ PopsDone n b u ∧ u.inHandler = b.inHandler := by
  have hfp : b.getReg .fp = s.getReg .fp := h.regs .fp (by decide)
  exact popState_broken (by rwa [hfp, h.popped (by decide)]) (by rwa [hfp, h.poppable (by decide)])
    (by rwa [hfp, State.wordFault_congr h.cfg (h.regs .mb (by decide)) h.draws])

end

/-- Settles O51: the access is the next of a sequence of pushes or pops made with `ip` past the instruction. -/
theorem stackAccessTraps : Obligations.StackAccessTraps := by
  refine fun s f => ⟨traps_of_first_push, traps_pop, traps_of_first_pop, fun n hn hp hf => ⟨fun t => ?_, fun r => ?_⟩,
    fun n hn hp hf => ⟨?_, ?_⟩⟩
  · obtain ⟨u, hu, hdone⟩ := callTo_broken 3 hn hp hf t
    exact ⟨u, traps_of_raised (exec_calLit s t) hu, hdone⟩
  · obtain ⟨u, hu, hdone⟩ := callTo_broken 2 hn hp hf ((s.advance 2).getReg r)
    exact ⟨u, traps_of_raised (exec_calReg s r) hu, hdone⟩
  · obtain ⟨u, hu, hdone, hh⟩ := popState_broken_of_unchanged_ip (unchanged_advance s 1) hn hp hf
    exact ⟨u, traps_of_raised (exec_ret s) hu, hdone, hh⟩
  · obtain ⟨u, hu, hdone, hh⟩ := popState_broken_of_unchanged_ip (unchanged_advance_setInHandler s 1 false) hn hp hf
    exact ⟨u, traps_of_raised (exec_retInt s) hu, hdone.of_setInHandler, hh⟩

end Sys2Proof.Machine
end

section
/-!
PROOFS. The statements of 44_system.md's family: an accepted interrupt, by `INT` and by a host request alike (R230,
60_exceptions.md R260, R262): its entry into the handler outside and inside a handler (R264, R266), and the pushes or the vector
read that a fault breaks off (R252). An `INT` begins its entry with `ip` past its three bytes, a request with `ip` where it
stands, so each lemma speaks of an entry begun `n` bytes after `s`.
-/

namespace Sys2Proof.Machine

/-! ### The two ways to interrupt -/

theorem State.setReg_getReg (s : State) (r : Reg) : s.setReg r (s.getReg r) = s := by
  simp only [State.setReg, State.getReg, RegFile.set_get]

theorem advance_zero (s : State) : s.advance 0 = s := by
  rw [State.advance, BitVec.add_zero, State.setReg_getReg]

theorem hostInterrupt_of_ok {v : Word} {s t : State} (hc : s.cfg.wf = true) (hs : s.stopped = false)
    (h : handleInterrupt v s = .ok () t) : hostInterrupt v s = .next t := by
  simp [hostInterrupt, finish, hc, hs, h]

section
variable {s : State} {v : Word}

theorem interruptEnabled_advance (n : Nat) : interruptEnabled v (s.advance n) = interruptEnabled v s := by
  simp [interruptEnabled]

theorem wordAt_advance (n a : Nat) : (s.advance n).wordAt a = s.wordAt a :=
  State.wordAt_congr rfl (by simp) (fun _ => rfl) a

theorem loadWord_of_isSome {a : Nat} (d : Reg) (h : (s.wordCell a).isSome = true) :
    loadWord a d s = .ok () (s.setReg d (s.wordAt a)) := by
  rw [loadWord, memRead16_of_isSome h, Res.bind_ok]

/-- An entry that raises, wherever `ip` stood when it began. -/
theorem interruptRaises_of_raised {f : Fault} {after : State → State → Prop}
    (h : ∀ n, ∃ u, handleInterrupt v (s.advance n) = .raised f u ∧ after (s.advance n) u) :
    InterruptRaises v f s after := by
  constructor
  · obtain ⟨u, hu, hafter⟩ := h 3
    exact ⟨u, traps_of_raised (exec_int s v) hu, hafter⟩
  · intro hc hs
    obtain ⟨u, hu, hafter⟩ := h 0
    rw [advance_zero] at hu hafter
    exact ⟨u, hostInterrupt_of_raised hc hs hu, hafter⟩

variable (he : interruptEnabled v s = true)
include he

/-- A frame save that raises ends the entry. -/
theorem handleInterrupt_of_save_raised {f : Fault} {u : State} (h : saveInterruptFrame s = .raised f u) :
    handleInterrupt v s = .raised f u := by
  rw [handleInterrupt, if_pos (im_of_interruptEnabled he), h, Res.bind_raised]

/-! ### Inside a handler (60_exceptions.md R264) -/

/-- A nested entry loads `ip` from the vector. -/
theorem handleInterrupt_nested_advance (hh : s.inHandler = true) (n : Nat) :
    handleInterrupt v (s.advance n) = loadWord (vectorAddress s.cfg (interruptLine v)) .ip (s.advance n) :=
  handleInterrupt_nested ((interruptEnabled_advance n).trans he) hh

/-- Where the vector is readable, no trace is left of where `ip` stood. -/
theorem handleInterrupt_nested_of_vectorReadable (hh : s.inHandler = true) (hv : vectorReadable v s = true) (n : Nat) :
    handleInterrupt v (s.advance n) =
      .ok () (s.setReg .ip (s.wordAt (vectorAddress s.cfg (interruptLine v)))) := by
  rw [handleInterrupt_nested_advance he hh, loadWord_of_isSome .ip (by rw [wordCell_advance]; exact hv), wordAt_advance,
    State.advance, State.setReg_setReg]

/-! ### Outside a handler (60_exceptions.md R266) -/

/-- An entry whose pushes complete loads `ip` from the vector, the frame saved and `in_handler` set. -/
theorem handleInterrupt_advance_of_pushable (hh : s.inHandler = false) (hp : s.pushable (s.getReg .sp) 11 = true) (n : Nat) :
    ∃ m, handleInterrupt v (s.advance n) =
        loadWord (vectorAddress s.cfg (interruptLine v)) .ip (interruptState (s.advance n) m) ∧
      PushedOnto (s.advance n) (s.getReg .sp) (interruptWords (s.advance n)) m := by
  obtain ⟨m, hm, hwords⟩ := handleInterrupt_of_pushable (s := s.advance n) ((interruptEnabled_advance n).trans he) hh
    (by rwa [sp_advance, pushable_advance])
  rw [sp_advance] at hwords
  exact ⟨m, hm, hwords⟩

end

section
variable {s : State} {v : Word} {n : Nat} {m : Memory}
  (hm : PushedOnto (s.advance n) (s.getReg .sp) (interruptWords (s.advance n)) m)
include hm

/-- The frame save changes `sp`, `fp` and the cells pushed to. -/
theorem unchanged_interruptState :
    Unchanged [.sp, .fp] (s.pushedCells (s.getReg .sp) 11) (s.advance n) (interruptState (s.advance n) m) := by
  refine ⟨fun r hr => ?_, fun k hk => hm.same k ?_, rfl, rfl, rfl, rfl, rfl⟩
  · simp only [List.mem_cons, List.not_mem_nil, or_false, not_or] at hr
    simp [interruptState, afterPushes, hr]
  · rw [pushedCells_advance]
    exact hk

theorem handlerEntered_of_pushedOnto :
    HandlerEntered v s ((interruptState (s.advance n) m).setReg .ip
      ((interruptState (s.advance n) m).wordAt (vectorAddress s.cfg (interruptLine v)))) := by
  have hsaved := unchanged_interruptState hm
  refine ⟨?_, by simp [interruptState, afterPushes], by simp [interruptState], rfl, rfl,
    ⟨fun r hr => ?_, hsaved.mem, rfl, rfl, rfl, rfl, rfl⟩⟩
  · rw [State.getReg_setReg, if_pos rfl]
    exact (State.wordAt_congr (s := interruptState (s.advance n) m) rfl (by simp) (fun _ => rfl) _).symm
  · obtain ⟨hip, hr⟩ := List.ne_and_not_mem_of_not_mem_cons hr
    simp [hip, hsaved.regs r hr]

end

/-- An accepted entry outside a handler, begun `n` bytes after `s`. -/
theorem handleInterrupt_entersHandler {s : State} {v : Word} (he : interruptEnabled v s = true) (hh : s.inHandler = false)
    (hp : s.pushable (s.getReg .sp) 11 = true) (hv : vectorReadable v s = true) (n : Nat) :
    ∃ t, handleInterrupt v (s.advance n) = .ok () t ∧ HandlerEntered v s t ∧
      ((s.pushedCells (s.getReg .sp) 11).length = 22 → (s.pushedCells (s.getReg .sp) 11).Nodup →
        FrameHolds (s.getReg .ip + BitVec.ofNat 16 n) s t ∧ t.popped (t.getReg .fp) 0 = s.sfs + 22 ∧
          t.popped (t.getReg .fp) 10 = 0) := by
  obtain ⟨m, hm, hwords⟩ := handleInterrupt_advance_of_pushable he hh hp n
  rw [loadWord_of_isSome .ip (by rw [wordCell_interruptState, wordCell_advance]; exact hv)] at hm
  exact ⟨_, hm, handlerEntered_of_pushedOnto hwords, fun hlen hnd =>
    frameHolds_of_interruptWords rfl (by simp [interruptState, afterPushes]) hwords hlen hnd (by simp [interruptState])
      fun _ _ => rfl⟩

/-- Settles O52: the entry of an `INT` begins three bytes after `s`, that of a request at `s` itself. -/
theorem interruptEntry : Obligations.InterruptEntry := by
  intro s v he hh hp hv
  obtain ⟨t, hint, henter, hframe⟩ := handleInterrupt_entersHandler he hh hp hv 3
  obtain ⟨t', hreq, henter', hframe'⟩ := handleInterrupt_entersHandler he hh hp hv 0
  rw [advance_zero] at hreq
  have hexec : exec (.int v) s = .next t := (exec_int s v).trans (run_of_ok hint)
  refine ⟨⟨t, hexec, henter⟩, fun hc hs => ⟨t', hostInterrupt_of_ok hc hs hreq, henter'⟩, fun hlen hnd u resume hu => ?_⟩
  obtain ⟨hu, rfl⟩ | ⟨hc, hs, hu, rfl⟩ := hu
  · obtain rfl : t = u := by simpa [hexec] using hu
    exact hframe hlen hnd
  · obtain rfl : t' = u := by simpa [hostInterrupt_of_ok hc hs hreq] using hu
    simpa using hframe' hlen hnd

/-- Settles O53: the two nested entries end in the same state. -/
theorem nestedInterrupt : Obligations.NestedInterrupt := by
  intro s v he hh hv handler
  have hentry := handleInterrupt_nested_of_vectorReadable he hh hv
  refine ⟨⟨_, (exec_int s v).trans (run_of_ok (hentry 3)), by rw [State.getReg_setReg, if_pos rfl]; rfl, ⟨rfl, rfl⟩,
    ⟨fun r hr => ?_, fun _ _ => rfl, rfl, rfl, rfl, rfl, rfl⟩⟩, fun hc hs => ?_⟩
  · simp [List.mem_singleton.not.mp hr]
  · have hreq := hentry 0
    rw [advance_zero] at hreq
    exact hostInterrupt_of_ok hc hs hreq

/-! ### Entries that a fault breaks off (60_exceptions.md R252) -/

/-- A frame save whose first push faults changes nothing. -/
theorem saveInterruptFrame_of_wordFault {s : State} {f : Fault} (hh : s.inHandler = false)
    (h : s.wordFault true (s.getReg .sp).toNat = some f) : saveInterruptFrame s = .raised f s := by
  rw [saveInterruptFrame_eq hh, interruptWords, List.cons_append, pushList, push_of_wordFault _ h, Res.bind_raised,
    Res.bind_raised]

section
variable {s : State} {v : Word} {f : Fault} (he : interruptEnabled v s = true)
include he

theorem interruptRaises_of_first_push (hh : s.inHandler = false) (hf : s.wordFault true (s.getReg .sp).toNat = some f) :
    InterruptRaises v f s fun b u => u = b :=
  interruptRaises_of_raised fun n =>
    ⟨_, handleInterrupt_of_save_raised ((interruptEnabled_advance n).trans he)
      (saveInterruptFrame_of_wordFault hh (by rwa [sp_advance, wordFault_advance])), rfl⟩

/-- The entry broken off at push number `n`. -/
theorem interruptRaises_of_push {n : Nat} (hh : s.inHandler = false) (hn : n < 11)
    (hp : s.pushable (s.getReg .sp) n = true)
    (hf : s.wordFault true (s.getReg .sp - BitVec.ofNat 16 (2 * n)).toNat = some f) :
    InterruptRaises v f s fun b u => PushesDone ((interruptWords b).take n) b u := by
  refine interruptRaises_of_raised fun k => ?_
  obtain ⟨u, hu, hdone⟩ := saveInterruptFrame_broken (s := s.advance k) hh hn (by rwa [sp_advance, pushable_advance])
    (by rwa [sp_advance, wordFault_advance])
  exact ⟨u, handleInterrupt_of_save_raised ((interruptEnabled_advance k).trans he) hu, hdone⟩

theorem interruptRaises_of_nested_vector (hh : s.inHandler = true)
    (hf : s.wordFault false (vectorAddress s.cfg (interruptLine v)) = some f) :
    InterruptRaises v f s fun b u => u = b :=
  interruptRaises_of_raised fun n =>
    ⟨_, (handleInterrupt_nested_advance he hh n).trans
      (loadWord_of_wordFault .ip ((wordFault_advance s n false _).trans hf)), rfl⟩

/-- The vector read faults in the state that the frame save left. -/
theorem handleInterrupt_of_vector_wordFault (hh : s.inHandler = false) (hp : s.pushable (s.getReg .sp) 11 = true)
    (hf : s.wordFault false (vectorAddress s.cfg (interruptLine v)) = some f) (n : Nat) :
    ∃ m, handleInterrupt v (s.advance n) = .raised f (interruptState (s.advance n) m) ∧
      PushedOnto (s.advance n) (s.getReg .sp) (interruptWords (s.advance n)) m := by
  obtain ⟨m, hm, hwords⟩ := handleInterrupt_advance_of_pushable he hh hp n
  refine ⟨m, hm.trans (loadWord_of_wordFault .ip ?_), hwords⟩
  rwa [State.wordFault_congr (s := s) (t := interruptState (s.advance n) m) rfl (by simp [interruptState, afterPushes]) rfl]

end

/-- Settles O55: the entry is broken off in its frame save, or in the vector read with the frame saved where one is. -/
theorem interruptEntryTraps : Obligations.InterruptEntryTraps := by
  refine fun s v f he => ⟨interruptRaises_of_first_push he, fun hh _ hn hp hf => interruptRaises_of_push he hh hn hp hf,
    interruptRaises_of_nested_vector he, fun hh hp hf => interruptRaises_of_raised fun n => ?_⟩
  obtain ⟨m, hm, hwords⟩ := handleInterrupt_of_vector_wordFault he hh hp hf n
  refine ⟨_, hm, rfl, by simp [interruptState, afterPushes], by simp [interruptState], rfl, unchanged_interruptState hwords,
    fun hlen hnd => ?_⟩
  rw [State.getReg_advance, if_pos rfl]
  exact frameHolds_of_interruptWords rfl (by simp [interruptState, afterPushes]) hwords hlen hnd (by simp [interruptState])
    fun _ _ => rfl

end Sys2Proof.Machine
end
